-- ==== Sys2Proof/Word.lean ====
section
/-! DEFINITION. The byte, the operand sizes and the two-valued size attributes of the spec. -/

namespace Sys2Proof

/-- A byte of memory or of an algorithm's text: 8 bits, bit 0 the low-order one (R31). -/
abbrev Byte := BitVec 8

/-- The size of a memory operand or of a memory access: 1, 2 or 4 bytes (R33, R39). -/
inductive Size where
  | byte
  | word
  | dword
  deriving DecidableEq, Repr

/-- WORD_BYTES = 2 and DWORD_BYTES = 4 of R8. -/
def Size.bytes : Size → Nat
  | .byte => 1
  | .word => 2
  | .dword => 4

/-- BYTE_BITS = 8 of R8, times the number of bytes. -/
def Size.bits : Size → Nat
  | .byte => 8
  | .word => 16
  | .dword => 32

/-- The value of a size attribute (OperandSize, AddressSize, StackAddrSize): 16 or 32 (R88, R89, R92). -/
inductive AttrSize where
  | s16
  | s32
  deriving DecidableEq, Repr

def AttrSize.bits : AttrSize → Nat
  | .s16 => 16
  | .s32 => 32

/-- The access of OperandSize / 8 bytes that Push and Pop make (R42). -/
def AttrSize.size : AttrSize → Size
  | .s16 => .word
  | .s32 => .dword

@[simp] theorem Size.bits_eq (n : Size) : n.bits = 8 * n.bytes := by cases n <;> rfl

@[simp] theorem AttrSize.size_bits (a : AttrSize) : a.size.bits = a.bits := by cases a <;> rfl

end Sys2Proof
end

