-- ==== Sys2Proof/Syntax.lean ====
section
/-! DEFINITION. The syntax of the Operation notation: names, expressions, destinations and `Instr`, one
constructor per row of spec/opcode_table.json. Spelling is in Decode.lean, meaning in Machine/. -/

namespace Sys2Proof

/-- The registers the document names (R13). -/
inductive Reg where
  | eax
  | esp
  | sp
  | si
  | di
  deriving DecidableEq, Repr

/-- A register as another form names it, in brackets, as the base of Bit or as the argument of Addr: one of the five,
or eSP, which denotes ESP or SP (R97). DESIGN CHOICE (log entry 16): the spec does not say that eSP may stand there. -/
inductive RegName where
  | reg (r : Reg)
  | eSP
  deriving DecidableEq, Repr

/-- The segment registers the document names (R19). -/
inductive SegReg where
  | es
  | ds
  | ss
  deriving DecidableEq, Repr

/-- The algorithm-local variables and the formal arguments of the function definitions (R26). -/
inductive LocalName where
  | retVal
  | ptr
  | bitStringAddr
  | maskShift
  | nBitMask
  | mask
  | checkString
  | value
  | ioAddress
  | width
  deriving DecidableEq, Repr

/-- The operand identifiers SRC, DEST, LeftSRC and RightSRC (R93, R94, R95). -/
inductive OperandName where
  | src
  | dest
  | leftSrc
  | rightSrc
  deriving DecidableEq, Repr

/-- The symbolic constants BYTE, WORD and DWORD (R62). -/
inductive IoWidth where
  | byte
  | word
  | dword
  deriving DecidableEq, Repr

/-- The mnemonic form of the instruction whose Operation section is running (R96): one of the two names the
document uses, or any other. -/
inductive InstrName where
  | cmpsw
  | cmpsd
  | other
  deriving DecidableEq, Repr

/-- The operators of R79 to R87. SHR and SHL are spelled as calls, the others between their operands. -/
inductive BinOp where
  | eq
  | ne
  | ge
  | le
  | mul
  | add
  | sub
  | and
  | shr
  | shl
  | div
  | mod
  deriving DecidableEq, Repr

/-- What may stand between the brackets of `Addr( )`: an operand identifier (R99), or a register or a
numeral, which R99 refuses by name. -/
inductive AddrArg where
  | operand (o : OperandName)
  | reg (r : RegName)
  | num (n : Int)
  deriving DecidableEq, Repr

/-- Expressions of the notation. The atoms without a row of the table are numerals (R58), TRUE and FALSE,
BYTE, WORD and DWORD and the predicate `TSS type is 16-bit` (R62), local variables (R26) and the two
address expressions `[TSS+66]` and `[BitStringAddr]` (R61 d). -/
inductive Expr where
  | num (n : Int)
  | truth (b : Bool)
  | ioWidth (w : IoWidth)
  | tssIs16
  | loc (l : LocalName)
  | tssPointer
  | bitString
  | reg (r : Reg)
  | memReg (r : Reg)
  | memSegReg (g : SegReg) (r : RegName)
  | memOperand (o : OperandName)
  | operandSize
  | addressSize
  | stackAddrSize
  | operand (o : OperandName)
  | instruction
  | eSP
  | cmpsw
  | cmpsd
  | bin (op : BinOp) (a b : Expr)
  | truncate16 (e : Expr)
  | addr (a : AddrArg)
  | zeroExtend (e : Expr)
  | signExtend (e : Expr)
  | pop
  | popSt
  | bitReg (r : RegName) (off : Expr)
  | bitMem (g : SegReg) (base off : Expr)
  | bitOperand (o : OperandName) (off : Expr)
  | ioPermission (a w : Expr)
  | switchTasks
  deriving DecidableEq, Repr

/-- The BitBase of `Bit[BitBase, BitOffset]` (R107): a register, a memory address written as a segment and an
offset, or an operand of the instruction, which is one or the other. -/
inductive BitBase where
  | reg (r : RegName)
  | mem (g : SegReg) (base : Expr)
  | operand (o : OperandName)
  deriving DecidableEq, Repr

/-- The expression `Bit[base, off]`. -/
def BitBase.bit : BitBase → Expr → Expr
  | .reg r, off => .bitReg r off
  | .mem g base, off => .bitMem g base off
  | .operand o, off => .bitOperand o off

/-- What may stand on the left of `<-` (R78): a register or eSP (R97), a bracketed location, the two of R61 d among them, DEST
(R94), a local variable, or OperandSize (R88). -/
inductive Dest where
  | reg (r : Reg)
  | eSP
  | memReg (r : Reg)
  | memSegReg (g : SegReg) (r : RegName)
  | memOperand (o : OperandName)
  | dest
  | loc (l : LocalName)
  | operandSize
  | tssPointer
  | bitString
  deriving DecidableEq, Repr

/-- The label of a CASE arm: a constant (R72). Which constants: the unsigned numerals, TRUE, FALSE, BYTE, WORD and DWORD, a
DESIGN CHOICE (log entry 26). -/
inductive Label where
  | num (n : Nat)
  | truth (b : Bool)
  | ioWidth (w : IoWidth)
  deriving DecidableEq, Repr

mutual

/-- One constructor per row of spec/opcode_table.json, in the table's order. A statement row is the statement,
and a function row is a call of it, which may stand as a statement too (R6); an operand, operator or identifier row is
that form standing on its own, as a text of its own (log entry 2). -/
inductive Instr where
  | comment (text : List Byte)
  | ifThen (cond : Expr) (thn els : Block)
  | doLoop (body : Block)
  | caseOf (sel : Expr) (arms : Arms)
  | endRun
  | ret (e : Expr)
  | assign (d : Dest) (e : Expr)
  | reg (r : Reg)
  | memReg (r : Reg)
  | memSegReg (g : SegReg) (r : RegName)
  | memOperand (o : OperandName)
  | eq (a b : Expr)
  | ne (a b : Expr)
  | ge (a b : Expr)
  | le (a b : Expr)
  | mul (a b : Expr)
  | add (a b : Expr)
  | sub (a b : Expr)
  | and (a b : Expr)
  | shr (a b : Expr)
  | shl (a b : Expr)
  | div (a b : Expr)
  | mod (a b : Expr)
  | operandSize
  | addressSize
  | stackAddrSize
  | src
  | dest
  | leftSrc
  | rightSrc
  | instruction
  | eSP
  | cmpsw
  | cmpsd
  | truncate16 (e : Expr)
  | addr (a : AddrArg)
  | zeroExtend (e : Expr)
  | signExtend (e : Expr)
  | push (e : Expr)
  | pop
  | popSt
  | bit (base : BitBase) (off : Expr)
  | ioPermission (a w : Expr)
  | switchTasks
  deriving DecidableEq, Repr

/-- A sequence of statements (R68). Which instructions are statements is a check (`Instr.isForm`). -/
inductive Block where
  | nil
  | cons (i : Instr) (rest : Block)
  deriving DecidableEq, Repr

/-- The arms of a CASE (R72). -/
inductive Arms where
  | nil
  | cons (l : Label) (body : Block) (rest : Arms)
  deriving DecidableEq, Repr

end

/-- The statements of `a` and then those of `b`. -/
def Block.append : Block → Block → Block
  | .nil, b => b
  | .cons i a, b => .cons i (a.append b)

/-- The form that stands on its own as an instruction, where the table has a row for it. -/
def Expr.toInstr : Expr → Option Instr
  | .reg r => some (.reg r)
  | .memReg r => some (.memReg r)
  | .memSegReg g r => some (.memSegReg g r)
  | .memOperand o => some (.memOperand o)
  | .bin .eq a b => some (.eq a b)
  | .bin .ne a b => some (.ne a b)
  | .bin .ge a b => some (.ge a b)
  | .bin .le a b => some (.le a b)
  | .bin .mul a b => some (.mul a b)
  | .bin .add a b => some (.add a b)
  | .bin .sub a b => some (.sub a b)
  | .bin .and a b => some (.and a b)
  | .bin .shr a b => some (.shr a b)
  | .bin .shl a b => some (.shl a b)
  | .bin .div a b => some (.div a b)
  | .bin .mod a b => some (.mod a b)
  | .operandSize => some .operandSize
  | .addressSize => some .addressSize
  | .stackAddrSize => some .stackAddrSize
  | .operand .src => some .src
  | .operand .dest => some .dest
  | .operand .leftSrc => some .leftSrc
  | .operand .rightSrc => some .rightSrc
  | .instruction => some .instruction
  | .eSP => some .eSP
  | .cmpsw => some .cmpsw
  | .cmpsd => some .cmpsd
  | .truncate16 e => some (.truncate16 e)
  | .addr a => some (.addr a)
  | .zeroExtend e => some (.zeroExtend e)
  | .signExtend e => some (.signExtend e)
  | .pop => some .pop
  | .popSt => some .popSt
  | .bitReg r off => some (.bit (.reg r) off)
  | .bitMem g base off => some (.bit (.mem g base) off)
  | .bitOperand o off => some (.bit (.operand o) off)
  | .ioPermission a w => some (.ioPermission a w)
  | .switchTasks => some .switchTasks
  | .num _ => none
  | .truth _ => none
  | .ioWidth _ => none
  | .tssIs16 => none
  | .loc _ => none
  | .tssPointer => none
  | .bitString => none

/-- The expression that an instruction of an operand, operator, identifier or function row is; none for the
statement rows, COMMENT and PUSH. -/
def Instr.toExpr : Instr → Option Expr
  | .comment _ => none
  | .ifThen _ _ _ => none
  | .doLoop _ => none
  | .caseOf _ _ => none
  | .endRun => none
  | .ret _ => none
  | .assign _ _ => none
  | .push _ => none
  | .reg r => some (.reg r)
  | .memReg r => some (.memReg r)
  | .memSegReg g r => some (.memSegReg g r)
  | .memOperand o => some (.memOperand o)
  | .eq a b => some (.bin .eq a b)
  | .ne a b => some (.bin .ne a b)
  | .ge a b => some (.bin .ge a b)
  | .le a b => some (.bin .le a b)
  | .mul a b => some (.bin .mul a b)
  | .add a b => some (.bin .add a b)
  | .sub a b => some (.bin .sub a b)
  | .and a b => some (.bin .and a b)
  | .shr a b => some (.bin .shr a b)
  | .shl a b => some (.bin .shl a b)
  | .div a b => some (.bin .div a b)
  | .mod a b => some (.bin .mod a b)
  | .operandSize => some .operandSize
  | .addressSize => some .addressSize
  | .stackAddrSize => some .stackAddrSize
  | .src => some (.operand .src)
  | .dest => some (.operand .dest)
  | .leftSrc => some (.operand .leftSrc)
  | .rightSrc => some (.operand .rightSrc)
  | .instruction => some .instruction
  | .eSP => some .eSP
  | .cmpsw => some .cmpsw
  | .cmpsd => some .cmpsd
  | .truncate16 e => some (.truncate16 e)
  | .addr a => some (.addr a)
  | .zeroExtend e => some (.zeroExtend e)
  | .signExtend e => some (.signExtend e)
  | .pop => some .pop
  | .popSt => some .popSt
  | .bit base off => some (base.bit off)
  | .ioPermission a w => some (.ioPermission a w)
  | .switchTasks => some .switchTasks

end Sys2Proof
end

