-- ==== Sys2Proof/WellFormed.lean ====
section
/-! DEFINITION. Which terms of `Instr` the grammar derives. The type already keeps out most texts that it does
not; the checks here are the rest: a bracketed register without a segment is SI, a comment holds no closing
symbol, a CASE has at least one arm and no label twice, and only a statement or a call of a function stands among
statements. Where a RETURN may stand is a check on a run, not
on a term (`Block.hasReturn`). -/

namespace Sys2Proof

/-- Only SI has a default segment (R36, R75). -/
def Reg.hasDefaultSegment (r : Reg) : Bool := decide (r = .si)

/-- A comment closes at the first `*)` (R55, R67), so its text holds none. -/
def noCloser : List Byte → Bool
  | [] => true
  | [_] => true
  | a :: b :: rest => !(a == 0x2A && b == 0x29) && noCloser (b :: rest)

def Expr.wf : Expr → Bool
  | .num _ => true
  | .truth _ => true
  | .ioWidth _ => true
  | .tssIs16 => true
  | .loc _ => true
  | .tssPointer => true
  | .bitString => true
  | .reg _ => true
  | .memReg r => r.hasDefaultSegment
  | .memSegReg _ _ => true
  | .memOperand _ => true
  | .operandSize => true
  | .addressSize => true
  | .stackAddrSize => true
  | .operand _ => true
  | .instruction => true
  | .eSP => true
  | .cmpsw => true
  | .cmpsd => true
  | .bin _ a b => a.wf && b.wf
  | .truncate16 e => e.wf
  | .addr _ => true
  | .zeroExtend e => e.wf
  | .signExtend e => e.wf
  | .pop => true
  | .popSt => true
  | .bitReg _ off => off.wf
  | .bitMem _ base off => base.wf && off.wf
  | .bitOperand _ off => off.wf
  | .ioPermission a w => a.wf && w.wf
  | .switchTasks => true

def Dest.wf : Dest → Bool
  | .reg _ => true
  | .eSP => true
  | .memReg r => r.hasDefaultSegment
  | .memSegReg _ _ => true
  | .memOperand _ => true
  | .dest => true
  | .loc _ => true
  | .operandSize => true
  | .tssPointer => true
  | .bitString => true

def BitBase.wf : BitBase → Bool
  | .reg _ => true
  | .mem _ base => base.wf
  | .operand _ => true

/-- Whether the instruction is the form of an operand, an operator or an identifier, which no rule derives as a
statement (R66). The statements, the calls of the ten functions and the two instruction names are not: R6 makes an
instruction of "a statement or function call", and R90 and R91 speak of executing the two. -/
def Instr.isForm : Instr → Bool
  | .comment _ => false
  | .ifThen _ _ _ => false
  | .doLoop _ => false
  | .caseOf _ _ => false
  | .endRun => false
  | .ret _ => false
  | .assign _ _ => false
  | .reg _ => true
  | .memReg _ => true
  | .memSegReg _ _ => true
  | .memOperand _ => true
  | .eq _ _ => true
  | .ne _ _ => true
  | .ge _ _ => true
  | .le _ _ => true
  | .mul _ _ => true
  | .add _ _ => true
  | .sub _ _ => true
  | .and _ _ => true
  | .shr _ _ => true
  | .shl _ _ => true
  | .div _ _ => true
  | .mod _ _ => true
  | .operandSize => true
  | .addressSize => true
  | .stackAddrSize => true
  | .src => true
  | .dest => true
  | .leftSrc => true
  | .rightSrc => true
  | .instruction => true
  | .eSP => true
  | .cmpsw => false
  | .cmpsd => false
  | .truncate16 _ => false
  | .addr _ => false
  | .zeroExtend _ => false
  | .signExtend _ => false
  | .push _ => false
  | .pop => false
  | .popSt => false
  | .bit _ _ => false
  | .ioPermission _ _ => false
  | .switchTasks => false

/-- Whether some arm has the label `l`. -/
def Arms.hasLabel (l : Label) : Arms → Bool
  | .nil => false
  | .cons l' _ rest => decide (l' = l) || rest.hasLabel l

mutual

def Instr.wf : Instr → Bool
  | .comment text => noCloser text
  | .ifThen c t e => c.wf && t.wf && e.wf
  | .doLoop b => b.wf
  | .caseOf e arms => e.wf && decide (arms ≠ .nil) && arms.wf
  | .endRun => true
  | .ret e => e.wf
  | .assign d e => d.wf && e.wf
  | .reg _ => true
  | .memReg r => r.hasDefaultSegment
  | .memSegReg _ _ => true
  | .memOperand _ => true
  | .eq a b => a.wf && b.wf
  | .ne a b => a.wf && b.wf
  | .ge a b => a.wf && b.wf
  | .le a b => a.wf && b.wf
  | .mul a b => a.wf && b.wf
  | .add a b => a.wf && b.wf
  | .sub a b => a.wf && b.wf
  | .and a b => a.wf && b.wf
  | .shr a b => a.wf && b.wf
  | .shl a b => a.wf && b.wf
  | .div a b => a.wf && b.wf
  | .mod a b => a.wf && b.wf
  | .operandSize => true
  | .addressSize => true
  | .stackAddrSize => true
  | .src => true
  | .dest => true
  | .leftSrc => true
  | .rightSrc => true
  | .instruction => true
  | .eSP => true
  | .cmpsw => true
  | .cmpsd => true
  | .truncate16 e => e.wf
  | .addr _ => true
  | .zeroExtend e => e.wf
  | .signExtend e => e.wf
  | .push e => e.wf
  | .pop => true
  | .popSt => true
  | .bit base off => base.wf && off.wf
  | .ioPermission a w => a.wf && w.wf
  | .switchTasks => true

/-- Each is a statement (R66). -/
def Block.wf : Block → Bool
  | .nil => true
  | .cons i rest => !i.isForm && i.wf && rest.wf

/-- No label twice (R72). -/
def Arms.wf : Arms → Bool
  | .nil => true
  | .cons l b rest => !rest.hasLabel l && b.wf && rest.wf

end

/-- `i` is a term that the grammar derives. -/
abbrev WellFormed (i : Instr) : Prop := i.wf = true

mutual

/-- Whether a RETURN stands in the instruction. A RETURN outside a function body is refused (R73). -/
def Instr.hasReturn : Instr → Bool
  | .comment _ => false
  | .ifThen _ t e => t.hasReturn || e.hasReturn
  | .doLoop b => b.hasReturn
  | .caseOf _ arms => arms.hasReturn
  | .endRun => false
  | .ret _ => true
  | .assign _ _ => false
  | .reg _ => false
  | .memReg _ => false
  | .memSegReg _ _ => false
  | .memOperand _ => false
  | .eq _ _ => false
  | .ne _ _ => false
  | .ge _ _ => false
  | .le _ _ => false
  | .mul _ _ => false
  | .add _ _ => false
  | .sub _ _ => false
  | .and _ _ => false
  | .shr _ _ => false
  | .shl _ _ => false
  | .div _ _ => false
  | .mod _ _ => false
  | .operandSize => false
  | .addressSize => false
  | .stackAddrSize => false
  | .src => false
  | .dest => false
  | .leftSrc => false
  | .rightSrc => false
  | .instruction => false
  | .eSP => false
  | .cmpsw => false
  | .cmpsd => false
  | .truncate16 _ => false
  | .addr _ => false
  | .zeroExtend _ => false
  | .signExtend _ => false
  | .push _ => false
  | .pop => false
  | .popSt => false
  | .bit _ _ => false
  | .ioPermission _ _ => false
  | .switchTasks => false

def Block.hasReturn : Block → Bool
  | .nil => false
  | .cons i rest => i.hasReturn || rest.hasReturn

def Arms.hasReturn : Arms → Bool
  | .nil => false
  | .cons _ b rest => b.hasReturn || rest.hasReturn

end

end Sys2Proof
end

