-- ==== Sys2Proof/Decode.lean ====
section
/-! DEFINITION. The encoding of this machine is the spelling of the notation (R53): a text is divided into
tokens (R54 to R63) and the tokens are parsed (R66 to R87). Both are total on any bytes and refuse by name.
After the decoder stands the encoder, the canonical spelling. -/

namespace Sys2Proof

/-- The refusals that reading a text can end in; `Machine.refusalOf` gives each its name in R115. -/
inductive DecodeError where
  | notInGrammar
  | machineCode
  | unknownName
  | flagName
  | noDefaultSegment
  | bitAsDestination
  deriving DecidableEq, Repr

/-- The keywords of R56. -/
inductive Keyword where
  | if_
  | then_
  | else_
  | fi
  | do_
  | od
  | case
  | of
  | esac
  | end_
  | return_
  | and
  | div
  | mod
  | true_
  | false_
  | byte
  | word
  | dword
  deriving DecidableEq, Repr

/-- The function names of R60, with SHR and SHL. -/
inductive FnName where
  | truncate16
  | addr
  | zeroExtend
  | signExtend
  | push
  | pop
  | popSt
  | bit
  | ioPermission
  | switchTasks
  | shr
  | shl
  deriving DecidableEq, Repr

/-- The tokens: keywords (R56), names (R59), numerals (R58), comments (R55), symbols (R54) and punctuation. `num` is a
numeral of decimal digits without a leading zero, `altNum` any other spelling of a number: hexadecimal, or with leading
zeros. The two read alike everywhere but in `[TSS+66]`, which the document spells in one way (R61). -/
inductive Token where
  | kw (k : Keyword)
  | reg (r : Reg)
  | seg (g : SegReg)
  | loc (l : LocalName)
  | operand (o : OperandName)
  | operandSize
  | addressSize
  | stackAddrSize
  | instruction
  | eSP
  | cmpsw
  | cmpsd
  | fn (f : FnName)
  | tss
  | tssIs16
  | num (n : Nat)
  | altNum (n : Nat)
  | comment (text : List Byte)
  | assign
  | eq
  | ne
  | ge
  | le
  | star
  | plus
  | minus
  | semi
  | colon
  | comma
  | lpar
  | rpar
  | lbrk
  | rbrk
  deriving DecidableEq, Repr

/-! ## Characters and spellings -/

/-- The bytes of an ASCII string. -/
def ascii (s : String) : List Byte := s.toByteArray.data.toList.map fun b => b.toBitVec

def Keyword.spelling : Keyword → String
  | .if_ => "IF"
  | .then_ => "THEN"
  | .else_ => "ELSE"
  | .fi => "FI"
  | .do_ => "DO"
  | .od => "OD"
  | .case => "CASE"
  | .of => "OF"
  | .esac => "ESAC"
  | .end_ => "END"
  | .return_ => "RETURN"
  | .and => "AND"
  | .div => "DIV"
  | .mod => "MOD"
  | .true_ => "TRUE"
  | .false_ => "FALSE"
  | .byte => "BYTE"
  | .word => "WORD"
  | .dword => "DWORD"

def FnName.spelling : FnName → String
  | .truncate16 => "Truncate to 16 bits"
  | .addr => "Addr"
  | .zeroExtend => "ZeroExtend"
  | .signExtend => "SignExtend"
  | .push => "Push"
  | .pop => "Pop"
  | .popSt => "Pop ST"
  | .bit => "Bit"
  | .ioPermission => "I-O-Permission"
  | .switchTasks => "Switch-Tasks"
  | .shr => "SHR"
  | .shl => "SHL"

def Reg.spelling : Reg → String
  | .eax => "EAX"
  | .esp => "ESP"
  | .sp => "SP"
  | .si => "SI"
  | .di => "DI"

def SegReg.spelling : SegReg → String
  | .es => "ES"
  | .ds => "DS"
  | .ss => "SS"

def LocalName.spelling : LocalName → String
  | .retVal => "ret val"
  | .ptr => "Ptr"
  | .bitStringAddr => "BitStringAddr"
  | .maskShift => "MaskShift"
  | .nBitMask => "nBitMask"
  | .mask => "mask"
  | .checkString => "CheckString"
  | .value => "value"
  | .ioAddress => "I-O-Address"
  | .width => "width"

def OperandName.spelling : OperandName → String
  | .src => "SRC"
  | .dest => "DEST"
  | .leftSrc => "LeftSRC"
  | .rightSrc => "RightSRC"

/-- The decimal digits of `n` before `acc`; `fuel` bounds their number. -/
def digitsAux : Nat → Nat → List Byte → List Byte
  | 0, _, acc => acc
  | fuel + 1, n, acc =>
    let acc' := BitVec.ofNat 8 (0x30 + n % 10) :: acc
    if n < 10 then acc' else digitsAux fuel (n / 10) acc'

/-- The decimal numeral of `n` (R58). -/
def digits (n : Nat) : List Byte := digitsAux (n + 1) n []

/-- The canonical spelling of a token (R54). -/
def Token.spelling : Token → List Byte
  | .kw k => ascii k.spelling
  | .reg r => ascii r.spelling
  | .seg g => ascii g.spelling
  | .loc l => ascii l.spelling
  | .operand o => ascii o.spelling
  | .operandSize => ascii "OperandSize"
  | .addressSize => ascii "AddressSize"
  | .stackAddrSize => ascii "StackAddrSize"
  | .instruction => ascii "instruction"
  | .eSP => ascii "eSP"
  | .cmpsw => ascii "CMPSW"
  | .cmpsd => ascii "CMPSD"
  | .fn f => ascii f.spelling
  | .tss => ascii "TSS"
  | .tssIs16 => ascii "TSS type is 16-bit"
  | .num n => digits n
  | .altNum n => ascii "0" ++ digits n
  | .comment text => ascii "(*" ++ text ++ ascii "*)"
  | .assign => ascii "<-"
  | .eq => ascii "="
  | .ne => ascii "<>"
  | .ge => ascii ">="
  | .le => ascii "<="
  | .star => ascii "*"
  | .plus => ascii "+"
  | .minus => ascii "-"
  | .semi => ascii ";"
  | .colon => ascii ":"
  | .comma => ascii ","
  | .lpar => ascii "("
  | .rpar => ascii ")"
  | .lbrk => ascii "["
  | .rbrk => ascii "]"

/-- The names and keywords of five characters and more, longest spelling first. -/
def longWordTokens : List Token :=
  [.fn .truncate16, .tssIs16,
   .fn .ioPermission, .loc .bitStringAddr, .stackAddrSize, .fn .switchTasks,
   .operandSize, .addressSize, .instruction, .loc .ioAddress, .loc .checkString,
   .fn .zeroExtend, .fn .signExtend, .loc .maskShift, .operand .rightSrc, .loc .nBitMask,
   .loc .retVal, .operand .leftSrc, .fn .popSt, .kw .return_,
   .cmpsw, .cmpsd, .loc .value, .loc .width, .kw .false_, .kw .dword]

/-- The names and keywords of four characters and fewer, longest spelling first. -/
def shortWordTokens : List Token :=
  [.fn .addr, .fn .push, .loc .mask, .operand .dest, .kw .then_, .kw .else_, .kw .case, .kw .esac, .kw .true_,
   .kw .byte, .kw .word,
   .fn .pop, .fn .bit, .fn .shr, .fn .shl, .loc .ptr, .operand .src, .eSP, .tss, .reg .eax, .reg .esp, .kw .end_,
   .kw .and, .kw .div, .kw .mod,
   .reg .sp, .reg .si, .reg .di, .seg .es, .seg .ds, .seg .ss, .kw .if_, .kw .fi, .kw .do_, .kw .od, .kw .of]

/-- Names and keywords, longest spelling first (R59: "longest match first"). -/
def wordTokens : List Token := longWordTokens ++ shortWordTokens

/-- The spellings the tokeniser looks for at a letter, with `BIT` as an alias of `Bit` (R63). -/
def wordSpellings : List (List Byte × Token) :=
  wordTokens.map (fun t => (t.spelling, t)) ++ [(ascii "BIT", .fn .bit)]

/-- Names of flags and flag registers, which R24 refuses. PRESUMED (log entry 11): the document names none, so
the list is taken from the x86 family. -/
def flagNames : List (List Byte) :=
  ["CF", "PF", "AF", "ZF", "SF", "TF", "DF", "IOPL", "NT", "RF", "VM", "FLAGS", "EFLAGS"].map ascii

/-- White space: space, tab, line feed, carriage return. -/
def isSpace (c : Byte) : Bool := c == 0x20 || c == 0x09 || c == 0x0A || c == 0x0D

def isDigit (c : Byte) : Bool := 0x30 ≤ c.toNat && c.toNat ≤ 0x39

/-- A letter of a hexadecimal numeral: A to F (R58). -/
def isHexLetter (c : Byte) : Bool := 0x41 ≤ c.toNat && c.toNat ≤ 0x46

def isLetter (c : Byte) : Bool :=
  (0x41 ≤ c.toNat && c.toNat ≤ 0x5A) || (0x61 ≤ c.toNat && c.toNat ≤ 0x7A)

def isWordChar (c : Byte) : Bool := isLetter c || isDigit c

/-- A byte that no text of the notation holds outside a comment: a control or 8-bit character other than white
space and the source's symbols 11H, F2H and F3H (R54). A text with one is taken for machine code (R53).
DEDUCED (log entry 11). -/
def isForeign (c : Byte) : Bool :=
  !(isSpace c || c == 0x11 || c == 0xF2 || c == 0xF3 || (0x20 ≤ c.toNat && c.toNat ≤ 0x7E))

/-- Whether a foreign byte stands outside the comments of a text; the flag says whether the text starts inside
a comment. -/
def hasForeign : Bool → List Byte → Bool
  | _, [] => false
  | false, [c] => isForeign c
  | true, [_] => false
  | false, a :: b :: rest =>
    if a == 0x28 && b == 0x2A then hasForeign true rest else isForeign a || hasForeign false (b :: rest)
  | true, a :: b :: rest =>
    if a == 0x2A && b == 0x29 then hasForeign false rest else hasForeign true (b :: rest)

/-! ## Tokens -/

/-- What follows the white space and the comments at the head of a text; the flag says whether the text starts inside
a comment. -/
def skipGap : Bool → List Byte → List Byte
  | _, [] => []
  | false, [c] => if isSpace c then [] else [c]
  | true, [_] => []
  | false, a :: b :: rest =>
    if isSpace a then skipGap false (b :: rest)
    else if a == 0x28 && b == 0x2A then skipGap true rest
    else a :: b :: rest
  | true, a :: b :: rest =>
    if a == 0x2A && b == 0x29 then skipGap false rest else skipGap true (b :: rest)

/-- Whether white space or a comment stands at the head of a text. -/
def startsGap (text : List Byte) : Bool :=
  match text with
  | [] => false
  | c :: rest => isSpace c || (c == 0x28 && rest.head? == some 0x2A)

/-- What follows the spelling `pat` at the head of a text. A space inside a name matches any white space, since the
source itself breaks `ret val` over a line (N35), and any comments in it. That R55 lets a comment stand inside a name
is a DESIGN CHOICE (log entry 11): the spec shows none there. -/
def stripSpelling : List Byte → List Byte → Option (List Byte)
  | [], text => some text
  | _ :: _, [] => none
  | p :: pat, c :: text =>
    if p == 0x20 then
      if startsGap (c :: text) then stripSpelling pat (skipGap false (c :: text)) else none
    else if p == c then stripSpelling pat text else none

/-- A name ends where no letter or digit continues it. R59 says "longest match first" and no more: that `TRUETHEN`, `SPAND7` and
`2THEN` are each one word, and no name or numeral with another after it, is a DESIGN CHOICE (log entry 11). -/
def atBoundary : List Byte → Bool
  | [] => true
  | c :: _ => !isWordChar c

/-- The first spelling of the list that stands at the head of a text as a whole name. -/
def findSpelling : List (List Byte × Token) → List Byte → Option (Token × List Byte)
  | [], _ => none
  | (pat, t) :: more, text =>
    match stripSpelling pat text with
    | some rest => if atBoundary rest then some (t, rest) else findSpelling more text
    | none => findSpelling more text

/-- The letters and digits at the head of a text, and what follows them. -/
def takeWord : List Byte → List Byte × List Byte
  | [] => ([], [])
  | c :: rest =>
    if isWordChar c then
      let (w, r) := takeWord rest
      (c :: w, r)
    else ([], c :: rest)

/-- The value of a hexadecimal digit. -/
def hexValue (c : Byte) : Nat := if isDigit c then c.toNat - 0x30 else c.toNat - 0x37

/-- The value of `hexDigits H`, when the word is one or more hexadecimal digits and then the letter H (R58). -/
def hexNumeral? (w : List Byte) : Option Nat :=
  let ds := w.dropLast
  if w.getLast? == some 0x48 && !ds.isEmpty && ds.all (fun c => isDigit c || isHexLetter c) then
    some (ds.foldl (fun n c => 16 * n + hexValue c) 0)
  else none

/-- The value of a word of decimal digits (R58). -/
def decimalNumeral? (w : List Byte) : Option Nat :=
  if !w.isEmpty && w.all isDigit then some (w.foldl (fun n c => 10 * n + (c.toNat - 0x30)) 0) else none

/-- A word that no listed name matches: a numeral, or refused by name. That the name of another x86 instruction, one of the
floating-point unit included, is an UnknownName and not an InstructionPageMissing or a FpuNotInSource, whose rows in R115
overlap it, is a DESIGN CHOICE (log entry 11). That a word which starts with a digit and is no numeral, as `2X`, `66F` or `0x10`,
is NotInGrammar and no UnknownName is a DESIGN CHOICE too (log entry 11). -/
def wordToken (w : List Byte) : Except DecodeError Token :=
  match hexNumeral? w with
  | some n => .ok (.altNum n)
  | none =>
    match decimalNumeral? w with
    | some n => .ok (if w = digits n then .num n else .altNum n)
    | none =>
      if (w.head?.map isDigit).getD false then .error .notInGrammar
      else if flagNames.contains w then .error .flagName
      else .error .unknownName

/-- The text of a comment up to the first `*)`, and what follows it (R55). -/
def findCloser : List Byte → Option (List Byte × List Byte)
  | [] => none
  | [_] => none
  | a :: b :: rest =>
    if a == 0x2A && b == 0x29 then some ([], rest)
    else (findCloser (b :: rest)).map fun (t, r) => (a :: t, r)

/-- The symbols of two characters. -/
def symbol2? (a b : Byte) : Option Token :=
  if a == 0x3C && b == 0x2D then some .assign
  else if a == 0x3C && b == 0x3E then some .ne
  else if a == 0x3C && b == 0x3D then some .le
  else if a == 0x3E && b == 0x3D then some .ge
  else none

/-- The symbols of one character, the source's bytes 11H, F2H and F3H among them (R54). -/
def symbol1? (c : Byte) : Option Token :=
  if c == 0x11 then some .assign
  else if c == 0xF2 then some .ge
  else if c == 0xF3 then some .le
  else if c == 0x3D then some .eq
  else if c == 0x2A then some .star
  else if c == 0x2B then some .plus
  else if c == 0x2D then some .minus
  else if c == 0x3B then some .semi
  else if c == 0x3A then some .colon
  else if c == 0x2C then some .comma
  else if c == 0x28 then some .lpar
  else if c == 0x29 then some .rpar
  else if c == 0x5B then some .lbrk
  else if c == 0x5D then some .rbrk
  else none

/-- The symbol at the head of a text. -/
def lexSymbol : List Byte → Except DecodeError (Token × List Byte)
  | [] => .error .notInGrammar
  | [c] =>
    match symbol1? c with
    | some t => .ok (t, [])
    | none => .error .notInGrammar
  | a :: b :: rest =>
    match symbol2? a b with
    | some t => .ok (t, rest)
    | none =>
      match symbol1? a with
      | some t => .ok (t, b :: rest)
      | none => .error .notInGrammar

/-- The token at the head of a text that starts with no white space. -/
def lexToken (text : List Byte) : Except DecodeError (Token × List Byte) :=
  match text with
  | [] => .error .notInGrammar
  | c :: rest =>
    if c == 0x28 && rest.head? == some 0x2A then
      match findCloser rest.tail with
      | some (t, r) => .ok (.comment t, r)
      | none => .error .notInGrammar
    else if isWordChar c then
      match findSpelling wordSpellings text with
      | some found => .ok found
      | none =>
        let (w, r) := takeWord text
        match wordToken w with
        | .ok t => .ok (t, r)
        | .error e => .error e
    else lexSymbol text

/-- The tokens of a text; `fuel` is at least its length. -/
def lexAux : Nat → List Byte → Except DecodeError (List Token)
  | _, [] => .ok []
  | 0, _ :: _ => .error .notInGrammar
  | fuel + 1, c :: rest =>
    if isSpace c then lexAux fuel rest
    else
      match lexToken (c :: rest) with
      | .error e => .error e
      | .ok (t, r) =>
        match lexAux fuel r with
        | .error e => .error e
        | .ok ts => .ok (t :: ts)

/-- The tokens of a text. -/
def lex (text : List Byte) : Except DecodeError (List Token) :=
  if hasForeign false text then .error .machineCode else lexAux text.length text

/-! ## Comments between tokens -/

/-- A token that can be a CASE label (R72). -/
def Token.isConstant : Token → Bool
  | .num _ => true
  | .altNum _ => true
  | .kw .true_ => true
  | .kw .false_ => true
  | .kw .byte => true
  | .kw .word => true
  | .kw .dword => true
  | _ => false

/-- Whether a statement can start after the two tokens before a place (`prev` the nearer). -/
def statementStart (prev2 prev : Option Token) : Bool :=
  match prev with
  | none => true
  | some .semi => true
  | some (.kw .then_) => true
  | some (.kw .else_) => true
  | some (.kw .do_) => true
  | some (.comment _) => true
  | some .colon => (prev2.map Token.isConstant).getD false
  | some _ => false

/-- The tokens without the comments that stand inside a statement (R55: a comment may stand wherever white space
may). A comment where a statement can start stays: it is the form of the row COMMENT. -/
def dropInner (prev2 prev : Option Token) : List Token → List Token
  | [] => []
  | .comment t :: rest =>
    if statementStart prev2 prev then .comment t :: dropInner prev (some (.comment t)) rest
    else dropInner prev2 prev rest
  | t :: rest => t :: dropInner prev (some t) rest

/-! ## Expressions -/

/-- The tokens after `t`. -/
def expect (t : Token) : List Token → Except DecodeError (List Token)
  | [] => .error .notInGrammar
  | u :: rest => if u = t then .ok rest else .error .notInGrammar

/-- The relational operators, which bind weakest. -/
def relOp? : Token → Option BinOp
  | .eq => some .eq
  | .ne => some .ne
  | .ge => some .ge
  | .le => some .le
  | _ => none

def sumOp? : Token → Option BinOp
  | .plus => some .add
  | .minus => some .sub
  | _ => none

/-- The operators that bind strongest. PRESUMED (log entry 10): the document mixes no two operators without
brackets; the strengths are Pascal's. -/
def termOp? : Token → Option BinOp
  | .star => some .mul
  | .kw .div => some .div
  | .kw .mod => some .mod
  | .kw .and => some .and
  | _ => none

/-- The name of a register, or eSP. -/
def Token.regName? : Token → Option RegName
  | .reg r => some (.reg r)
  | .eSP => some .eSP
  | _ => none

/-- After `[`: a register, an operand identifier, `TSS+66` or `BitStringAddr`, and `]` (R61). R61 says that the last two
occur only inside I-O-Permission; that they may stand in any text is a DESIGN CHOICE (log entry 18). R61 (d) names them as
examples of "an address expression in square brackets"; that no other one is derived, so that `[Ptr]` and `[BitStringAddr+1]`
are refused as NotInGrammar, is a DESIGN CHOICE (log entry 18). eSP denotes SP or
ESP (R97), neither of which has a default segment. That the name of a segment register in brackets, `[ES]`, is refused as
NotInGrammar and not as NoDefaultSegment is a DESIGN CHOICE (log entry 9). -/
def parseBracket : List Token → Except DecodeError (Expr × List Token)
  | .reg r :: rest => do
    let rest ← expect .rbrk rest
    if r.hasDefaultSegment then .ok (.memReg r, rest) else .error .noDefaultSegment
  | .eSP :: rest => do
    let _ ← expect .rbrk rest
    .error .noDefaultSegment
  | .operand o :: rest => do
    let rest ← expect .rbrk rest
    .ok (.memOperand o, rest)
  | .tss :: rest => do
    let rest ← expect .plus rest
    let rest ← expect (.num 66) rest
    let rest ← expect .rbrk rest
    .ok (.tssPointer, rest)
  | .loc l :: rest => do
    let rest ← expect .rbrk rest
    if l = .bitStringAddr then .ok (.bitString, rest) else .error .notInGrammar
  | _ => .error .notInGrammar

/-- After the name of a segment: a colon and a register in brackets (R76). -/
def parseSegBracket (g : SegReg) (ts : List Token) : Except DecodeError (Expr × List Token) := do
  let rest ← expect .colon ts
  let rest ← expect .lbrk rest
  match rest with
  | [] => .error .notInGrammar
  | t :: rest =>
    match t.regName? with
    | none => .error .notInGrammar
    | some r => do
      let rest ← expect .rbrk rest
      .ok (.memSegReg g r, rest)

/-- A numeral, with a sign before it or not (R58, R84). -/
def parseNumeral : List Token → Except DecodeError (Int × List Token)
  | .num n :: rest => .ok (n, rest)
  | .altNum n :: rest => .ok (n, rest)
  | .minus :: .num n :: rest => .ok (-n, rest)
  | .minus :: .altNum n :: rest => .ok (-n, rest)
  | _ => .error .notInGrammar

/-- What stands between the brackets of `Addr( )`. That Addr of a register or of a numeral is read here and refused as
AddrOfNonMemory when it is evaluated, and not before the first statement, is log entry 12. That Addr of a location written out,
as `Addr([SI])`, `Addr(ES:[DI])` or `Addr([SRC])`, is refused as NotInGrammar, because R99 takes SRC, DEST, LeftSRC and RightSRC
only, is a DESIGN CHOICE (log entry 12). So is the same refusal, and not AddrOfNonMemory, of Addr of a segment register's name,
`Addr(ES)`, of a local variable, `Addr(Ptr)`, and of another identifier, `Addr(OperandSize)` (log entry 12). -/
def parseAddrArg : List Token → Except DecodeError (AddrArg × List Token)
  | .operand o :: rest => .ok (.operand o, rest)
  | .reg r :: rest => .ok (.reg (.reg r), rest)
  | .eSP :: rest => .ok (.reg .eSP, rest)
  | ts => do
    let (n, rest) ← parseNumeral ts
    .ok (.num n, rest)

/-- The tokens that are an expression by themselves. R62 speaks of `TSS type is 16-bit` as a condition inside an IF; that it
is an expression with a truth value in any place of any text is a DESIGN CHOICE (log entry 18). -/
def Token.atom? : Token → Option Expr
  | .kw .true_ => some (.truth true)
  | .kw .false_ => some (.truth false)
  | .kw .byte => some (.ioWidth .byte)
  | .kw .word => some (.ioWidth .word)
  | .kw .dword => some (.ioWidth .dword)
  | .tssIs16 => some .tssIs16
  | .loc l => some (.loc l)
  | .reg r => some (.reg r)
  | .operandSize => some .operandSize
  | .addressSize => some .addressSize
  | .stackAddrSize => some .stackAddrSize
  | .operand o => some (.operand o)
  | .instruction => some .instruction
  | .eSP => some .eSP
  | .cmpsw => some .cmpsw
  | .cmpsd => some .cmpsd
  | .fn .popSt => some .popSt
  | .fn .switchTasks => some .switchTasks
  | _ => none

/-- The expressions of one fixed shape, none of which holds another expression. `TSS` stands in `[TSS+66]` and `TSS type is
16-bit` and in no list of R59; that it is refused as NotInGrammar elsewhere, as in `EAX <- TSS;`, and is no UnknownName, is a
DESIGN CHOICE (log entry 11). -/
def parseAtom (ts : List Token) : Except DecodeError (Expr × List Token) :=
  match ts with
  | [] => .error .notInGrammar
  | t :: rest =>
    match t.atom? with
    | some e => .ok (e, rest)
    | none =>
      match t with
      | .lbrk => parseBracket rest
      | .seg g => parseSegBracket g rest
      | .fn .addr => do
        let rest ← expect .lpar rest
        let (a, rest) ← parseAddrArg rest
        let rest ← expect .rpar rest
        .ok (.addr a, rest)
      | .fn .pop => do
        let rest ← expect .lpar rest
        let rest ← expect .rpar rest
        .ok (.pop, rest)
      | _ => do
        let (n, rest) ← parseNumeral ts
        .ok (.num n, rest)

/-- The functions of one argument in round brackets. -/
def unaryFn? : FnName → Option (Expr → Expr)
  | .truncate16 => some .truncate16
  | .zeroExtend => some .zeroExtend
  | .signExtend => some .signExtend
  | _ => none

/-- The functions of two arguments in round brackets. -/
def binaryFn? : FnName → Option (Expr → Expr → Expr)
  | .shr => some (.bin .shr)
  | .shl => some (.bin .shl)
  | .ioPermission => some .ioPermission
  | _ => none

mutual

/-- One sum, or two with a relational operator between them. -/
def parseExpr : Nat → List Token → Except DecodeError (Expr × List Token)
  | 0, _ => .error .notInGrammar
  | fuel + 1, ts => do
    let (a, rest) ← parseSum fuel ts
    match rest with
    | [] => .ok (a, [])
    | t :: rest' =>
      match relOp? t with
      | none => .ok (a, t :: rest')
      | some op => do
        let (b, rest'') ← parseSum fuel rest'
        .ok (.bin op a b, rest'')

def parseSum : Nat → List Token → Except DecodeError (Expr × List Token)
  | 0, _ => .error .notInGrammar
  | fuel + 1, ts => do
    let (a, rest) ← parseTerm fuel ts
    sumTail fuel a rest

/-- The further terms of a sum whose first terms are `a`. -/
def sumTail : Nat → Expr → List Token → Except DecodeError (Expr × List Token)
  | 0, _, _ => .error .notInGrammar
  | _ + 1, a, [] => .ok (a, [])
  | fuel + 1, a, t :: rest =>
    match sumOp? t with
    | none => .ok (a, t :: rest)
    | some op => do
      let (b, rest') ← parseTerm fuel rest
      sumTail fuel (.bin op a b) rest'

def parseTerm : Nat → List Token → Except DecodeError (Expr × List Token)
  | 0, _ => .error .notInGrammar
  | fuel + 1, ts => do
    let (a, rest) ← parseFactor fuel ts
    termTail fuel a rest

/-- The further factors of a term whose first factors are `a`. -/
def termTail : Nat → Expr → List Token → Except DecodeError (Expr × List Token)
  | 0, _, _ => .error .notInGrammar
  | _ + 1, a, [] => .ok (a, [])
  | fuel + 1, a, t :: rest =>
    match termOp? t with
    | none => .ok (a, t :: rest)
    | some op => do
      let (b, rest') ← parseFactor fuel rest
      termTail fuel (.bin op a b) rest'

/-- A bracketed expression, a call, or an atom. In `Bit[ES:[SI], k]` the segment of the bit string is ES and `[SI]`, after
the colon, is the expression of its offset, read at DS:SI; a DESIGN CHOICE (log entry 19), since `ES:[SI]` is also the
spelling of an operand form (R61 b). -/
def parseFactor : Nat → List Token → Except DecodeError (Expr × List Token)
  | 0, _ => .error .notInGrammar
  | fuel + 1, ts =>
    match ts with
    | .lpar :: rest => do
      let (e, rest) ← parseExpr fuel rest
      let rest ← expect .rpar rest
      .ok (e, rest)
    | .fn .bit :: .lbrk :: .reg r :: .comma :: rest => do
      let (off, rest) ← parseExpr fuel rest
      let rest ← expect .rbrk rest
      .ok (.bitReg (.reg r) off, rest)
    | .fn .bit :: .lbrk :: .eSP :: .comma :: rest => do
      let (off, rest) ← parseExpr fuel rest
      let rest ← expect .rbrk rest
      .ok (.bitReg .eSP off, rest)
    | .fn .bit :: .lbrk :: .operand o :: .comma :: rest => do
      let (off, rest) ← parseExpr fuel rest
      let rest ← expect .rbrk rest
      .ok (.bitOperand o off, rest)
    | .fn .bit :: .lbrk :: .seg g :: .colon :: rest => do
      let (base, rest) ← parseExpr fuel rest
      let rest ← expect .comma rest
      let (off, rest) ← parseExpr fuel rest
      let rest ← expect .rbrk rest
      .ok (.bitMem g base off, rest)
    | .fn f :: rest =>
      match unaryFn? f, binaryFn? f with
      | some mk, _ => do
        let rest ← expect .lpar rest
        let (e, rest) ← parseExpr fuel rest
        let rest ← expect .rpar rest
        .ok (mk e, rest)
      | none, some mk => do
        let rest ← expect .lpar rest
        let (a, rest) ← parseExpr fuel rest
        let rest ← expect .comma rest
        let (b, rest) ← parseExpr fuel rest
        let rest ← expect .rpar rest
        .ok (mk a b, rest)
      | none, none => parseAtom ts
    | _ => parseAtom ts

end

/-- Fuel for an expression in `ts`: at most five calls stand between two tokens. -/
def exprFuel (ts : List Token) : Nat := 6 * ts.length + 6

/-! ## Statements -/

/-- The destination that an expression on the left of `<-` is (R78). `Bit[ ]` there is refused by name (R107);
SRC, LeftSRC and RightSRC are "read, never assigned" (R93, R95). R78 admits "a bracketed location", so `[TSS+66]` and
`[BitStringAddr]` too, which R40 does not list: log entry 18. -/
def Expr.toDest : Expr → Except DecodeError Dest
  | .reg r => .ok (.reg r)
  | .eSP => .ok .eSP
  | .memReg r => .ok (.memReg r)
  | .memSegReg g r => .ok (.memSegReg g r)
  | .memOperand o => .ok (.memOperand o)
  | .operand .dest => .ok .dest
  | .loc l => .ok (.loc l)
  | .operandSize => .ok .operandSize
  | .tssPointer => .ok .tssPointer
  | .bitString => .ok .bitString
  | .bitReg _ _ => .error .bitAsDestination
  | .bitMem _ _ _ => .error .bitAsDestination
  | .bitOperand _ _ => .error .bitAsDestination
  | _ => .error .notInGrammar

/-- The label and the rest, where a CASE arm starts. R72 shows BYTE, WORD and DWORD and says "one constant label"; that a
numeral is one too, and a numeral with a sign, the operator of R58, is none, is a DESIGN CHOICE (log entry 26). -/
def label? : List Token → Option (Label × List Token)
  | .num n :: .colon :: rest => some (.num n, rest)
  | .altNum n :: .colon :: rest => some (.num n, rest)
  | .kw .true_ :: .colon :: rest => some (.truth true, rest)
  | .kw .false_ :: .colon :: rest => some (.truth false, rest)
  | .kw .byte :: .colon :: rest => some (.ioWidth .byte, rest)
  | .kw .word :: .colon :: rest => some (.ioWidth .word, rest)
  | .kw .dword :: .colon :: rest => some (.ioWidth .dword, rest)
  | _ => none

/-- Whether a statement sequence ends here: at a closing keyword, at the next label, or at the end. -/
def atBlockEnd (ts : List Token) : Bool :=
  match ts with
  | [] => true
  | .kw .else_ :: _ => true
  | .kw .fi :: _ => true
  | .kw .od :: _ => true
  | .kw .esac :: _ => true
  | _ => (label? ts).isSome

/-- Whether a text starts with a round bracket, which groups an expression: no destination and no call does. -/
def startsBracket (ts : List Token) : Bool := decide (ts.head? = some .lpar)

/-- An assignment, or the call of a function, which R57 ends with `;` as every simple statement. The form of an operand,
an operator or an identifier is no statement (R66). -/
def parseSimple (ts : List Token) : Except DecodeError (Instr × List Token) := do
  let (a, rest) ← parseExpr (exprFuel ts) ts
  if startsBracket ts then .error .notInGrammar
  else
    match rest with
    | .assign :: rest' => do
      let d ← a.toDest
      let (b, rest'') ← parseExpr (exprFuel rest') rest'
      let rest''' ← expect .semi rest''
      .ok (.assign d b, rest''')
    | _ =>
      match a.toInstr with
      | none => .error .notInGrammar
      | some i =>
        if i.isForm then .error .notInGrammar
        else do
          let rest' ← expect .semi rest
          .ok (i, rest')

mutual

/-- One statement or comment. R69 shows END without the `;`. That a CASE without an arm is refused as NotInGrammar, and is no
CaseNoArm, is a DESIGN CHOICE (log entry 26). -/
def parseInstr : Nat → List Token → Except DecodeError (Instr × List Token)
  | 0, _ => .error .notInGrammar
  | fuel + 1, ts =>
    match ts with
    | .comment t :: rest => .ok (.comment t, rest)
    | .kw .if_ :: rest => do
      let (c, rest) ← parseExpr (exprFuel rest) rest
      let rest ← expect (.kw .then_) rest
      let (t, rest) ← parseBlock fuel rest
      match rest with
      | .kw .else_ :: rest => do
        let (e, rest) ← parseBlock fuel rest
        let rest ← expect (.kw .fi) rest
        let rest ← expect .semi rest
        .ok (.ifThen c t e, rest)
      | _ => do
        let rest ← expect (.kw .fi) rest
        let rest ← expect .semi rest
        .ok (.ifThen c t .nil, rest)
    | .kw .do_ :: rest => do
      let (b, rest) ← parseBlock fuel rest
      let rest ← expect (.kw .od) rest
      let rest ← expect .semi rest
      .ok (.doLoop b, rest)
    | .kw .case :: rest => do
      let (e, rest) ← parseExpr (exprFuel rest) rest
      let rest ← expect (.kw .of) rest
      let rest ← expect .colon rest
      let (arms, rest) ← parseArms fuel rest
      let rest ← expect (.kw .esac) rest
      let rest ← expect .semi rest
      if arms = .nil then .error .notInGrammar else .ok (.caseOf e arms, rest)
    | .kw .end_ :: .semi :: rest => .ok (.endRun, rest)
    | .kw .end_ :: rest => .ok (.endRun, rest)
    | .kw .return_ :: rest => do
      let (e, rest) ← parseExpr (exprFuel rest) rest
      let rest ← expect .semi rest
      .ok (.ret e, rest)
    | .fn .push :: .lpar :: rest => do
      let (e, rest) ← parseExpr (exprFuel rest) rest
      let rest ← expect .rpar rest
      let rest ← expect .semi rest
      .ok (.push e, rest)
    | _ => parseSimple ts

/-- A statement sequence up to where it ends (R68). -/
def parseBlock : Nat → List Token → Except DecodeError (Block × List Token)
  | 0, _ => .error .notInGrammar
  | fuel + 1, ts =>
    if atBlockEnd ts then .ok (.nil, ts)
    else do
      let (i, rest) ← parseInstr fuel ts
      let (b, rest) ← parseBlock fuel rest
      .ok (.cons i b, rest)

/-- The arms of a CASE up to ESAC; two arms with one label are refused (R72). -/
def parseArms : Nat → List Token → Except DecodeError (Arms × List Token)
  | 0, _ => .error .notInGrammar
  | fuel + 1, ts =>
    match label? ts with
    | none => .ok (.nil, ts)
    | some (l, rest) => do
      let (b, rest) ← parseBlock fuel rest
      let (arms, rest) ← parseArms fuel rest
      if arms.hasLabel l then .error .notInGrammar else .ok (.cons l b arms, rest)

end

/-- The statements of a token sequence, all of it. -/
def parseTokens (ts : List Token) : Except DecodeError Block := do
  let (b, rest) ← parseBlock (2 * ts.length + 2) ts
  match rest with
  | [] => .ok b
  | _ :: _ => .error .notInGrammar

/-! ## The decoder -/

/-- The statements of an algorithm's text. The whole text is divided into tokens before it is parsed, so where a text could be
refused by two names, a MachineCode anywhere comes first, then what stops the first token that is none, and then what the
grammar refuses first; a DESIGN CHOICE (log entry 24). -/
def decodeAlgorithm (text : List Byte) : Except DecodeError Block := do
  let ts ← lex text
  parseTokens (dropInner none none ts)

/-- The form that a token sequence spells, all of it and without a `;`. -/
def parseForm (ts : List Token) : Except DecodeError Instr :=
  match ts with
  | .fn .push :: .lpar :: rest => do
    let (e, rest) ← parseExpr (exprFuel rest) rest
    let rest ← expect .rpar rest
    match rest with
    | [] => .ok (.push e)
    | _ :: _ => .error .notInGrammar
  | _ => do
    let (a, rest) ← parseExpr (exprFuel ts) ts
    match rest, a.toInstr with
    | [], some i => .ok i
    | _, _ => .error .notInGrammar

def Token.isComment : Token → Bool
  | .comment _ => true
  | _ => false

/-- The operand, operator, identifier or function that a text spells as its row of the opcode table does. Such a text is
no algorithm: the MODEL's own reading of a row that is no statement (log entry 2). -/
def decodeForm (text : List Byte) : Except DecodeError Instr := do
  let ts ← lex text
  parseForm (ts.filter fun t => !t.isComment)

/-- The one instruction that a text spells: the one statement of an algorithm, or a form. A text that is neither is refused
as an algorithm's is. -/
def decode (text : List Byte) : Except DecodeError Instr :=
  match decodeAlgorithm text with
  | .ok (.cons i .nil) => .ok i
  | .ok _ => .error .notInGrammar
  | .error e =>
    match decodeForm text with
    | .ok i => .ok i
    | .error _ => .error e

/-- The `k` low bytes of `w`, the least significant first. -/
def wordBytes : Nat → Nat → List Byte
  | 0, _ => []
  | k + 1, w => BitVec.ofNat 8 w :: wordBytes k (w / 256)

def dropZeros : List Byte → List Byte
  | [] => []
  | c :: rest =>
    match dropZeros rest with
    | [] => if c == 0 then [] else [c]
    | r :: rs => c :: r :: rs

/-- The text that a table word of `nbits` bits lays out: its first character is the low byte, and zero bytes after
the last character are no characters (log entry 13). -/
def wordText (nbits w : Nat) : List Byte := dropZeros (wordBytes ((nbits + 7) / 8) w)

/-- The first instruction the decoder reads from a table word. -/
def decodeTableWord (nbits w : Nat) : Option Instr :=
  match decodeAlgorithm (wordText nbits w) with
  | .ok (.cons i _) => some i
  | .ok .nil => none
  | .error _ => (decodeForm (wordText nbits w)).toOption

/-! ## The encoder -/

/-- The tokens of a numeral; a negative one has the sign of R58 before it. -/
def numTokens (n : Int) : List Token := if n < 0 then [.minus, .num n.natAbs] else [.num n.natAbs]

def IoWidth.keyword : IoWidth → Keyword
  | .byte => .byte
  | .word => .word
  | .dword => .dword

def truthKeyword : Bool → Keyword
  | true => .true_
  | false => .false_

/-- The token of an operator written between its operands; SHR and SHL are calls. -/
def BinOp.infixToken : BinOp → Option Token
  | .eq => some .eq
  | .ne => some .ne
  | .ge => some .ge
  | .le => some .le
  | .mul => some .star
  | .add => some .plus
  | .sub => some .minus
  | .and => some (.kw .and)
  | .div => some (.kw .div)
  | .mod => some (.kw .mod)
  | .shr => none
  | .shl => none

def BinOp.callName : BinOp → FnName
  | .shr => .shr
  | _ => .shl

def RegName.token : RegName → Token
  | .reg r => .reg r
  | .eSP => .eSP

def AddrArg.tokens : AddrArg → List Token
  | .operand o => [.operand o]
  | .reg r => [r.token]
  | .num n => numTokens n

/-- Round brackets around the operand of an operator when it is itself an operator's result. -/
def Expr.bracket (e : Expr) (ts : List Token) : List Token :=
  match e with
  | .bin op _ _ => if op.infixToken.isSome then [.lpar] ++ ts ++ [.rpar] else ts
  | _ => ts

/-- The canonical spelling of an expression, as tokens. -/
def Expr.tokens : Expr → List Token
  | .num n => numTokens n
  | .truth b => [.kw (truthKeyword b)]
  | .ioWidth w => [.kw w.keyword]
  | .tssIs16 => [.tssIs16]
  | .loc l => [.loc l]
  | .tssPointer => [.lbrk, .tss, .plus, .num 66, .rbrk]
  | .bitString => [.lbrk, .loc .bitStringAddr, .rbrk]
  | .reg r => [.reg r]
  | .memReg r => [.lbrk, .reg r, .rbrk]
  | .memSegReg g r => [.seg g, .colon, .lbrk, r.token, .rbrk]
  | .memOperand o => [.lbrk, .operand o, .rbrk]
  | .operandSize => [.operandSize]
  | .addressSize => [.addressSize]
  | .stackAddrSize => [.stackAddrSize]
  | .operand o => [.operand o]
  | .instruction => [.instruction]
  | .eSP => [.eSP]
  | .cmpsw => [.cmpsw]
  | .cmpsd => [.cmpsd]
  | .bin op a b =>
    match op.infixToken with
    | some t => a.bracket a.tokens ++ [t] ++ b.bracket b.tokens
    | none => [.fn op.callName, .lpar] ++ a.tokens ++ [.comma] ++ b.tokens ++ [.rpar]
  | .truncate16 e => [.fn .truncate16, .lpar] ++ e.tokens ++ [.rpar]
  | .addr a => [.fn .addr, .lpar] ++ a.tokens ++ [.rpar]
  | .zeroExtend e => [.fn .zeroExtend, .lpar] ++ e.tokens ++ [.rpar]
  | .signExtend e => [.fn .signExtend, .lpar] ++ e.tokens ++ [.rpar]
  | .pop => [.fn .pop, .lpar, .rpar]
  | .popSt => [.fn .popSt]
  | .bitReg r off => [.fn .bit, .lbrk, r.token, .comma] ++ off.tokens ++ [.rbrk]
  | .bitMem g base off => [.fn .bit, .lbrk, .seg g, .colon] ++ base.tokens ++ [.comma] ++ off.tokens ++ [.rbrk]
  | .bitOperand o off => [.fn .bit, .lbrk, .operand o, .comma] ++ off.tokens ++ [.rbrk]
  | .ioPermission a w => [.fn .ioPermission, .lpar] ++ a.tokens ++ [.comma] ++ w.tokens ++ [.rpar]
  | .switchTasks => [.fn .switchTasks]

def Dest.tokens : Dest → List Token
  | .reg r => [.reg r]
  | .eSP => [.eSP]
  | .memReg r => [.lbrk, .reg r, .rbrk]
  | .memSegReg g r => [.seg g, .colon, .lbrk, r.token, .rbrk]
  | .memOperand o => [.lbrk, .operand o, .rbrk]
  | .dest => [.operand .dest]
  | .loc l => [.loc l]
  | .operandSize => [.operandSize]
  | .tssPointer => [.lbrk, .tss, .plus, .num 66, .rbrk]
  | .bitString => [.lbrk, .loc .bitStringAddr, .rbrk]

def Label.token : Label → Token
  | .num n => .num n
  | .truth b => .kw (truthKeyword b)
  | .ioWidth w => .kw w.keyword

/-- The tokens of a call that is a statement, or of an instruction's name in its place. -/
def callTokens (e : Expr) : List Token := e.tokens ++ [.semi]

mutual

/-- The canonical spelling of an instruction, as tokens, with the `;` that R57 puts after a statement. -/
def Instr.tokens : Instr → List Token
  | .comment text => [.comment text]
  | .ifThen c t .nil => [.kw .if_] ++ c.tokens ++ [.kw .then_] ++ t.tokens ++ [.kw .fi, .semi]
  | .ifThen c t (.cons i e) =>
    [.kw .if_] ++ c.tokens ++ [.kw .then_] ++ t.tokens ++ [.kw .else_] ++ (i.tokens ++ e.tokens) ++ [.kw .fi, .semi]
  | .doLoop b => [.kw .do_] ++ b.tokens ++ [.kw .od, .semi]
  | .caseOf e arms => [.kw .case] ++ e.tokens ++ [.kw .of, .colon] ++ arms.tokens ++ [.kw .esac, .semi]
  | .endRun => [.kw .end_, .semi]
  | .ret e => [.kw .return_] ++ e.tokens ++ [.semi]
  | .assign d e => d.tokens ++ [.assign] ++ e.tokens ++ [.semi]
  | .push e => [.fn .push, .lpar] ++ e.tokens ++ [.rpar, .semi]
  | .reg r => Expr.tokens (.reg r)
  | .memReg r => Expr.tokens (.memReg r)
  | .memSegReg g r => Expr.tokens (.memSegReg g r)
  | .memOperand o => Expr.tokens (.memOperand o)
  | .eq a b => Expr.tokens (.bin .eq a b)
  | .ne a b => Expr.tokens (.bin .ne a b)
  | .ge a b => Expr.tokens (.bin .ge a b)
  | .le a b => Expr.tokens (.bin .le a b)
  | .mul a b => Expr.tokens (.bin .mul a b)
  | .add a b => Expr.tokens (.bin .add a b)
  | .sub a b => Expr.tokens (.bin .sub a b)
  | .and a b => Expr.tokens (.bin .and a b)
  | .shr a b => Expr.tokens (.bin .shr a b)
  | .shl a b => Expr.tokens (.bin .shl a b)
  | .div a b => Expr.tokens (.bin .div a b)
  | .mod a b => Expr.tokens (.bin .mod a b)
  | .operandSize => Expr.tokens .operandSize
  | .addressSize => Expr.tokens .addressSize
  | .stackAddrSize => Expr.tokens .stackAddrSize
  | .src => Expr.tokens (.operand .src)
  | .dest => Expr.tokens (.operand .dest)
  | .leftSrc => Expr.tokens (.operand .leftSrc)
  | .rightSrc => Expr.tokens (.operand .rightSrc)
  | .instruction => Expr.tokens .instruction
  | .eSP => Expr.tokens .eSP
  | .cmpsw => callTokens .cmpsw
  | .cmpsd => callTokens .cmpsd
  | .truncate16 e => callTokens (.truncate16 e)
  | .addr a => callTokens (.addr a)
  | .zeroExtend e => callTokens (.zeroExtend e)
  | .signExtend e => callTokens (.signExtend e)
  | .pop => callTokens .pop
  | .popSt => callTokens .popSt
  | .bit base off => callTokens (base.bit off)
  | .ioPermission a w => callTokens (.ioPermission a w)
  | .switchTasks => callTokens .switchTasks

def Block.tokens : Block → List Token
  | .nil => []
  | .cons i rest => i.tokens ++ rest.tokens

def Arms.tokens : Arms → List Token
  | .nil => []
  | .cons l b rest => [l.token, .colon] ++ b.tokens ++ rest.tokens

end

/-- The text of a token sequence: one space after each token. -/
def spell : List Token → List Byte
  | [] => []
  | t :: ts => t.spelling ++ [0x20] ++ spell ts

/-- The canonical spelling of an instruction. -/
def encode (i : Instr) : List Byte := spell i.tokens

/-- The canonical spelling of an algorithm. -/
def encodeAlgorithm (b : Block) : List Byte := spell b.tokens

end Sys2Proof
end

