-- ==== Sys2Proof/Config.lean ====
section
/-! DEFINITION. The parameters of R8 that are fixed for every run, and the one free value. The parameters
that R8 leaves OPEN (IOMAP_PTR_OFFSET, IOADDR_BITS, SegBase, Admit, TSS.base, TSS.type, the two size
attributes) are arguments of a run: they are components of `Machine.Launch`, not constants. -/

namespace Sys2Proof

/-- B_BIT_SELECTS_ESP = 1 (R8, R97, decision D6). -/
def Config.bBitSelectsEsp : Bool := true

/-- BITOFFSET_MIN of R8 and R110 (decision D12). -/
def Config.bitOffsetMin : Int := -2147483648

/-- BITOFFSET_MAX of R8 and R110 (decision D12). -/
def Config.bitOffsetMax : Int := 2147483647

/-- IOMAP_PTR_BYTES = 2 of R8 and R111 (b). -/
def Config.iomapPtrSize : Size := .word

/-- IOMAP_READ_BYTES = 2 of R8 and R111 (c). -/
def Config.iomapReadSize : Size := .word

/-- The recommended IOMAP_PTR_OFFSET of R8 and R111 (a), the value of `Machine.State.reset`. -/
def Config.recommendedIomapPtrOffset : Nat := 102

/-- The recommended IOADDR_BITS of R8 and R45, the value of `Machine.State.reset`. -/
def Config.recommendedIoAddrBits : Nat := 16

/-- The number of bits of an offset into TSSSEG. DESIGN CHOICE (log entry 8): R37 gives an offset range to
the offsets taken from SP, ESP and Addr only, and R48 leaves the rest of the address map to the launch state. -/
def Config.tssOffsetBits : Nat := 32

/-- What a byte of memory that neither the launch state lists nor a write has reached reads as.
DESIGN CHOICE (log entry 5): R29 leaves every memory byte unspecified. -/
def Config.unlistedByte : Byte := 0

/-- FREE VALUE (log entry 6): the result of `A AND B` when one of the two is a negative integer. R85 states
the result for "two non-negative integers" only. -/
opaque Config.andOfNegative : Int → Int → Int

end Sys2Proof
end

