-- ==== Sys2Proof/Machine/State.lean ====
section
/-! DEFINITION. The state of the machine, all of it plain data, the ways a step can stop, and the state after
reset. `Launch` holds the components of the launch state (R128) that no rule writes; `State` holds them and what
the statements write. -/

namespace Sys2Proof.Machine

/-- A value of the notation (R10). `sized w v signed` carries the width `w`; `signed` marks a value that went
through SignExtend and reads as two's complement (decision D30). `unsized` is the result of an arithmetic
operator, or a numeral, or what a local variable holds. The rest are the symbolic constants of R62 and the
instruction names of R96. -/
inductive Value where
  | sized (w : Nat) (v : BitVec w) (signed : Bool)
  | unsized (v : Int)
  | truth (b : Bool)
  | ioWidth (w : IoWidth)
  | name (n : InstrName)
  deriving DecidableEq, Repr

/-- A segment an access can be made in: one of the three the document names (R19), or TSSSEG, the segment whose
base is TSS.base (R48). -/
inductive Segment where
  | reg (g : SegReg)
  | tss
  deriving DecidableEq, Repr

/-- The kinds of access of `Admit` (R38). -/
inductive AccessKind where
  | read
  | write
  deriving DecidableEq, Repr

/-- The two values of TSS.type (R22). -/
inductive TssType where
  | t16
  | other
  deriving DecidableEq, Repr

/-- What is being run: an algorithm, or the body of a function, where RETURN may stand (R73). `form` is the MODEL's own
(log entry 2): one operand, operator, identifier or call that no statement holds, evaluated for its value. -/
inductive BodyKind where
  | algorithm
  | functionBody
  | form
  deriving DecidableEq, Repr

/-- Accesses that `Admit` denies (R38): those of the given kind and size that start at an offset from `first` to
`last` of the segment. A list of these says any `Admit` as plain data. -/
structure Denial where
  seg : Segment
  kind : AccessKind
  size : Size
  first : Nat
  last : Nat
  deriving DecidableEq, Repr

/-- What an operand of the instruction is (R93, R94): a register, a location given as a segment and an effective
address already computed (R99), or an immediate value. -/
inductive OperandKind where
  | reg (r : Reg)
  | mem (g : SegReg) (off : BitVec 32) (size : Size)
  | imm (size : Size) (v : BitVec 32)
  deriving DecidableEq, Repr

/-- An operand, with what the caller supplies for its bracketed form (R77): the size of the offset stored in it,
and the segment and the size of the location that this offset designates. -/
structure Operand where
  kind : OperandKind
  storedSize : Size
  targetSeg : SegReg
  targetSize : Size
  deriving DecidableEq, Repr

/-- The size of the operand that a bracketed register stands for (R42), for each register. DESIGN CHOICE (log entry 9): one
size for each register. -/
structure RegSizes where
  eax : Size
  esp : Size
  sp : Size
  si : Size
  di : Size
  deriving DecidableEq, Repr

/-- The launch components that no statement writes (R128). -/
structure Launch where
  /-- The algorithm's text (R128 a, R52). -/
  text : List Byte
  /-- Whether the text is a function's body (R73). -/
  body : BodyKind
  /-- The inputs OperandSize and AddressSize (R88, R89): any integers, of which all but 16 and 32 are refused when the run
  starts. -/
  operandSize : Int
  addressSize : Int
  /-- The instruction whose Operation section is running (R96). -/
  instruction : InstrName
  /-- SRC (R93). -/
  src : Operand
  /-- DEST (R94). -/
  dest : Operand
  /-- LeftSRC (R95). -/
  leftSrc : Operand
  /-- RightSRC (R95). -/
  rightSrc : Operand
  /-- The overriding segment, where the instruction has one (R36, R75). -/
  segOverride : Option SegReg
  /-- The size of a bracketed register without a segment (R75). -/
  memRegSize : Size
  /-- The sizes of the bracketed registers with a segment, other than the stack forms: each form has the size of its own
  operand (R42, R75, R76). -/
  esSizes : RegSizes
  dsSizes : RegSizes
  ssSizes : RegSizes
  /-- SegBase(ES), SegBase(DS), SegBase(SS) (R19). -/
  esBase : Nat
  dsBase : Nat
  ssBase : Nat
  /-- The B-bit of the current stack segment (R21). -/
  bBit : Bool
  /-- TSS.base and TSS.type (R22). -/
  tssBase : Nat
  tssType : TssType
  /-- `Admit` (R38), by what it denies. -/
  denied : List Denial
  /-- IOMAP_PTR_OFFSET (R8, R111 a). -/
  iomapPtrOffset : Nat
  /-- IOADDR_BITS (R8, R45). -/
  ioAddrBits : Nat
  deriving DecidableEq, Repr

/-- Memory: the bytes at linear addresses that do not read as `Config.unlistedByte`, addresses rising. -/
abbrev Memory := List Host.Cell

/-- The form that makes equal memories equal data. -/
def Memory.wf (m : Memory) : Bool :=
  decide (m.Pairwise fun a b => a.1 < b.1) && m.all fun c => c.2 != Config.unlistedByte

/-- What a local variable holds: an integer without a width (R26, R78), or a symbolic constant (R62). R26 calls the integer
non-negative, and R78 and R10 give the variable the value of any expression; log entry 14. -/
inductive LocalValue where
  | int (x : Int)
  | truth (b : Bool)
  | ioWidth (w : IoWidth)
  deriving DecidableEq, Repr

/-- The local variables and formal arguments (R26); `none` before the first assignment. -/
structure Locals where
  retVal : Option LocalValue
  ptr : Option LocalValue
  bitStringAddr : Option LocalValue
  maskShift : Option LocalValue
  nBitMask : Option LocalValue
  mask : Option LocalValue
  checkString : Option LocalValue
  value : Option LocalValue
  ioAddress : Option LocalValue
  width : Option LocalValue
  deriving DecidableEq, Repr

/-- No local variable has been assigned. -/
def Locals.none : Locals :=
  { retVal := .none, ptr := .none, bitStringAddr := .none, maskShift := .none, nBitMask := .none, mask := .none,
    checkString := .none, value := .none, ioAddress := .none, width := .none }

/-- The statement position (R28): the first statement of the text, or the place from which the given statements
remain to be executed. A run that has ended is at the place from which none remain. -/
inductive Position where
  | start
  | at (rest : Block)
  deriving DecidableEq, Repr

structure State where
  launch : Launch
  /-- EAX (R14). -/
  eax : BitVec 32
  /-- ESP, whose low 16 bits are SP (R15). -/
  esp : BitVec 32
  /-- SI and DI (R16). -/
  si : BitVec 16
  di : BitVec 16
  /-- OperandSize in force: the input, until a statement assigns it, the one attribute that one can (R27, R88). -/
  operandSize : AttrSize
  /-- AddressSize in force: the input (R27, R89). -/
  addressSize : AttrSize
  /-- Byte-addressed memory (R30). -/
  mem : Memory
  /-- The local variables of the function body that runs (R26). -/
  locals : Locals
  /-- The statement position (R28). -/
  pc : Position
  /-- The value of the last form evaluated on its own, or of the last RETURN. The MODEL's own (log entry 2). -/
  result : Option Value
  deriving DecidableEq, Repr

/-- The ways a run stops without a final state. Every one is safe: the model stops where the document gives no
next state. -/
inductive Fault where
  /-- Raised by an assignment, Push, ZeroExtend, SignExtend: a value that carries the width `m` (none: no width)
  meets a place that needs the width `w` (R114). Safe. -/
  | widthMismatch (m : Option Nat) (w : Nat)
  /-- Raised by CASE and I-O-Permission: no arm has the label (R72, R114). Safe. -/
  | caseNoArm (v : Value)
  /-- Raised by Bit: a bit offset outside its range (R108, R110, R114). Safe. -/
  | bitOffsetRange (k : Int)
  /-- Raised by reading a local variable before its first assignment (R26, R114). Safe. -/
  | unwrittenRead (l : LocalName)
  /-- The stuck state of R116: an access that `Admit` does not allow has no step. Safe. -/
  | notAdmitted (seg : Segment) (off : Int) (size : Size) (kind : AccessKind)
  /-- Raised by a step where no statement remains: the run has ended and the state is final (R130). Safe. -/
  | runEnded
  deriving DecidableEq, Repr

/-- The forms to which the spec gives no meaning (R115). Every one is safe: no claim about the run can be
proved. -/
inductive Refusal where
  /-- An instruction whose meaning is not written yet. Safe. -/
  | notModelled (mnemonic : String)
  /-- Text that the grammar does not derive, found while it is read or, where it depends on the kind of a value,
  when it is evaluated. Safe. -/
  | notInGrammar
  /-- Bytes that are no text of the notation (R53). Safe. -/
  | machineCode
  /-- A name in none of the lists of R59. Safe. -/
  | unknownName
  /-- A bracketed register other than SI without a segment (R36, R75). Safe. -/
  | noDefaultSegment
  /-- DO ... OD (R71). Safe. -/
  | doStatement
  /-- OperandSize or AddressSize not 16 or 32: an input, when the run starts, or an assigned value (R88, R89). Safe. -/
  | badAttribute
  /-- Executing CMPSW, CMPSD or naming one outside the test of R96 (R66, R90, R91). Safe. -/
  | instructionPageMissing
  /-- Addr of a register or an immediate operand (R99). Safe. -/
  | addrOfNonMemory
  /-- `Bit[...]` on the left of an assignment (R107). Safe. -/
  | bitAsDestination
  /-- Pop ST (R105). Safe. -/
  | fpuNotInSource
  /-- Switch-Tasks (R113). Safe. -/
  | switchTasks
  /-- The name of a flag (R24). Safe. -/
  | flagName
  deriving DecidableEq, Repr

/-- The operand that `State.reset` names for SRC, DEST, LeftSRC and RightSRC: the doubleword at DS:0. DESIGN CHOICE
(log entry 4). -/
def Operand.reset : Operand :=
  { kind := .mem .ds 0 .dword, storedSize := .dword, targetSeg := .ds, targetSize := .dword }

/-- DESIGN CHOICE (log entry 4). -/
def RegSizes.reset : RegSizes := { eax := .dword, esp := .dword, sp := .dword, si := .dword, di := .dword }

/-- DESIGN CHOICE (log entries 4 and 5): R29 and R127 state no reset value for any of these. -/
def Launch.reset : Launch :=
  { text := [], body := .algorithm, operandSize := 32, addressSize := 32, instruction := .other, src := .reset,
    dest := .reset, leftSrc := .reset, rightSrc := .reset, segOverride := .none, memRegSize := .dword,
    esSizes := .reset, dsSizes := .reset, ssSizes := .reset, esBase := 0, dsBase := 0, ssBase := 0, bBit := false, tssBase := 0, tssType := .other, denied := [],
    iomapPtrOffset := Config.recommendedIomapPtrOffset, ioAddrBits := Config.recommendedIoAddrBits }

/-- The state after reset. Only the statement position has a reset value in the spec, the first statement of the
algorithm (R29); every other value is a DESIGN CHOICE (log entries 4 and 5). -/
def State.reset : State :=
  { launch := .reset, eax := 0, esp := 0, si := 0, di := 0, operandSize := .s32, addressSize := .s32, mem := [], locals := .none,
    pc := .start, result := .none }

end Sys2Proof.Machine
end

