-- ==== Sys2Proof/Machine/Ops.lean ====
section
/-! DEFINITION. The named operations over the state: updates, registers, locals, memory, admission. The document
describes no exception and the model takes none (R117, R120): a statement that cannot be executed ends in a `Stop`,
and no write of it is kept (R114), because a stop carries no state. -/

namespace Sys2Proof.Machine

/-- How an operation can stop the run: with a fault (R114, R116) or a refusal (R115). -/
inductive Stop where
  | fault (f : Fault)
  | refused (r : Refusal)
  deriving DecidableEq, Repr

/-- The outcome of a step that ends in a state or in a stop. -/
def outcome : Except Stop State → Host.Outcome State Fault Refusal
  | .ok s => .next s
  | .error (.fault f) => .fault f
  | .error (.refused r) => .refused r

def raise {α : Type} (f : Fault) : Except Stop α := .error (.fault f)

def refuse {α : Type} (r : Refusal) : Except Stop α := .error (.refused r)

/-- The name that R115 gives to what reading a text can end in. -/
def refusalOf : DecodeError → Refusal
  | .notInGrammar => .notInGrammar
  | .machineCode => .machineCode
  | .unknownName => .unknownName
  | .flagName => .flagName
  | .noDefaultSegment => .noDefaultSegment
  | .bitAsDestination => .bitAsDestination

/-! ## Updates -/

def State.setEax (s : State) (v : BitVec 32) : State := { s with eax := v }
def State.setEsp (s : State) (v : BitVec 32) : State := { s with esp := v }
def State.setSi (s : State) (v : BitVec 16) : State := { s with si := v }
def State.setDi (s : State) (v : BitVec 16) : State := { s with di := v }
def State.setOperandSize (s : State) (a : AttrSize) : State := { s with operandSize := a }
def State.setAddressSize (s : State) (a : AttrSize) : State := { s with addressSize := a }
def State.setMem (s : State) (m : Memory) : State := { s with mem := m }
def State.setLocals (s : State) (l : Locals) : State := { s with locals := l }
def State.setPc (s : State) (p : Position) : State := { s with pc := p }
def State.setResult (s : State) (v : Value) : State := { s with result := some v }

/-- The statements `b` come before those that remain (R28: IF and CASE move the position into the selected arm,
and from the end of the arm to the statement after FI or ESAC). -/
def Position.enter (b : Block) : Position → Position
  | .start => .at b
  | .at rest => .at (b.append rest)

/-! ## Registers -/

/-- The widths of R14, R15 and R16. -/
def Reg.width : Reg → Nat
  | .eax => 32
  | .esp => 32
  | .sp => 16
  | .si => 16
  | .di => 16

/-- SP: bits 15..0 of ESP (R15, decision D5). -/
def State.sp (s : State) : BitVec 16 := s.esp.extractLsb' 0 16

/-- A write to SP leaves bits 31..16 of ESP unchanged (R15). -/
def State.setSp (s : State) (v : BitVec 16) : State := s.setEsp ((s.esp.extractLsb' 16 16 ++ v : BitVec (16 + 16)))

/-- The size of a bracketed register. -/
def RegSizes.get (z : RegSizes) : Reg → Size
  | .eax => z.eax
  | .esp => z.esp
  | .sp => z.sp
  | .si => z.si
  | .di => z.di

/-- The contents of a register (R74). -/
def State.getReg (s : State) : (r : Reg) → BitVec (Reg.width r)
  | .eax => s.eax
  | .esp => s.esp
  | .sp => s.sp
  | .si => s.si
  | .di => s.di

def State.setReg (s : State) : (r : Reg) → BitVec (Reg.width r) → State
  | .eax, v => s.setEax v
  | .esp, v => s.setEsp v
  | .sp, v => s.setSp v
  | .si, v => s.setSi v
  | .di, v => s.setDi v

/-- Whether two registers share no storage: SP is the low half of ESP, and no other two share any (R15). -/
def Reg.disjoint : Reg → Reg → Bool
  | .esp, .sp => false
  | .sp, .esp => false
  | r, r' => decide (r ≠ r')

/-! ## Size attributes and the choice of the stack pointer -/

/-- Whether the B-bit selects ESP (R97). -/
def State.usesEsp (s : State) : Bool := s.launch.bBit == Config.bBitSelectsEsp

/-- StackAddrSize is 32 when the B-bit selects ESP, else 16 (R92, conflict C6). -/
def State.stackAddrSize (s : State) : AttrSize := if s.usesEsp then .s32 else .s16

/-- The register that a name stands for: eSP is ESP or SP, as the B-bit selects (R97). -/
def State.regOf (s : State) : RegName → Reg
  | .reg r => r
  | .eSP => if s.usesEsp then .esp else .sp

/-- The size attribute of an integer; any but 16 and 32 is refused (R88, R89). -/
def attrOfInt (n : Int) : Except Stop AttrSize :=
  if n = 16 then .ok .s16 else if n = 32 then .ok .s32 else refuse .badAttribute

/-! ## Local variables -/

/-- What a local variable holds, as a value. -/
def LocalValue.value : LocalValue → Value
  | .int x => .unsized x
  | .truth b => .truth b
  | .ioWidth w => .ioWidth w

def Locals.get (l : Locals) : LocalName → Option Value
  | .retVal => l.retVal.map LocalValue.value
  | .ptr => l.ptr.map LocalValue.value
  | .bitStringAddr => l.bitStringAddr.map LocalValue.value
  | .maskShift => l.maskShift.map LocalValue.value
  | .nBitMask => l.nBitMask.map LocalValue.value
  | .mask => l.mask.map LocalValue.value
  | .checkString => l.checkString.map LocalValue.value
  | .value => l.value.map LocalValue.value
  | .ioAddress => l.ioAddress.map LocalValue.value
  | .width => l.width.map LocalValue.value

def Locals.set (l : Locals) (v : LocalValue) : LocalName → Locals
  | .retVal => { l with retVal := some v }
  | .ptr => { l with ptr := some v }
  | .bitStringAddr => { l with bitStringAddr := some v }
  | .maskShift => { l with maskShift := some v }
  | .nBitMask => { l with nBitMask := some v }
  | .mask => { l with mask := some v }
  | .checkString => { l with checkString := some v }
  | .value => { l with value := some v }
  | .ioAddress => { l with ioAddress := some v }
  | .width => { l with width := some v }

/-- The value of a local variable; before its first assignment there is none (R26, decision D28). -/
def State.readLocal (s : State) (l : LocalName) : Except Stop Value :=
  match s.locals.get l with
  | some v => .ok v
  | none => raise (.unwrittenRead l)

/-! ## Memory -/

/-- The byte at a linear address. -/
def Memory.read : Memory → Nat → Byte
  | [], _ => Config.unlistedByte
  | c :: m, a => if c.1 = a then c.2 else Memory.read m a

/-- The byte at a linear address replaced, the form of `Memory.wf` kept. -/
def Memory.write : Memory → Nat → Byte → Memory
  | [], a, b => if b = Config.unlistedByte then [] else [(a, b)]
  | c :: m, a, b =>
    if a < c.1 then
      if b = Config.unlistedByte then c :: m else (a, b) :: c :: m
    else if a = c.1 then
      if b = Config.unlistedByte then m else (a, b) :: m
    else c :: Memory.write m a b

/-- The number in `n` bytes from `a` up, the byte at `a` the low-order one (R32, R34). -/
def Memory.readBytes (m : Memory) : Nat → Nat → Nat
  | _, 0 => 0
  | a, n + 1 => (m.read a).toNat + 256 * m.readBytes (a + 1) n

/-- The `n` low-order bytes of `v` stored from `a` up, the low-order one at `a` (R32, R34). -/
def Memory.writeBytes : Memory → Nat → Nat → Nat → Memory
  | m, _, 0, _ => m
  | m, a, n + 1, v => Memory.writeBytes (m.write a (BitVec.ofNat 8 v)) (a + 1) n (v / 256)

/-- SegBase (R19, R48). -/
def State.segBase (s : State) : Segment → Nat
  | .reg .es => s.launch.esBase
  | .reg .ds => s.launch.dsBase
  | .reg .ss => s.launch.ssBase
  | .tss => s.launch.tssBase

/-- Whether a denial covers an access. -/
def Denial.covers (d : Denial) (seg : Segment) (off : Nat) (size : Size) (kind : AccessKind) : Bool :=
  decide (d.seg = seg) && decide (d.kind = kind) && decide (d.size = size) && decide (d.first ≤ off) &&
    decide (off ≤ d.last)

/-- A place in memory: a segment, an offset that is computed over the integers, the width of the offset range and
the number of bytes. -/
structure Place where
  seg : Segment
  offBits : Nat
  off : Int
  size : Size
  deriving DecidableEq, Repr

/-- `Admit` (R38): the bytes lie in the offset range, whose top an access does not pass and does not wrap (R37,
R109), and the launch state denies no such access. -/
def State.admits (s : State) (p : Place) (kind : AccessKind) : Bool :=
  decide (0 ≤ p.off) && decide (p.off + p.size.bytes ≤ 2 ^ p.offBits) &&
    !s.launch.denied.any fun d => d.covers p.seg p.off.toNat p.size kind

/-- The linear address of a place's first byte (R35). -/
def State.linear (s : State) (p : Place) : Nat := s.segBase p.seg + p.off.toNat

/-- MemRead (R39). -/
def State.memRead (s : State) (p : Place) : Except Stop (BitVec p.size.bits) :=
  if s.admits p .read then .ok (BitVec.ofNat _ (s.mem.readBytes (s.linear p) p.size.bytes))
  else raise (.notAdmitted p.seg p.off p.size .read)

/-- MemWrite (R40). -/
def State.memWrite (s : State) (p : Place) (v : BitVec p.size.bits) : Except Stop State :=
  if s.admits p .write then .ok (s.setMem (s.mem.writeBytes (s.linear p) p.size.bytes v.toNat))
  else raise (.notAdmitted p.seg p.off p.size .write)

end Sys2Proof.Machine
end

