-- ==== Sys2Proof/Machine/Values.lean ====
section
/-! DEFINITION. How a value is read as an integer, and what assigning it to a place of some width does (R10). -/

namespace Sys2Proof.Machine

/-- The integer a value stands for (R79, decision D30): unsigned, unless it went through SignExtend. Symbolic
constants and instruction names stand for none. -/
def Value.int? : Value → Option Int
  | .sized _ v signed => some (if signed then v.toInt else (v.toNat : Int))
  | .unsized x => some x
  | .truth _ => none
  | .ioWidth _ => none
  | .name _ => none

/-- An integer is required: a symbolic constant in its place is no text of the grammar (R79). -/
def Value.int (v : Value) : Except Stop Int :=
  match v.int? with
  | some x => .ok x
  | none => refuse .notInGrammar

/-- A BitOffset is "declared signed" (R81, decision D30): a value with a width reads as two's complement. A bit, of width 1,
is 0 or 1 (R107). -/
def Value.signedInt (v : Value) : Except Stop Int :=
  match v with
  | .sized w b _ => .ok (if w = 1 then (b.toNat : Int) else b.toInt)
  | .unsized x => .ok x
  | .truth _ => refuse .notInGrammar
  | .ioWidth _ => refuse .notInGrammar
  | .name _ => refuse .notInGrammar

/-- The non-negative integer whose bits a value holds, or the negative integer it is: what AND, SHR and SHL take
(R85, R86). A value with a width is its bit pattern, aligned at bit 0. -/
def Value.bitsInt (v : Value) : Except Stop Int :=
  match v with
  | .sized _ b _ => .ok b.toNat
  | .unsized x => .ok x
  | .truth _ => refuse .notInGrammar
  | .ioWidth _ => refuse .notInGrammar
  | .name _ => refuse .notInGrammar

/-- A truth value is required (R70). -/
def Value.truthValue (v : Value) : Except Stop Bool :=
  match v with
  | .truth b => .ok b
  | .sized _ _ _ => refuse .notInGrammar
  | .unsized _ => refuse .notInGrammar
  | .ioWidth _ => refuse .notInGrammar
  | .name _ => refuse .notInGrammar

/-- What a register or a location of width `w` receives (R10, R78): a value of the same width as it is, an unsized
value modulo 2^w, and no value of another width. -/
def Value.toWidth (v : Value) (w : Nat) : Except Stop (BitVec w) :=
  match v with
  | .sized m b _ => if m = w then .ok (b.setWidth w) else raise (.widthMismatch (some m) w)
  | .unsized x => .ok (BitVec.ofInt w x)
  | .truth _ => refuse .notInGrammar
  | .ioWidth _ => refuse .notInGrammar
  | .name _ => refuse .notInGrammar

/-- What a local variable receives (R78: "the unbounded value", R10): the integer, without a width, or the symbolic constant.
R10 holds a signed quantity as its value modulo 2^m, so a value with a width is its bit pattern. R26 calls what a local variable
holds non-negative, which R10 and R78 do not: log entry 14. -/
def Value.toLocal (v : Value) : Except Stop LocalValue :=
  match v with
  | .sized _ b _ => .ok (.int b.toNat)
  | .unsized x => .ok (.int x)
  | .truth b => .ok (.truth b)
  | .ioWidth w => .ok (.ioWidth w)
  | .name _ => refuse .notInGrammar

/-- An unsigned value of a known width. -/
def Value.ofBits {w : Nat} (v : BitVec w) : Value := .sized w v false

end Sys2Proof.Machine
end

