-- ==== Sys2Proof/Machine/Flags.lean ====
section
/-! DEFINITION. The document names no flag (R24), so there is no flag computation. The only conditions of the
notation are the truth values of its relational expressions (R79 to R82); they are computed here. -/

namespace Sys2Proof.Machine

/-- Whether two values are equal (R79): integers by value, symbolic constants by name. An integer beside a symbolic
constant is refused, and so is an instruction name outside the test of R96. -/
def valuesEqual (a b : Value) : Except Stop Bool :=
  match a.int?, b.int? with
  | some x, some y => .ok (decide (x = y))
  | some _, none => refuse .notInGrammar
  | none, some _ => refuse .notInGrammar
  | none, none =>
    match a, b with
    | .name _, _ => refuse .notInGrammar
    | _, .name _ => refuse .notInGrammar
    | a, b => .ok (decide (a = b))

/-- R79. -/
def opEq (a b : Value) : Except Stop Value := do
  let e ← valuesEqual a b
  .ok (.truth e)

/-- R80: the complement of R79. -/
def opNe (a b : Value) : Except Stop Value := do
  let e ← valuesEqual a b
  .ok (.truth !e)

/-- R81. -/
def opGe (a b : Value) : Except Stop Value := do
  let x ← a.int
  let y ← b.int
  .ok (.truth (decide (x ≥ y)))

/-- R82. -/
def opLe (a b : Value) : Except Stop Value := do
  let x ← a.int
  let y ← b.int
  .ok (.truth (decide (x ≤ y)))

end Sys2Proof.Machine
end

