-- ==== Sys2Proof/Machine/Arithmetic.lean ====
section
/-! DEFINITION. The arithmetic of the notation (R83 to R87): exact over the integers, without a width until the result
is assigned (R10). -/

namespace Sys2Proof.Machine

/-- R83. -/
def opMul (a b : Value) : Except Stop Value := do
  let x ← a.int
  let y ← b.int
  .ok (.unsized (x * y))

/-- R84. -/
def opAdd (a b : Value) : Except Stop Value := do
  let x ← a.int
  let y ← b.int
  .ok (.unsized (x + y))

/-- R84. -/
def opSub (a b : Value) : Except Stop Value := do
  let x ← a.int
  let y ← b.int
  .ok (.unsized (x - y))

/-- R85 on non-negative integers; a free value when one operand is negative, where R85 states no result (log
entry 6). -/
def bitwiseAnd (x y : Int) : Int :=
  if 0 ≤ x ∧ 0 ≤ y then ((x.toNat &&& y.toNat : Nat) : Int) else Config.andOfNegative x y

/-- R85. -/
def opAnd (a b : Value) : Except Stop Value := do
  let x ← a.bitsInt
  let y ← b.bitsInt
  .ok (.unsized (bitwiseAnd x y))

/-- `floor_div(v, 2^c)`; a negative operand is refused (R86). -/
def opShr (a b : Value) : Except Stop Value := do
  let v ← a.bitsInt
  let c ← b.bitsInt
  if 0 ≤ v ∧ 0 ≤ c then .ok (.unsized (v.fdiv (2 ^ c.toNat))) else refuse .notInGrammar

/-- `v * 2^c`; a negative operand is refused (R86). -/
def opShl (a b : Value) : Except Stop Value := do
  let v ← a.bitsInt
  let c ← b.bitsInt
  if 0 ≤ v ∧ 0 ≤ c then .ok (.unsized (v * 2 ^ c.toNat)) else refuse .notInGrammar

/-- `floor_div(A, B)`; division by 0 is refused (R87). -/
def opDiv (a b : Value) : Except Stop Value := do
  let x ← a.int
  let y ← b.int
  if y = 0 then refuse .notInGrammar else .ok (.unsized (x.fdiv y))

/-- `pmod(A, B) = A - B * floor_div(A, B)`; a divisor of 0 is refused (R87). -/
def opMod (a b : Value) : Except Stop Value := do
  let x ← a.int
  let y ← b.int
  if y = 0 then refuse .notInGrammar else .ok (.unsized (x - y * x.fdiv y))

/-- The operator of R79 to R87 that `op` names. -/
def applyOp (op : BinOp) (a b : Value) : Except Stop Value :=
  match op with
  | .eq => opEq a b
  | .ne => opNe a b
  | .ge => opGe a b
  | .le => opLe a b
  | .mul => opMul a b
  | .add => opAdd a b
  | .sub => opSub a b
  | .and => opAnd a b
  | .shr => opShr a b
  | .shl => opShl a b
  | .div => opDiv a b
  | .mod => opMod a b

end Sys2Proof.Machine
end

