-- ==== Sys2Proof/Machine/Operands.lean ====
section
/-! DEFINITION. The operand forms (R74 to R77) and the identifiers that stand for operands (R93 to R95, R97): where
they are, what they read as, and what assigning to them does (R78). -/

namespace Sys2Proof.Machine

/-- The operand that an identifier stands for. -/
def State.operandOf (s : State) : OperandName → Operand
  | .src => s.launch.src
  | .dest => s.launch.dest
  | .leftSrc => s.launch.leftSrc
  | .rightSrc => s.launch.rightSrc

/-- An effective address has the width AddressSize (R89, R99). -/
def State.effectiveAddress (s : State) (off : BitVec 32) : BitVec s.addressSize.bits := off.setWidth _

/-! ## Places -/

/-- The place of `[r]` (R75): SI has DS for its default segment, unless one overrides it, and no other register has
one (R36). R37 gives no width to an offset taken from SI; that it is SI's own 16 bits, whatever AddressSize is, is a DESIGN
CHOICE (log entry 9). -/
def State.memRegPlace (s : State) (r : Reg) : Except Stop Place :=
  if r.hasDefaultSegment then
    .ok { seg := .reg (s.launch.segOverride.getD .ds), offBits := Reg.width r, off := (s.getReg r).toNat,
          size := s.launch.memRegSize }
  else refuse .noDefaultSegment

/-- The stack forms `SS:[SP]` and `SS:[ESP]`, whose size OperandSize fixes (R42, R75, R76). -/
def isStackForm (g : SegReg) (r : Reg) : Bool := decide (g = .ss) && (decide (r = .sp) || decide (r = .esp))

/-- The size of `seg:[r]`: OperandSize / 8 bytes for a stack form, and for another form the size of the operand it stands
for, an input of the run (R42). -/
def State.memSegRegSize (s : State) (g : SegReg) (r : Reg) : Size :=
  if isStackForm g r then s.operandSize.size
  else
    match g with
    | .es => s.launch.esSizes.get r
    | .ds => s.launch.dsSizes.get r
    | .ss => s.launch.ssSizes.get r

/-- The place of `seg:[r]` (R76). R37 gives the offset a width for SP and ESP; that an offset taken from SI, DI or EAX has that
register's own width, whatever AddressSize is, is a DESIGN CHOICE (log entry 9). -/
def State.memSegRegPlace (s : State) (g : SegReg) (r : Reg) : Place :=
  { seg := .reg g, offBits := Reg.width r, off := (s.getReg r).toNat, size := s.memSegRegSize g r }

/-- The place of a memory operand (R35, R99). -/
def State.operandPlace (s : State) (g : SegReg) (off : BitVec 32) (size : Size) : Place :=
  { seg := .reg g, offBits := s.addressSize.bits, off := (s.effectiveAddress off).toNat, size := size }

/-- The place that `[SRC]` designates (R77): the memory operand holds an offset within a segment. A register operand
is the form of R75; an immediate operand has no address (R99). -/
def State.memOperandPlace (s : State) (o : OperandName) : Except Stop Place :=
  let op := s.operandOf o
  match op.kind with
  | .reg r => s.memRegPlace r
  | .imm _ _ => refuse .addrOfNonMemory
  | .mem g off _ => do
    let stored ← s.memRead (s.operandPlace g off op.storedSize)
    .ok { seg := .reg op.targetSeg, offBits := op.storedSize.bits, off := stored.toNat, size := op.targetSize }

/-- The place at an offset of the current TSS (R48). -/
def State.tssPlace (off : Int) (size : Size) : Place :=
  { seg := .tss, offBits := Config.tssOffsetBits, off := off, size := size }

/-- The place of `[TSS+66]` (R61 d, R111). -/
def State.tssPointerPlace (s : State) : Place := State.tssPlace s.launch.iomapPtrOffset Config.iomapPtrSize

/-- The place of `[BitStringAddr]`, at the offset that the local variable holds (R61 d, R111). -/
def State.bitStringPlace (s : State) : Except Stop Place := do
  let a ← s.readLocal .bitStringAddr
  let a ← a.int
  .ok (State.tssPlace a Config.iomapReadSize)

/-! ## Reading -/

/-- The value in a place, which carries the place's width (R10, R39). -/
def State.readPlace (s : State) (p : Place) : Except Stop Value := do
  let v ← s.memRead p
  .ok (.ofBits v)

/-- The value of SRC, DEST, LeftSRC or RightSRC: what the operand holds, of the operand's size (R93). R94 names a register
or a memory location for DEST; that a DEST given as an immediate reads as one is a DESIGN CHOICE (log entry 20), and
assigning it is refused. -/
def State.readOperand (s : State) (o : OperandName) : Except Stop Value :=
  match (s.operandOf o).kind with
  | .reg r => .ok (.ofBits (s.getReg r))
  | .mem g off size => s.readPlace (s.operandPlace g off size)
  | .imm size v => .ok (.ofBits (v.setWidth size.bits))

/-- The value of eSP: ESP or SP, as the B-bit selects (R97). -/
def State.readESP (s : State) : Value := .ofBits (s.getReg (s.regOf .eSP))

/-! ## Writing -/

def State.assignReg (s : State) (r : Reg) (v : Value) : Except Stop State := do
  let b ← v.toWidth (Reg.width r)
  .ok (s.setReg r b)

def State.assignPlace (s : State) (p : Place) (v : Value) : Except Stop State := do
  let b ← v.toWidth p.size.bits
  s.memWrite p b

/-- The place in memory that a destination is, if it is one (R61, R75, R76, R77, R94). -/
def State.destPlace (s : State) (d : Dest) : Except Stop (Option Place) :=
  match d with
  | .memReg r => do
    let p ← s.memRegPlace r
    .ok (some p)
  | .memSegReg g r => .ok (some (s.memSegRegPlace g (s.regOf r)))
  | .memOperand o => do
    let p ← s.memOperandPlace o
    .ok (some p)
  | .tssPointer => .ok (some s.tssPointerPlace)
  | .bitString => do
    let p ← s.bitStringPlace
    .ok (some p)
  | .dest =>
    match s.launch.dest.kind with
    | .mem g off size => .ok (some (s.operandPlace g off size))
    | .reg _ => .ok none
    | .imm _ _ => .ok none
  | .reg _ => .ok none
  | .eSP => .ok none
  | .loc _ => .ok none
  | .operandSize => .ok none

/-- Assigning to a destination that is no place in memory: a register, the register that eSP or DEST stands for, a
local variable, or OperandSize (R78, R88, R94, R97). -/
def State.assignName (s : State) (d : Dest) (v : Value) : Except Stop State :=
  match d with
  | .reg r => s.assignReg r v
  | .eSP => s.assignReg (s.regOf .eSP) v
  | .dest =>
    match s.launch.dest.kind with
    | .reg r => s.assignReg r v
    | .mem _ _ _ => refuse .notInGrammar
    | .imm _ _ => refuse .notInGrammar
  | .loc l => do
    let x ← v.toLocal
    .ok (s.setLocals (s.locals.set x l))
  | .operandSize => do
    let x ← v.int
    let a ← attrOfInt x
    .ok (s.setOperandSize a)
  | .memReg _ => refuse .notInGrammar
  | .memSegReg _ _ => refuse .notInGrammar
  | .memOperand _ => refuse .notInGrammar
  | .tssPointer => refuse .notInGrammar
  | .bitString => refuse .notInGrammar

/-- `A <- v` for a value that has been evaluated (R78). The place is found first, so that a read of the stored offset of
`[DEST]` or `[SRC]` that is not admitted is met before the kind and the width of the value are judged: a DESIGN CHOICE (log
entry 24). -/
def State.assign (s : State) (d : Dest) (v : Value) : Except Stop State := do
  match ← s.destPlace d with
  | some p => s.assignPlace p v
  | none => s.assignName d v

end Sys2Proof.Machine
end

