-- ==== Sys2Proof/Machine/Functions.lean ====
section
/-! DEFINITION. What the functions of the notation compute from arguments already evaluated (decision D37): R98 to
R112. The forms that call them are in SizeFunctions, StackFunctions, BitFunction and SystemFunctions. -/

namespace Sys2Proof.Machine

/-! ## Size and address functions -/

/-- Truncate to 16 bits (R98): the value modulo 2^16, with the width 16. That a 16-bit result of SignExtend comes out
without its mark, and so reads as unsigned, is log entry 15: R98 says "returned unchanged" and "value mod 2^16". -/
def truncate16 (v : Value) : Except Stop Value :=
  match v with
  | .sized _ b _ => .ok (.ofBits (b.setWidth 16))
  | .unsized x => .ok (.ofBits (BitVec.ofInt 16 x))
  | .truth _ => refuse .notInGrammar
  | .ioWidth _ => refuse .notInGrammar
  | .name _ => refuse .notInGrammar

/-- ZeroExtend to the width `n` (R100). That a result of SignExtend of that width comes out without its mark, and so reads
as unsigned, is log entry 15: R100 says "unaltered", of the bits. That a bit, of width 1, may be extended is log entry
19. -/
def zeroExtendTo (n : Nat) (v : Value) : Except Stop Value :=
  match v with
  | .sized m b _ => if m ≤ n then .ok (.ofBits (b.setWidth n)) else raise (.widthMismatch (some m) n)
  | .unsized _ => raise (.widthMismatch none n)
  | .truth _ => refuse .notInGrammar
  | .ioWidth _ => refuse .notInGrammar
  | .name _ => refuse .notInGrammar

/-- SignExtend to the width `n` (R101); the result reads as two's complement (decision D30). That a bit, of width 1, may be
extended is log entry 19. -/
def signExtendTo (n : Nat) (v : Value) : Except Stop Value :=
  match v with
  | .sized m b _ => if m ≤ n then .ok (.sized n (b.signExtend n) true) else raise (.widthMismatch (some m) n)
  | .unsized _ => raise (.widthMismatch none n)
  | .truth _ => refuse .notInGrammar
  | .ioWidth _ => refuse .notInGrammar
  | .name _ => refuse .notInGrammar

/-- Addr (R99): the effective address of a memory operand. No memory is read. -/
def State.addrOf (s : State) (a : AddrArg) : Except Stop Value :=
  match a with
  | .operand o =>
    match (s.operandOf o).kind with
    | .mem _ off _ => .ok (.ofBits (s.effectiveAddress off))
    | .reg _ => refuse .addrOfNonMemory
    | .imm _ _ => refuse .addrOfNonMemory
  | .reg _ => refuse .addrOfNonMemory
  | .num _ => refuse .addrOfNonMemory

/-! ## Stack functions -/

/-- The place at the top of the stack: `SS:[ESP]` or `SS:[SP]`, as StackAddrSize selects, of OperandSize / 8 bytes
(R42, R102, R103). -/
def State.stackTop (s : State) : Place :=
  match s.stackAddrSize with
  | .s16 => s.memSegRegPlace .ss .sp
  | .s32 => s.memSegRegPlace .ss .esp

/-- The stack pointer that StackAddrSize selects, moved by `n` modulo its own width (R102, R103). -/
def State.moveStack (s : State) (n : Int) : State :=
  match s.stackAddrSize with
  | .s16 => s.setSp (s.sp + BitVec.ofInt 16 n)
  | .s32 => s.setEsp (s.esp + BitVec.ofInt 32 n)

/-- Push (R102): the stack pointer is decreased first and the store uses the new value (R131). -/
def State.push (s : State) (v : Value) : Except Stop State := do
  let b ← v.toWidth s.operandSize.bits
  let s' := s.moveStack (-(s.operandSize.size.bytes : Int))
  s'.assignPlace s'.stackTop (.ofBits b)

/-- Pop (R103): the load uses the old stack pointer, which is increased afterwards (R132). -/
def State.pop (s : State) : Except Stop (Value × State) := do
  let v ← s.readPlace s.stackTop
  .ok (v, s.moveStack (s.operandSize.size.bytes : Int))

/-! ## The Bit function -/

/-- A bit, with the width 1 (R107). -/
def bitValue (b : Bool) : Value := .ofBits (BitVec.ofBool b)

/-- Bit of a register (R108). -/
def State.bitOfReg (s : State) (r : Reg) (k : Int) : Except Stop Value :=
  if 0 ≤ k ∧ k < Reg.width r then .ok (bitValue ((s.getReg r).getLsbD k.toNat)) else raise (.bitOffsetRange k)

/-- The byte that holds a bit of a bit string in memory (R109): at `BitBase + (BitOffset DIV 8)`, over the integers
(decision D24). -/
def State.bitPlace (s : State) (g : SegReg) (base k : Int) : Place :=
  { seg := .reg g, offBits := s.addressSize.bits, off := base + k.fdiv 8, size := .byte }

/-- Bit of memory (R109, R110). -/
def State.bitOfMem (s : State) (g : SegReg) (base k : Int) : Except Stop Value :=
  if Config.bitOffsetMin ≤ k ∧ k ≤ Config.bitOffsetMax then do
    let b ← s.memRead (s.bitPlace g base k)
    .ok (bitValue (b.getLsbD (k - 8 * k.fdiv 8).toNat))
  else raise (.bitOffsetRange k)

/-- Bit of an operand of the instruction: the form of its kind (R107). An immediate is neither a register nor a
memory address. -/
def State.bitOfOperand (s : State) (o : OperandName) (k : Int) : Except Stop Value :=
  match (s.operandOf o).kind with
  | .reg r => s.bitOfReg r k
  | .mem g off _ => s.bitOfMem g (s.effectiveAddress off).toNat k
  | .imm _ _ => refuse .notInGrammar

/-! ## I-O-Permission -/

/-- `[TSS+66]`, the bitmap pointer (R111). -/
def State.readTssPointer (s : State) : Except Stop Value :=
  s.readPlace s.tssPointerPlace

/-- `[BitStringAddr]` (R111). -/
def State.readBitString (s : State) (addr : Int) : Except Stop Value :=
  s.readPlace (State.tssPlace addr Config.iomapReadSize)

/-- `CASE width OF` of R111: the mask of 1, 2 or 4 bits. Any other width is a CaseNoArm, the identifier
`instruction` among them (R111). -/
def nBitMaskOf (w : Value) : Except Stop Int :=
  match w with
  | .ioWidth .byte => .ok 1
  | .ioWidth .word => .ok 3
  | .ioWidth .dword => .ok 15
  | w => raise (.caseNoArm w)

/-- I-O-Permission (R111), statement by statement. With a 16-bit TSS it is FALSE before it uses its arguments, so that they may
be of any kind there; that `instruction` may be one then, of which R96 says that it is compared and nothing else, is a DESIGN
CHOICE (log entry 18). -/
def State.ioPermission (s : State) (a w : Value) : Except Stop Value :=
  if s.launch.tssType = .t16 then .ok (.truth false)
  else do
    let ptr ← s.readTssPointer
    let index ← opShr a (.unsized 3)
    let addr ← (← opAdd index ptr).int
    let maskShift ← opAnd a (.unsized 7)
    let nBitMask ← nBitMaskOf w
    let mask ← opShl (.unsized nBitMask) maskShift
    let bits ← s.readBitString addr
    let checkString ← opAnd bits mask
    opEq checkString (.unsized 0)

end Sys2Proof.Machine
end

