-- ==== Sys2Proof/Machine/Eval.lean ====
section
/-! DEFINITION. The value of an expression. Operands are evaluated from left to right and the first stop met is the
outcome (R119); the state is passed along because Pop moves the stack pointer. -/

namespace Sys2Proof.Machine

/-- The instruction name that the test `instruction = NAME` asks for (R96). -/
def nameTest : BinOp → Expr → Expr → Option InstrName
  | .eq, .instruction, .cmpsw => some .cmpsw
  | .eq, .instruction, .cmpsd => some .cmpsd
  | _, _, _ => none

/-- The value of an expression, and the state after it is evaluated. R10 and R78 list OperandSize, AddressSize and
StackAddrSize neither among the values with a width nor among those without; that they read without one, so that a
register of any width can be assigned one, is a DESIGN CHOICE (log entry 25). The BitBase of the register form is a
register and not a value: its bit is read after the offset is evaluated, so after a Pop in the offset; a DESIGN CHOICE (log
entry 24). The kind of an operand is judged after all the operands are evaluated, so that in `TRUE + Pop( )` a stuck Pop is met
first: a DESIGN CHOICE (log entry 24). -/
def eval : Expr → State → Except Stop (Value × State)
  | .num n, s => .ok (.unsized n, s)
  | .truth b, s => .ok (.truth b, s)
  | .ioWidth w, s => .ok (.ioWidth w, s)
  | .tssIs16, s => .ok (.truth (decide (s.launch.tssType = .t16)), s)
  | .loc l, s => do
    let v ← s.readLocal l
    .ok (v, s)
  | .tssPointer, s => do
    let v ← s.readTssPointer
    .ok (v, s)
  | .bitString, s => do
    let p ← s.bitStringPlace
    let v ← s.readPlace p
    .ok (v, s)
  | .reg r, s => .ok (.ofBits (s.getReg r), s)
  | .memReg r, s => do
    let p ← s.memRegPlace r
    let v ← s.readPlace p
    .ok (v, s)
  | .memSegReg g r, s => do
    let v ← s.readPlace (s.memSegRegPlace g (s.regOf r))
    .ok (v, s)
  | .memOperand o, s => do
    let p ← s.memOperandPlace o
    let v ← s.readPlace p
    .ok (v, s)
  | .operandSize, s => .ok (.unsized s.operandSize.bits, s)
  | .addressSize, s => .ok (.unsized s.addressSize.bits, s)
  | .stackAddrSize, s => .ok (.unsized s.stackAddrSize.bits, s)
  | .operand o, s => do
    let v ← s.readOperand o
    .ok (v, s)
  | .instruction, s => .ok (.name s.launch.instruction, s)
  | .eSP, s => .ok (s.readESP, s)
  | .cmpsw, _ => refuse .instructionPageMissing
  | .cmpsd, _ => refuse .instructionPageMissing
  | .bin op a b, s =>
    match nameTest op a b with
    | some n => .ok (.truth (decide (s.launch.instruction = n)), s)
    | none => do
      let (x, s) ← eval a s
      let (y, s) ← eval b s
      let v ← applyOp op x y
      .ok (v, s)
  | .truncate16 e, s => do
    let (x, s) ← eval e s
    let v ← Machine.truncate16 x
    .ok (v, s)
  | .addr a, s => do
    let v ← s.addrOf a
    .ok (v, s)
  | .zeroExtend e, s => do
    let (x, s) ← eval e s
    let v ← zeroExtendTo s.operandSize.bits x
    .ok (v, s)
  | .signExtend e, s => do
    let (x, s) ← eval e s
    let v ← signExtendTo s.operandSize.bits x
    .ok (v, s)
  | .pop, s => s.pop
  | .popSt, _ => refuse .fpuNotInSource
  | .bitReg r off, s => do
    let (k, s) ← eval off s
    let k ← k.signedInt
    let v ← s.bitOfReg (s.regOf r) k
    .ok (v, s)
  | .bitMem g base off, s => do
    let (b, s) ← eval base s
    let (k, s) ← eval off s
    let b ← b.bitsInt
    let k ← k.signedInt
    let v ← s.bitOfMem g b k
    .ok (v, s)
  | .bitOperand o off, s => do
    let (k, s) ← eval off s
    let k ← k.signedInt
    let v ← s.bitOfOperand o k
    .ok (v, s)
  | .ioPermission a w, s => do
    let (a, s) ← eval a s
    let (w, s) ← eval w s
    let v ← s.ioPermission a w
    .ok (v, s)
  | .switchTasks, _ => refuse .switchTasks

/-- A form that stands on its own is evaluated and its value kept in `result` (log entry 2). -/
def evalForm (e : Expr) (s : State) : Host.Outcome State Fault Refusal :=
  outcome do
    let (v, s) ← eval e s
    .ok (s.setResult v)

end Sys2Proof.Machine
end

