-- ==== Sys2Proof/Machine/BitFunction.lean ====
section
/-! DEFINITION. The Bit function (R107 to R110). -/

namespace Sys2Proof.Machine

/-- R107, with the register form of R108 and the memory form of R109. -/
def execBit (base : BitBase) (off : Expr) (s : State) : Host.Outcome State Fault Refusal := evalForm (base.bit off) s

end Sys2Proof.Machine
end

