-- ==== Sys2Proof/Machine/Identifiers.lean ====
section
/-! DEFINITION. The identifiers that stand on their own (R88, R89, R92 to R97), and the two instruction names, whose
execution the spec refuses (R90, R91). -/

namespace Sys2Proof.Machine

/-- R88. -/
def execOperandSize (s : State) : Host.Outcome State Fault Refusal := evalForm .operandSize s

/-- R89. -/
def execAddressSize (s : State) : Host.Outcome State Fault Refusal := evalForm .addressSize s

/-- R92. -/
def execStackAddrSize (s : State) : Host.Outcome State Fault Refusal := evalForm .stackAddrSize s

/-- R93. -/
def execSrc (s : State) : Host.Outcome State Fault Refusal := evalForm (.operand .src) s

/-- R94. -/
def execDest (s : State) : Host.Outcome State Fault Refusal := evalForm (.operand .dest) s

/-- R95. -/
def execLeftSrc (s : State) : Host.Outcome State Fault Refusal := evalForm (.operand .leftSrc) s

/-- R95. -/
def execRightSrc (s : State) : Host.Outcome State Fault Refusal := evalForm (.operand .rightSrc) s

/-- R96. -/
def execInstruction (s : State) : Host.Outcome State Fault Refusal := evalForm .instruction s

/-- R97. -/
def execESP (s : State) : Host.Outcome State Fault Refusal := evalForm .eSP s

/-- R90: executing CMPSW is `refuse(InstructionPageMissing)`. -/
def execCmpsw (s : State) : Host.Outcome State Fault Refusal := evalForm .cmpsw s

/-- R91: executing CMPSD is `refuse(InstructionPageMissing)`. -/
def execCmpsd (s : State) : Host.Outcome State Fault Refusal := evalForm .cmpsd s

end Sys2Proof.Machine
end

