-- ==== Sys2Proof/Machine/OperandForms.lean ====
section
/-! DEFINITION. The operand forms that stand on their own (R74 to R77). -/

namespace Sys2Proof.Machine

/-- R74: "A register name implies the contents of the register." -/
def execReg (r : Reg) (s : State) : Host.Outcome State Fault Refusal := evalForm (.reg r) s

/-- R75. -/
def execMemReg (r : Reg) (s : State) : Host.Outcome State Fault Refusal := evalForm (.memReg r) s

/-- R76. -/
def execMemSegReg (g : SegReg) (r : RegName) (s : State) : Host.Outcome State Fault Refusal := evalForm (.memSegReg g r) s

/-- R77. -/
def execMemOperand (o : OperandName) (s : State) : Host.Outcome State Fault Refusal := evalForm (.memOperand o) s

end Sys2Proof.Machine
end

