-- ==== Sys2Proof/Machine/Operators.lean ====
section
/-! DEFINITION. The operators that stand on their own (R79 to R87). -/

namespace Sys2Proof.Machine

/-- R79, and the test of R96. -/
def execEq (a b : Expr) (s : State) : Host.Outcome State Fault Refusal := evalForm (.bin .eq a b) s

/-- R80. -/
def execNe (a b : Expr) (s : State) : Host.Outcome State Fault Refusal := evalForm (.bin .ne a b) s

/-- R81. -/
def execGe (a b : Expr) (s : State) : Host.Outcome State Fault Refusal := evalForm (.bin .ge a b) s

/-- R82. -/
def execLe (a b : Expr) (s : State) : Host.Outcome State Fault Refusal := evalForm (.bin .le a b) s

/-- R83. -/
def execMul (a b : Expr) (s : State) : Host.Outcome State Fault Refusal := evalForm (.bin .mul a b) s

/-- R84. -/
def execAdd (a b : Expr) (s : State) : Host.Outcome State Fault Refusal := evalForm (.bin .add a b) s

/-- R84. -/
def execSub (a b : Expr) (s : State) : Host.Outcome State Fault Refusal := evalForm (.bin .sub a b) s

/-- R85. -/
def execAnd (a b : Expr) (s : State) : Host.Outcome State Fault Refusal := evalForm (.bin .and a b) s

/-- R86. -/
def execShr (a b : Expr) (s : State) : Host.Outcome State Fault Refusal := evalForm (.bin .shr a b) s

/-- R86. -/
def execShl (a b : Expr) (s : State) : Host.Outcome State Fault Refusal := evalForm (.bin .shl a b) s

/-- R87. -/
def execDiv (a b : Expr) (s : State) : Host.Outcome State Fault Refusal := evalForm (.bin .div a b) s

/-- R87. -/
def execMod (a b : Expr) (s : State) : Host.Outcome State Fault Refusal := evalForm (.bin .mod a b) s

end Sys2Proof.Machine
end

