-- ==== Sys2Proof/Machine/SizeFunctions.lean ====
section
/-! DEFINITION. The size and address functions that stand on their own (R98 to R101). -/

namespace Sys2Proof.Machine

/-- R98. -/
def execTruncate16 (e : Expr) (s : State) : Host.Outcome State Fault Refusal := evalForm (.truncate16 e) s

/-- R99. -/
def execAddr (a : AddrArg) (s : State) : Host.Outcome State Fault Refusal := evalForm (.addr a) s

/-- R100. -/
def execZeroExtend (e : Expr) (s : State) : Host.Outcome State Fault Refusal := evalForm (.zeroExtend e) s

/-- R101. -/
def execSignExtend (e : Expr) (s : State) : Host.Outcome State Fault Refusal := evalForm (.signExtend e) s

end Sys2Proof.Machine
end

