-- ==== Sys2Proof/Machine/StackFunctions.lean ====
section
/-! DEFINITION. The stack functions (R102, R103, R105). -/

namespace Sys2Proof.Machine

/-- R102: the argument is evaluated before the body runs (corner case d), and Push returns no value. -/
def execPush (e : Expr) (s : State) : Host.Outcome State Fault Refusal :=
  outcome do
    let (v, s) ← eval e s
    s.push v

/-- R103. -/
def execPop (s : State) : Host.Outcome State Fault Refusal := evalForm .pop s

/-- R105: what popping the FPU register stack does is not in the document. -/
def execPopSt (s : State) : Host.Outcome State Fault Refusal := evalForm .popSt s

end Sys2Proof.Machine
end

