-- ==== Sys2Proof/Machine/Statements.lean ====
section
/-! DEFINITION. The statements (R67 to R73, R78). A step has already moved the statement position past the statement
(R28), so a simple statement leaves `pc` alone. -/

namespace Sys2Proof.Machine

/-- R67: "A comment has no effect on any state". -/
def execComment (_text : List Byte) (s : State) : Host.Outcome State Fault Refusal := .next s

/-- R70: the arm that the condition selects comes next, and after it what follows FI. -/
def execIfThen (cond : Expr) (thn els : Block) (s : State) : Host.Outcome State Fault Refusal :=
  outcome do
    let (v, s) ← eval cond s
    let b ← v.truthValue
    .ok (s.setPc (s.pc.enter (if b then thn else els)))

/-- R71: the document gives DO no iteration rule. -/
def execDoLoop (_body : Block) (_s : State) : Host.Outcome State Fault Refusal := .refused .doStatement

/-- Whether a label equals the value of the selector (R72). -/
def labelMatches (l : Label) (v : Value) : Bool :=
  match l with
  | .num n => decide (v.int? = some (n : Int))
  | .truth b => decide (v = .truth b)
  | .ioWidth w => decide (v = .ioWidth w)

/-- The statements of the first arm whose label equals the value. -/
def selectArm (v : Value) : Arms → Option Block
  | .nil => none
  | .cons l b rest => if labelMatches l v then some b else selectArm v rest

/-- R72: the arm whose label equals the selector comes next, and after it what follows ESAC. The identifier
`instruction` is compared by `=` and by nothing else (R96). -/
def execCaseOf (sel : Expr) (arms : Arms) (s : State) : Host.Outcome State Fault Refusal :=
  outcome do
    let (v, s) ← eval sel s
    match v with
    | .name _ => refuse .notInGrammar
    | v =>
      match selectArm v arms with
      | some b => .ok (s.setPc (s.pc.enter b))
      | none => raise (.caseNoArm v)

/-- R69: END ends the run of the whole algorithm. -/
def execEndRun (s : State) : Host.Outcome State Fault Refusal := .next (s.setPc (.at .nil))

/-- R73: RETURN ends the function body at once and makes its value the value of the call; the local variables end
with it (R26). Outside a function body it is refused. That `RETURN instruction;` runs and gives the name, which R96 lets be
compared and nothing else, is a DESIGN CHOICE (log entry 23). -/
def execRet (e : Expr) (s : State) : Host.Outcome State Fault Refusal :=
  match s.launch.body with
  | .algorithm => .refused .notInGrammar
  | .form => .refused .notInGrammar
  | .functionBody =>
    outcome do
      let (v, s) ← eval e s
      .ok (((s.setResult v).setLocals .none).setPc (.at .nil))

/-- R78: the value is evaluated completely and then written. -/
def execAssign (d : Dest) (e : Expr) (s : State) : Host.Outcome State Fault Refusal :=
  outcome do
    let (v, s) ← eval e s
    s.assign d v

end Sys2Proof.Machine
end

