-- ==== Sys2Proof/Machine/SystemFunctions.lean ====
section
/-! DEFINITION. I-O-Permission (R111) and Switch-Tasks (R113). -/

namespace Sys2Proof.Machine

/-- R111. -/
def execIoPermission (a w : Expr) (s : State) : Host.Outcome State Fault Refusal := evalForm (.ioPermission a w) s

/-- R113: "The document gives the name and nothing else". -/
def execSwitchTasks (s : State) : Host.Outcome State Fault Refusal := evalForm .switchTasks s

end Sys2Proof.Machine
end

