-- ==== Sys2Proof/Machine/Dispatch.lean ====
section
/-! DEFINITION. One arm per constructor of Instr. -/

namespace Sys2Proof.Machine

def exec (i : Instr) (s : State) : Host.Outcome State Fault Refusal :=
  match i with
  | .comment text => Sys2Proof.Machine.execComment text s
  | .ifThen cond thn els => Sys2Proof.Machine.execIfThen cond thn els s
  | .doLoop body => Sys2Proof.Machine.execDoLoop body s
  | .caseOf sel arms => Sys2Proof.Machine.execCaseOf sel arms s
  | .endRun => Sys2Proof.Machine.execEndRun s
  | .ret e => Sys2Proof.Machine.execRet e s
  | .assign d e => Sys2Proof.Machine.execAssign d e s
  | .reg r => Sys2Proof.Machine.execReg r s
  | .memReg r => Sys2Proof.Machine.execMemReg r s
  | .memSegReg g r => Sys2Proof.Machine.execMemSegReg g r s
  | .memOperand o => Sys2Proof.Machine.execMemOperand o s
  | .eq a b => Sys2Proof.Machine.execEq a b s
  | .ne a b => Sys2Proof.Machine.execNe a b s
  | .ge a b => Sys2Proof.Machine.execGe a b s
  | .le a b => Sys2Proof.Machine.execLe a b s
  | .mul a b => Sys2Proof.Machine.execMul a b s
  | .add a b => Sys2Proof.Machine.execAdd a b s
  | .sub a b => Sys2Proof.Machine.execSub a b s
  | .and a b => Sys2Proof.Machine.execAnd a b s
  | .shr a b => Sys2Proof.Machine.execShr a b s
  | .shl a b => Sys2Proof.Machine.execShl a b s
  | .div a b => Sys2Proof.Machine.execDiv a b s
  | .mod a b => Sys2Proof.Machine.execMod a b s
  | .operandSize => Sys2Proof.Machine.execOperandSize s
  | .addressSize => Sys2Proof.Machine.execAddressSize s
  | .stackAddrSize => Sys2Proof.Machine.execStackAddrSize s
  | .src => Sys2Proof.Machine.execSrc s
  | .dest => Sys2Proof.Machine.execDest s
  | .leftSrc => Sys2Proof.Machine.execLeftSrc s
  | .rightSrc => Sys2Proof.Machine.execRightSrc s
  | .instruction => Sys2Proof.Machine.execInstruction s
  | .eSP => Sys2Proof.Machine.execESP s
  | .cmpsw => Sys2Proof.Machine.execCmpsw s
  | .cmpsd => Sys2Proof.Machine.execCmpsd s
  | .truncate16 e => Sys2Proof.Machine.execTruncate16 e s
  | .addr a => Sys2Proof.Machine.execAddr a s
  | .zeroExtend e => Sys2Proof.Machine.execZeroExtend e s
  | .signExtend e => Sys2Proof.Machine.execSignExtend e s
  | .push e => Sys2Proof.Machine.execPush e s
  | .pop => Sys2Proof.Machine.execPop s
  | .popSt => Sys2Proof.Machine.execPopSt s
  | .bit base off => Sys2Proof.Machine.execBit base off s
  | .ioPermission a w => Sys2Proof.Machine.execIoPermission a w s
  | .switchTasks => Sys2Proof.Machine.execSwitchTasks s

end Sys2Proof.Machine
end

