-- ==== Sys2Proof/Machine/Fetch.lean ====
section
/-! DEFINITION. Reading the statements that remain. The text is an argument of the run, not memory (R52, decision D1):
it is read whole before the first statement runs, so that a refusal found by parsing is reported before any
statement runs (R119). -/

namespace Sys2Proof.Machine

/-- What was read, or the refusal that R115 names. -/
def readAs {α : Type} : Except DecodeError α → Except Stop α
  | .ok a => .ok a
  | .error e => refuse (refusalOf e)

/-- The statements of the run's text, where a RETURN may stand only in a function body (R73). -/
def Launch.read (l : Launch) : Except Stop Block :=
  match l.body with
  | .functionBody => readAs (decodeAlgorithm l.text)
  | .algorithm => do
    let b ← readAs (decodeAlgorithm l.text)
    if b.hasReturn then refuse .notInGrammar else .ok b
  | .form => do
    let i ← readAs (decodeForm l.text)
    .ok (.cons i .nil)

/-- The start of a run: the text is read, and then the inputs OperandSize and AddressSize are put in force, where they are
16 or 32 (R88, R89, V33). That the text is judged before the inputs is log entry 20. -/
def State.start (s : State) : Except Stop (Block × State) := do
  let b ← s.launch.read
  let o ← attrOfInt s.launch.operandSize
  let a ← attrOfInt s.launch.addressSize
  .ok (b, (s.setOperandSize o).setAddressSize a)

/-- The statements that remain at the statement position, and the state they run in (R28). -/
def State.remaining (s : State) : Except Stop (Block × State) :=
  match s.pc with
  | .start => s.start
  | .at rest => .ok (rest, s)

/-- The local variables of a function's body end where the body ends, with a RETURN or without one (R26, R73). -/
def State.leave (s : State) : State :=
  match s.launch.body with
  | .algorithm => s
  | .form => s
  | .functionBody => if s.pc = .at .nil then s.setLocals .none else s

/-- The outcome of a statement, with the local variables ended where it is the last of a function's body. -/
def leaveBody : Host.Outcome State Fault Refusal → Host.Outcome State Fault Refusal
  | .next s => .next s.leave
  | .fault f => .fault f
  | .refused r => .refused r

/-- How a text is to be run: as a form where it is one, and else as a function's body, where every statement may stand
(log entry 13). -/
def bodyKindOf (text : List Byte) : BodyKind :=
  match decodeForm text with
  | .ok _ => .form
  | .error _ => .functionBody

/-- The launch components with a text to be run. -/
def Launch.withText (l : Launch) (text : List Byte) : Launch := { l with text := text, body := bodyKindOf text }

/-- The state with a text to be run from its first statement. No local variable of another run is seen in it (R26). -/
def State.withText (s : State) (text : List Byte) : State :=
  { s with launch := s.launch.withText text, pc := .start, locals := .none }

end Sys2Proof.Machine
end

