-- ==== Sys2Proof/Machine/Sequence.lean ====
section
/-! DEFINITION. Sequencing (R68): what a step does with the statements that remain. -/

namespace Sys2Proof.Machine

/-- The statement position moves to the textually next statement (R28) and the statement runs. Where none remains the run
has ended (R130). -/
def runFirst (b : Block) (s : State) : Host.Outcome State Fault Refusal :=
  match b with
  | .nil => .fault .runEnded
  | .cons i rest => leaveBody (exec i (s.setPc (.at rest)))

end Sys2Proof.Machine
end

