-- ==== Sys2Proof/Machine/Step.lean ====
section
/-! DEFINITION. One step executes one statement (R68), the first one after the text is read and the inputs are put in
force. -/

namespace Sys2Proof.Machine

def step (s : State) : Host.Outcome State Fault Refusal :=
  match s.remaining with
  | .error x => outcome (.error x)
  | .ok (b, s) => runFirst b s

/-- The state whose next step reads and runs the instruction a table word spells (log entry 13). -/
def State.withFetchWord (s : State) (nbits w : Nat) : State := s.withText (wordText nbits w)

end Sys2Proof.Machine
end

