-- ==== Sys2Proof/Machine/SourceAlgorithms.lean ====
section
/-! DEFINITION. The algorithms the document itself gives for Push, Pop and I-O-Permission, as text (R102, R103, R111).
Running one as a function's body is what the built-in function of the same name is compared with. -/

namespace Sys2Proof.Machine

/-- The four arms of Push (R102). -/
def Source.pushText : List Byte :=
  ascii "IF StackAddrSize = 16 THEN IF OperandSize = 16 THEN " ++
  ascii "SP <- SP -2; SS:[SP] <- value; (* 2 bytes assigned starting at byte address in SP *) " ++
  ascii "ELSE (* OperandSize = 32 *) " ++
  ascii "SP <- SP -4; SS:[SP] <- value; (* 4 bytes assigned starting at byte address in SP *) FI; " ++
  ascii "ELSE (* StackAddrSize = 32 *) IF OperandSize = 16 THEN " ++
  ascii "ESP <- ESP -2; SS:[ESP] <- value; (* 2 bytes assigned starting at byte address in ESP*) " ++
  ascii "ELSE (* OperandSize = 32 *) " ++
  ascii "ESP <- ESP -4; SS:[ESP] <- value; (* 4 bytes assigned starting at byte address in ESP*) FI; FI;"

/-- The four arms of Pop (R103). -/
def Source.popText : List Byte :=
  ascii "IF StackAddrSize = 16 THEN IF OperandSize = 16 THEN " ++
  ascii "ret val <- SS:[SP]; (* 2-byte value *) SP <- SP + 2; " ++
  ascii "ELSE (* OperandSize = 32 *) ret val <- SS:[SP]; (* 4-byte value *) SP <- SP + 4; FI; " ++
  ascii "ELSE (* StackAddrSize = 32 *) IF OperandSize = 16 THEN " ++
  ascii "ret val <- SS:[ESP]; (* 2 byte value *) ESP <- ESP + 2; " ++
  ascii "ELSE (* OperandSize = 32 *) ret val <- SS:[ESP]; (* 4 byte value *) ESP <- ESP + 4; FI; FI; " ++
  ascii "RETURN(ret val); (*returns a word or doubleword*)"

/-- I-O-Permission (R111). -/
def Source.ioPermissionText : List Byte :=
  ascii "IF TSS type is 16-bit THEN RETURN FALSE; FI; " ++
  ascii "Ptr<- [TSS+66]; (* fetch bitmap pointer *) " ++
  ascii "BitStringAddr <- SHR (I-O-Address, 3) + Ptr; MaskShift <- I-O-Address AND 7; " ++
  ascii "CASE width OF: BYTE: nBitMask <- 1; WORD: nBitMask <- 3; DWORD: nBitMask <- 15; ESAC; " ++
  ascii "mask <- SHL (nBitMask, MaskShift); CheckString <- [BitStringAddr] AND mask; " ++
  ascii "IF CheckString = 0 THEN RETURN (TRUE); ELSE RETURN (FALSE); FI;"

end Sys2Proof.Machine
end

