-- ==== Sys2Proof/Safety.lean ====
section
/-! DEFINITION. What counts as a safe run, and the words in which claims about the machine are stated. -/

namespace Sys2Proof

open Machine

/-! ## Runs -/

/-- Every statement that remains is a term that the grammar derives. -/
def PositionWf (p : Position) : Prop :=
  match p with
  | .start => True
  | .at rest => rest.wf = true

/-- What every step keeps: memory has its canonical form, and the statements that remain are well-formed. -/
def Invariant (s : State) : Prop := s.mem.wf = true ∧ PositionWf s.pc

/-- The size attributes in force are the run's inputs, as they are when its first statement starts (R88, R89). -/
def Begun (s : State) : Prop :=
  s.launch.operandSize = s.operandSize.bits ∧ s.launch.addressSize = s.addressSize.bits

/-- `k` steps from `s` meet no fault and no refusal and reach `t`. -/
def RunsTo (k : Nat) (s t : State) : Prop := core.run k s = .next t

mutual

/-- The number of statements in an instruction, itself included. -/
def Instr.count : Instr → Nat
  | .ifThen _ t e => 1 + t.count + e.count
  | .doLoop b => 1 + b.count
  | .caseOf _ arms => 1 + arms.count
  | _ => 1

def Block.count : Block → Nat
  | .nil => 0
  | .cons i rest => i.count + rest.count

def Arms.count : Arms → Nat
  | .nil => 0
  | .cons _ b rest => b.count + rest.count

end

/-! ## Comments -/

mutual

/-- The instruction without the comments in its arms. -/
def Instr.strip : Instr → Instr
  | .ifThen c t e => .ifThen c t.strip e.strip
  | .doLoop b => .doLoop b.strip
  | .caseOf e arms => .caseOf e arms.strip
  | i => i

/-- The statements without the comments among and in them. -/
def Block.strip : Block → Block
  | .nil => .nil
  | .cons (.comment _) rest => rest.strip
  | .cons i rest => .cons i.strip rest.strip

def Arms.strip : Arms → Arms
  | .nil => .nil
  | .cons l b rest => .cons l b.strip rest.strip

end

/-! ## CASE -/

/-- `arms` has an arm with the label `l` and the statements `b`. -/
def Arms.Has (l : Label) (b : Block) : Arms → Prop
  | .nil => False
  | .cons l' b' rest => (l' = l ∧ b' = b) ∨ rest.Has l b

/-- The label equals the value of the selector (R72). -/
def Label.Equals (l : Label) (v : Value) : Prop :=
  match l with
  | .num n => v.int? = some (n : Int)
  | .truth b => v = .truth b
  | .ioWidth w => v = .ioWidth w

/-! ## Registers -/

/-- The name `n` stands for the register `r`: it is its name, or it is eSP and the B-bit selects `r` (R97). -/
def Names (s : State) (n : RegName) (r : Reg) : Prop :=
  n = .reg r ∨ (n = .eSP ∧ r = if s.launch.bBit = true then .esp else .sp)

/-! ## Values and bytes -/

/-- What a place of width `w` receives from `v` is `b`: `v` carries the width `w` and holds `b`, or `v` is unsized and
`b` is its value modulo 2^w (R10, R78). -/
def Fits (v : Value) (w : Nat) (b : BitVec w) : Prop :=
  (∃ signed, v = .sized w b signed) ∨ ∃ x, v = .unsized x ∧ b = BitVec.ofInt w x

/-- The value carries a width other than `w`. -/
def CarriesOtherWidth (v : Value) (m w : Nat) : Prop := m ≠ w ∧ ∃ b signed, v = .sized m b signed

/-- The value is a symbolic constant or an instruction name. -/
def Symbolic (v : Value) : Prop := v.int? = none

/-- What a local variable holds once the value `v` is assigned to it (R78): the integer without a width, or the symbolic
constant. -/
def LocalReceives (v r : Value) : Prop :=
  (∃ m b signed, v = .sized m b signed ∧ r = .unsized b.toNat) ∨
    ((∀ m b signed, v ≠ .sized m b signed) ∧ (∀ n, v ≠ .name n) ∧ r = v)

/-- The local variable `l` is given `r`, and nothing else changes. -/
def OnlyLocalChanged (s t : State) (l : LocalName) (r : Value) : Prop :=
  t.locals.get l = some r ∧ (∀ l', l' ≠ l → t.locals.get l' = s.locals.get l') ∧ t.setLocals s.locals = s

/-- The `n` bytes from `a` up hold `v`: the byte at `a + i` holds bits 8i+7..8i (R32, R34). -/
def HoldsBytes (m : Memory) (a n v : Nat) : Prop := ∀ i, i < n → m.read (a + i) = BitVec.ofNat 8 (v / 256 ^ i)

/-- Every byte outside the `n` bytes from `a` up reads the same in both memories. -/
def SameOutside (m m' : Memory) (a n : Nat) : Prop := ∀ k, k < a ∨ a + n ≤ k → m'.read k = m.read k

/-! ## Admission -/

/-- The bytes of a place lie in its offset range: none below 0, none past the top (R37, R38). -/
def Within (p : Place) : Prop := 0 ≤ p.off ∧ p.off + p.size.bytes ≤ 2 ^ p.offBits

/-- An entry of the launch state denies the access (R38). -/
def Denied (s : State) (p : Place) (kind : AccessKind) : Prop :=
  ∃ d ∈ s.launch.denied, d.seg = p.seg ∧ d.kind = kind ∧ d.size = p.size ∧ (d.first : Int) ≤ p.off ∧ p.off ≤ d.last

/-! ## Frames -/

/-- The two states agree on everything but ESP, memory, `pc` and `result`. -/
def SameRest (s t : State) : Prop :=
  t.launch = s.launch ∧ t.eax = s.eax ∧ t.si = s.si ∧ t.di = s.di ∧ t.operandSize = s.operandSize ∧
    t.addressSize = s.addressSize ∧ t.locals = s.locals

/-- The stack pointer that StackAddrSize selects has moved by `n`, modulo 2^16 or 2^32, and with a 16-bit stack bits
31..16 of ESP are kept (R102, R103). -/
def StackMoved (s t : State) (n : Int) : Prop :=
  match s.stackAddrSize with
  | .s16 => t.sp = s.sp + BitVec.ofInt 16 n ∧ t.esp.extractLsb' 16 16 = s.esp.extractLsb' 16 16
  | .s32 => t.esp = s.esp + BitVec.ofInt 32 n

/-- Whether the expression calls Pop, the one function of an expression that writes state (R103). -/
def Expr.callsPop : Expr → Bool
  | .pop => true
  | .bin _ a b => a.callsPop || b.callsPop
  | .truncate16 e => e.callsPop
  | .zeroExtend e => e.callsPop
  | .signExtend e => e.callsPop
  | .bitReg _ off => off.callsPop
  | .bitMem _ base off => base.callsPop || off.callsPop
  | .bitOperand _ off => off.callsPop
  | .ioPermission a w => a.callsPop || w.callsPop
  | _ => false

/-! ## The I/O permission bitmap -/

/-- The bitmap pointer, the word at `[TSS+66]` (R47, R111). -/
def bitmapPointer (s : State) : Nat := s.mem.readBytes (s.launch.tssBase + s.launch.iomapPtrOffset) 2

/-- IoPermBit(k): bit `k AND 7` of the byte at `Ptr + SHR(k, 3)` of the TSS (R47). -/
def ioPermBit (s : State) (k : Nat) : Bool :=
  (s.mem.read (s.launch.tssBase + (bitmapPointer s + k / 8))).getLsbD (k % 8)

/-- The number of I/O addresses that an access covers (R46). -/
def IoWidth.count : IoWidth → Nat
  | .byte => 1
  | .word => 2
  | .dword => 4

/-- The two reads of I-O-Permission for the I/O address `k` (R111, R129). -/
def pointerPlace (s : State) : Place := State.tssPlace s.launch.iomapPtrOffset .word

def bitmapPlace (s : State) (k : Nat) : Place := State.tssPlace ((bitmapPointer s + k / 8 : Nat) : Int) .word

end Sys2Proof
end

