-- ==== Sys2Proof/Certificates/Slice0/Obligations.lean ====
section
/-! DEFINITION. The statements about the machine, for the provers. -/

open Sys2Proof Sys2Proof.Machine

/-! ## The encoding -/

/-- R54: the source's bytes 11H, F2H and F3H and the canonical spellings are the same tokens, at the head of a text and in the
tokens of the whole text. -/
def Obligations.SourceBytesAndCanonicalSpellingsAreTheSameTokens : Prop :=
  ∀ rest : List Byte,
    lexToken (0x11 :: rest) = .ok (.assign, rest) ∧ lexToken (ascii "<-" ++ rest) = .ok (.assign, rest) ∧
    lexToken (0xF2 :: rest) = .ok (.ge, rest) ∧ lexToken (ascii ">=" ++ rest) = .ok (.ge, rest) ∧
    lexToken (0xF3 :: rest) = .ok (.le, rest) ∧ lexToken (ascii "<=" ++ rest) = .ok (.le, rest) ∧
    lexToken (ascii "<>" ++ rest) = .ok (.ne, rest) ∧ lexToken (ascii "=" ++ rest) = .ok (.eq, rest) ∧
    lex (0x11 :: rest) = (lex rest).map (List.cons .assign) ∧ lex (ascii "<-" ++ rest) = (lex rest).map (List.cons .assign) ∧
    lex (0xF2 :: rest) = (lex rest).map (List.cons .ge) ∧ lex (ascii ">=" ++ rest) = (lex rest).map (List.cons .ge) ∧
    lex (0xF3 :: rest) = (lex rest).map (List.cons .le) ∧ lex (ascii "<=" ++ rest) = (lex rest).map (List.cons .le) ∧
    lex (ascii "<>" ++ rest) = (lex rest).map (List.cons .ne) ∧ lex (ascii "=" ++ rest) = (lex rest).map (List.cons .eq)

/-- One text of each family, as the spec spells it, decodes to the instruction it stands for. That the form of an operand, an
operator, an identifier or a function, without a `;`, is a text of its own is the MODEL's choice (log entry 2). -/
def Obligations.SpelledTextsDecodeToTheirInstructions : Prop :=
  decode (ascii "SP <- SP -2;") = .ok (.assign (.reg .sp) (.bin .sub (.reg .sp) (.num 2))) ∧
  decode (ascii "ES:[DI] <- [SI];") = .ok (.assign (.memSegReg .es (.reg .di)) (.memReg .si)) ∧
  decode (ascii "SHR (I-O-Address, 3) + Ptr") =
    .ok (.add (.bin .shr (.loc .ioAddress) (.num 3)) (.loc .ptr)) ∧
  decode (ascii "instruction = CMPSW") = .ok (.eq .instruction .cmpsw) ∧
  decode (ascii "Truncate to 16 bits(12345678H)") = .ok (.truncate16 (.num 0x12345678)) ∧
  decode (ascii "Push(SignExtend([SI]));") = .ok (.push (.signExtend (.memReg .si))) ∧
  decode (ascii "BIT[EAX, 21]") = .ok (.bit (.reg (.reg .eax)) (.num 21)) ∧
  decode (ascii "I-O-Permission(03FDH, DWORD)") = .ok (.ioPermission (.num 0x3FD) (.ioWidth .dword)) ∧
  decode (ascii "IF CheckString = 0 THEN RETURN (TRUE); ELSE RETURN (FALSE); FI;") =
    .ok (.ifThen (.bin .eq (.loc .checkString) (.num 0)) (.cons (.ret (.truth true)) .nil)
      (.cons (.ret (.truth false)) .nil))

/-- R66, R115: fifteen sample texts that the grammar does not derive, or that name what has no meaning, are refused while they
are read, each by its name. They are samples: DO, Pop ST, Switch-Tasks and CMPSW are refused when they are reached and not
while they are read (log entry 12). The MODEL's readings among them are which texts count as machine code and which names as
flags (log entry 11), which forms are statements (log entry 2), that `[eSP]` is refused as a register without a default
segment, since eSP may stand where a register's name does (log entry 16), and that the 66 of `[TSS+66]` has no other spelling
(log entry 18). -/
def Obligations.SampleTextsAreRefusedByNameWhileRead : Prop :=
  decodeAlgorithm (ascii "[DI] <- 0;") = .error .noDefaultSegment ∧
  decodeAlgorithm (ascii "EBX <- 0;") = .error .unknownName ∧
  decodeAlgorithm (ascii "EAX <- CF;") = .error .flagName ∧
  decodeAlgorithm (ascii "Bit[EAX, 3] <- 1;") = .error .bitAsDestination ∧
  decodeAlgorithm (ascii "Pop(EAX);") = .error .notInGrammar ∧
  decodeAlgorithm (ascii "SP <- 2; EAX; END") = .error .notInGrammar ∧
  decodeAlgorithm (ascii "SP <- 2; SP + 2; END") = .error .notInGrammar ∧
  decodeAlgorithm (ascii "SP <- 2; Push(1)") = .error .notInGrammar ∧
  decodeAlgorithm (ascii "(SP) <- 2;") = .error .notInGrammar ∧
  decodeAlgorithm (ascii "Ptr <- [TSS+42H];") = .error .notInGrammar ∧
  decodeAlgorithm (ascii "Ptr <- [TSS+066];") = .error .notInGrammar ∧
  decodeAlgorithm (ascii "SP <- [eSP];") = .error .noDefaultSegment ∧
  decodeAlgorithm (ascii "SRC <- 0;") = .error .notInGrammar ∧
  decodeAlgorithm (ascii "CASE width OF: BYTE: END BYTE: END ESAC;") = .error .notInGrammar ∧
  decodeAlgorithm [0x66, 0xA7] = .error .machineCode

/-- Decoding the canonical spelling of any well-formed instruction gives the instruction back, with every operand. The
brackets it spells come from the MODEL's operator strengths (log entry 10). -/
def Obligations.WellFormedInstructionsDecodeBack : Prop :=
  ∀ i : Instr, WellFormed i → decode (encode i) = .ok i

/-- Whatever the decoder reads from a text passes the model's own check `wf`: of an algorithm the check `Block.wf`, of a form
the check `Instr.wf`. The check is the MODEL's own account of which terms the grammar of R66 derives: which forms are
statements, and that a form alone is a text, is log entry 2. -/
def Obligations.DecodedAlgorithmsAreWellFormed : Prop :=
  (∀ (text : List Byte) (b : Block), decodeAlgorithm text = .ok b → b.wf = true) ∧
  (∀ (text : List Byte) (i : Instr), decodeForm text = .ok i → i.wf = true)

/-! ## Steps and runs -/

/-- A step runs the statement at the statement position, with the position moved to the textually next one; when it runs the
first statement, the text has been read and the inputs OperandSize and AddressSize are put in force. A text that is refused
while it is read is refused before any statement runs, and so is an input other than 16 or 32 (R88, R89); where no statement
remains there is no step. After the last statement of a function's body its local variables have ended (R26). That the text
is judged before the inputs is log entry 20, that the place after the last statement is a fault of the step is log entry 1,
and a form as a text is log entries 2 and 13: the MODEL's choices. -/
def Obligations.StepRunsTheStatementAtThePosition : Prop :=
  (∀ (s : State) (i : Instr) (rest : Block) (o a : AttrSize), s.pc = .start →
    s.launch.operandSize = o.bits → s.launch.addressSize = a.bits →
    (decodeAlgorithm s.launch.text = .ok (.cons i rest) ∧ (s.launch.body = .functionBody ∨
        (s.launch.body = .algorithm ∧ (Block.cons i rest).hasReturn = false))) ∨
      (decodeForm s.launch.text = .ok i ∧ rest = .nil ∧ s.launch.body = .form) →
    step s = leaveBody (exec i (((s.setOperandSize o).setAddressSize a).setPc (.at rest)))) ∧
  (∀ (s : State) (i : Instr) (rest : Block), s.pc = .at (.cons i rest) →
    step s = leaveBody (exec i (s.setPc (.at rest)))) ∧
  (∀ s : State, (s.launch.body = .functionBody → s.pc = .at .nil → leaveBody (.next s) = .next (s.setLocals .none)) ∧
    (s.launch.body ≠ .functionBody ∨ s.pc ≠ .at .nil → leaveBody (.next s) = .next s)) ∧
  (∀ (s : State) (e : DecodeError), s.pc = .start → s.launch.body ≠ .form → decodeAlgorithm s.launch.text = .error e →
    step s = .refused (refusalOf e)) ∧
  (∀ (s : State) (e : DecodeError), s.pc = .start → s.launch.body = .form → decodeForm s.launch.text = .error e →
    step s = .refused (refusalOf e)) ∧
  (∀ (s : State) (b : Block), s.pc = .start → s.launch.read = .ok b →
    (s.launch.operandSize ≠ 16 ∧ s.launch.operandSize ≠ 32) ∨ (s.launch.addressSize ≠ 16 ∧ s.launch.addressSize ≠ 32) →
    step s = .refused .badAttribute) ∧
  (∀ (s : State) (o a : AttrSize), s.pc = .start → s.launch.read = .ok .nil → s.launch.operandSize = o.bits →
    s.launch.addressSize = a.bits → step s = .fault .runEnded) ∧
  (∀ s : State, s.pc = .at .nil → step s = .fault .runEnded)

/-- Memory's canonical form, and the well-formedness of the statements that remain, are kept by every step. -/
def Obligations.StepKeepsTheInvariant : Prop :=
  ∀ s t : State, Invariant s → step s = .next t → Invariant t

/-- R29: after reset the statement position is the first statement; the invariant holds. -/
def Obligations.ResetMeetsTheInvariant : Prop :=
  Invariant State.reset ∧ State.reset.pc = .start

/-- No statement writes the algorithm's text, a segment base, the B-bit, TSS.base, TSS.type, an input, `instruction`, an
operand, or what `Admit` allows: they are the same after any number of steps, and so is AddressSize once the first statement
has started. -/
def Obligations.NoRunWritesTheLaunchComponents : Prop :=
  ∀ (k : Nat) (s t : State), RunsTo k s t →
    t.launch = s.launch ∧ (s.pc ≠ .start → t.addressSize = s.addressSize)

/-- R28: a simple statement advances the position to the textually next statement; IF and CASE move it into an arm, which
is followed by what follows FI or ESAC; RETURN and END stop the run. The position is the list of the statements that
remain (log entry 1). -/
def Obligations.EachStatementMovesThePositionAsItsFormSays : Prop :=
  ∀ (i : Instr) (s t : State) (rest : Block), s.pc = .at (.cons i rest) → step s = .next t →
    (∀ c a b, i = .ifThen c a b → t.pc = .at (a.append rest) ∨ t.pc = .at (b.append rest)) ∧
    (∀ e arms, i = .caseOf e arms → ∃ l b, arms.Has l b ∧ t.pc = .at (b.append rest)) ∧
    (i = .endRun → t.pc = .at .nil) ∧
    (∀ e, i = .ret e → t.pc = .at .nil) ∧
    ((∀ c a b, i ≠ .ifThen c a b) → (∀ e arms, i ≠ .caseOf e arms) → i ≠ .endRun → (∀ e, i ≠ .ret e) →
      t.pc = .at rest)

/-- A run makes no more steps than there are statements. A comment counts as a statement (log entry 3). -/
def Obligations.EveryRunEndsWithinItsStatements : Prop :=
  ∀ (s s' t : State) (b : Block), s.remaining = .ok (b, s') → ¬ RunsTo (b.count + 1) s t

/-- Only an assignment and Push write memory, and only an assignment writes EAX, SI, DI, OperandSize or, but for
RETURN, a local variable. No statement writes AddressSize. -/
def Obligations.OnlyAssignmentAndPushWriteMemory : Prop :=
  ∀ (i : Instr) (s t : State), exec i s = .next t → t.addressSize = s.addressSize ∧
    ((∀ d e, i ≠ .assign d e) →
      t.eax = s.eax ∧ t.si = s.si ∧ t.di = s.di ∧ t.operandSize = s.operandSize ∧
      ((∀ e, i ≠ .push e) → t.mem = s.mem) ∧ ((∀ e, i ≠ .ret e) → t.locals = s.locals))

/-! ## Statements -/

/-- R67, R55: a comment runs without effect; it closes at the first `*)`, and one without `*)` is no text of the grammar;
wherever one is put inside the canonical spelling of an instruction, where no statement can start, the text decodes to the
same instruction; and removing every comment among the statements leaves every run to the end as it is, where a statement is
left, and where none is left the run changes nothing but the local variables of a function's body, which end. That a comment
between statements takes a step of its own, which changes nothing, is the MODEL's choice (log entry 3). -/
def Obligations.CommentsHaveNoEffect : Prop :=
  (∀ (text : List Byte) (s : State), exec (.comment text) s = .next s) ∧
  (∀ text rest : List Byte, noCloser text = true →
    lexToken (ascii "(*" ++ text ++ ascii "*)" ++ rest) = .ok (.comment text, rest)) ∧
  (∀ text : List Byte, noCloser text = true → lexToken (ascii "(*" ++ text) = .error .notInGrammar) ∧
  (∀ (i : Instr) (text : List Byte) (before after : List Token), WellFormed i → noCloser text = true →
    i.tokens = before ++ after → statementStart before.dropLast.getLast? before.getLast? = false →
    decode (spell (before ++ .comment text :: after)) = .ok i) ∧
  (∀ (s t : State) (b : Block), s.pc = .at b → b.strip ≠ .nil → t.pc = .at .nil →
    ((∃ k, RunsTo k s t) ↔ ∃ k, RunsTo k (s.setPc (.at b.strip)) t)) ∧
  (∀ (s : State) (b : Block), s.pc = .at b → b.strip = .nil → b ≠ .nil →
    RunsTo b.count s (s.setPc (.at .nil)).leave)

/-- R70: IF evaluates its condition and goes on with the arm that it selects; nothing but the position changes beyond what
evaluating the condition changes. A condition that stops, stops the statement. That a condition that is no truth value is
refused when it is evaluated is log entry 12. -/
def Obligations.IfRunsTheSelectedArm : Prop :=
  ∀ (c : Expr) (thn els : Block) (s : State),
    (∀ (s' : State) (rest : Block), s'.pc = .at rest → eval c s = .ok (.truth true, s') →
      exec (.ifThen c thn els) s = .next (s'.setPc (.at (thn.append rest)))) ∧
    (∀ (s' : State) (rest : Block), s'.pc = .at rest → eval c s = .ok (.truth false, s') →
      exec (.ifThen c thn els) s = .next (s'.setPc (.at (els.append rest)))) ∧
    (∀ (v : Value) (s' : State), eval c s = .ok (v, s') → (∀ b, v ≠ .truth b) →
      exec (.ifThen c thn els) s = .refused .notInGrammar) ∧
    (∀ x : Stop, eval c s = .error x → exec (.ifThen c thn els) s = outcome (.error x))

/-- R72: CASE goes on with the arm whose label equals the selector, and stops where no label does. A selector that stops, stops
the statement. That the identifier `instruction` as the selector is refused when it is evaluated is log entry 12. -/
def Obligations.CaseRunsTheArmWithTheLabel : Prop :=
  ∀ (sel : Expr) (arms : Arms) (s : State),
    (∀ (s' : State) (v : Value) (l : Label) (b rest : Block), arms.wf = true → eval sel s = .ok (v, s') →
      arms.Has l b → l.Equals v → s'.pc = .at rest →
      exec (.caseOf sel arms) s = .next (s'.setPc (.at (b.append rest)))) ∧
    (∀ (s' : State) (v : Value), eval sel s = .ok (v, s') → (∀ l b, arms.Has l b → ¬ l.Equals v) →
      (∀ n, v ≠ .name n) → exec (.caseOf sel arms) s = .fault (.caseNoArm v)) ∧
    (∀ (s' : State) (n : InstrName), eval sel s = .ok (.name n, s') →
      exec (.caseOf sel arms) s = .refused .notInGrammar) ∧
    (∀ x : Stop, eval sel s = .error x → exec (.caseOf sel arms) s = outcome (.error x))

/-- R69: END ends the run of the whole algorithm and changes nothing else, but that the local variables of a function's body
end with it (R26); after it, or after the last statement, there is no step. The place after the last statement is log
entry 1. -/
def Obligations.EndEndsTheRun : Prop :=
  ∀ s : State, exec .endRun s = .next (s.setPc (.at .nil)) ∧ step (s.setPc (.at .nil)) = .fault .runEnded ∧
    (∀ rest : Block, s.pc = .at (.cons .endRun rest) → s.launch.body = .algorithm → step s = .next (s.setPc (.at .nil))) ∧
    (∀ rest : Block, s.pc = .at (.cons .endRun rest) → s.launch.body = .functionBody →
      step s = .next ((s.setPc (.at .nil)).setLocals .none))

/-- R73: in a function body RETURN ends the run, its value is the result and the local variables end; outside one it is
refused, when it is executed and when an algorithm's text that holds one is read. That the run of a function's body is a run
of the machine, with its value in `result`, is the MODEL's choice (log entries 2 and 23). -/
def Obligations.ReturnEndsTheFunctionBody : Prop :=
  (∀ (e : Expr) (s s' : State) (v : Value), s.launch.body = .functionBody → eval e s = .ok (v, s') →
    exec (.ret e) s = .next (((s'.setResult v).setLocals .none).setPc (.at .nil))) ∧
  (∀ (e : Expr) (s : State) (x : Stop), s.launch.body = .functionBody → eval e s = .error x →
    exec (.ret e) s = outcome (.error x)) ∧
  (∀ (e : Expr) (s : State), s.launch.body ≠ .functionBody → exec (.ret e) s = .refused .notInGrammar) ∧
  (∀ (s : State) (b : Block), s.pc = .start → s.launch.body = .algorithm → decodeAlgorithm s.launch.text = .ok b →
    b.hasReturn = true → step s = .refused .notInGrammar)

/-- R78, R15: assigning to a register writes the value of the register's width, or an unsized value modulo 2^w, and leaves
every register that shares no storage with it, memory and the rest as evaluating the value left them; a write to SP
keeps the high half of ESP. A value of another width is a WidthMismatch. That a truth value, a symbolic constant or an
instruction's name is refused when it is assigned is log entry 12. -/
def Obligations.AssignmentToARegister : Prop :=
  ∀ (r : Reg) (e : Expr) (s s' : State) (v : Value), eval e s = .ok (v, s') →
    (∀ b : BitVec (Reg.width r), Fits v (Reg.width r) b →
      ∃ t, exec (.assign (.reg r) e) s = .next t ∧ t.getReg r = b ∧
        (∀ r', Reg.disjoint r r' = true → t.getReg r' = s'.getReg r') ∧
        (r = .sp → t.esp.extractLsb' 16 16 = s'.esp.extractLsb' 16 16) ∧
        t.launch = s'.launch ∧ t.operandSize = s'.operandSize ∧ t.addressSize = s'.addressSize ∧ t.mem = s'.mem ∧
        t.locals = s'.locals ∧ t.pc = s'.pc ∧ t.result = s'.result) ∧
    (∀ m, CarriesOtherWidth v m (Reg.width r) →
      exec (.assign (.reg r) e) s = .fault (.widthMismatch (some m) (Reg.width r))) ∧
    (Symbolic v → exec (.assign (.reg r) e) s = .refused .notInGrammar)

/-- R97, R94: assigning to eSP is assigning to ESP or to SP, as the B-bit selects; assigning to DEST is assigning to the
register that DEST is, where it is one. That a DEST may be an immediate, of which R94 says nothing, and that assigning to it
is refused as NotInGrammar, is the MODEL's choice (log entry 20). -/
def Obligations.AssignmentToESPAndToARegisterDEST : Prop :=
  ∀ (e : Expr) (s : State),
    (s.launch.bBit = true → exec (.assign .eSP e) s = exec (.assign (.reg .esp) e) s) ∧
    (s.launch.bBit = false → exec (.assign .eSP e) s = exec (.assign (.reg .sp) e) s) ∧
    (∀ r, s.launch.dest.kind = .reg r → exec (.assign .dest e) s = exec (.assign (.reg r) e) s) ∧
    (∀ n c v s', s.launch.dest.kind = .imm n c → eval e s = .ok (v, s') →
      exec (.assign .dest e) s = .refused .notInGrammar)

/-- R10, R78: a local variable receives the integer without a width, whatever its sign, or the symbolic constant, and nothing else
changes. That a value with a width is kept as its bit pattern, that R78 is followed where R26 calls the integer non-negative,
and that an instruction's name is refused as NotInGrammar, is log entry 14. -/
def Obligations.AssignmentToALocalVariable : Prop :=
  ∀ (l : LocalName) (e : Expr) (s s' : State) (v : Value), eval e s = .ok (v, s') →
    (∀ r, LocalReceives v r → ∃ t, exec (.assign (.loc l) e) s = .next t ∧ OnlyLocalChanged s' t l r) ∧
    (∀ n, v = .name n → exec (.assign (.loc l) e) s = .refused .notInGrammar)

/-- R88: OperandSize receives 16 or 32, and any other integer is refused; nothing else changes. That what is no integer is
refused as NotInGrammar is log entry 12. -/
def Obligations.AssignmentToOperandSize : Prop :=
  ∀ (e : Expr) (s s' : State) (v : Value), eval e s = .ok (v, s') →
    (v.int? = some 16 → exec (.assign .operandSize e) s = .next (s'.setOperandSize .s16)) ∧
    (v.int? = some 32 → exec (.assign .operandSize e) s = .next (s'.setOperandSize .s32)) ∧
    (∀ x, v.int? = some x → x ≠ 16 → x ≠ 32 → exec (.assign .operandSize e) s = .refused .badAttribute) ∧
    (Symbolic v → exec (.assign .operandSize e) s = .refused .notInGrammar)

/-- R78, R40: assigning to a place in memory stores the value there, low-order byte at the lowest address, and changes no
other byte and nothing else; a value of another width is a WidthMismatch; an access that is not admitted has no step; and a
destination that cannot be reached stops the statement. R37, R38: an access is admitted exactly where its bytes lie in the
offset range of its segment and the launch state does not deny it; that what `Admit` denies is a list is log entry 7. That
a truth value, a symbolic constant or an instruction's name is refused when it is assigned is log entry 12. `[TSS+66]` and
`[BitStringAddr]` are words at offsets from TSS.base (R61, R111), the second at what the local variable holds; that they may
be assigned is log entry 18, and that their offsets lie in 0 to 2^32 - 1 is log entry 8. That the place is found before the kind
and the width of the value are judged is log entry 24. The last two are the MODEL's choices. -/
def Obligations.AssignmentToMemory : Prop :=
  (∀ (s : State) (p : Place) (kind : AccessKind), s.admits p kind = true ↔ Within p ∧ ¬ Denied s p kind) ∧
  (∀ (d : Dest) (e : Expr) (s s' : State) (v : Value), eval e s = .ok (v, s') →
    (∀ p : Place, s'.destPlace d = .ok (some p) →
      (∀ b : BitVec p.size.bits, Fits v p.size.bits b → s'.mem.wf = true → s'.admits p .write = true →
        ∃ t, exec (.assign d e) s = .next t ∧ HoldsBytes t.mem (s'.linear p) p.size.bytes b.toNat ∧
          SameOutside s'.mem t.mem (s'.linear p) p.size.bytes ∧ t.setMem s'.mem = s') ∧
      (∀ m, CarriesOtherWidth v m p.size.bits →
        exec (.assign d e) s = .fault (.widthMismatch (some m) p.size.bits)) ∧
      (∀ b : BitVec p.size.bits, Fits v p.size.bits b → s'.admits p .write = false →
        exec (.assign d e) s = .fault (.notAdmitted p.seg p.off p.size .write)) ∧
      (Symbolic v → exec (.assign d e) s = .refused .notInGrammar)) ∧
    (∀ x : Stop, s'.destPlace d = .error x → exec (.assign d e) s = outcome (.error x))) ∧
  (∀ s : State, s.destPlace .tssPointer = .ok (some (pointerPlace s)) ∧
    (∀ a : Int, s.locals.get .bitStringAddr = some (.unsized a) →
      s.destPlace .bitString = .ok (some { seg := .tss, offBits := 32, off := a, size := .word })) ∧
    (s.locals.get .bitStringAddr = none → s.destPlace .bitString = raise (.unwrittenRead .bitStringAddr)) ∧
    (∀ v, s.locals.get .bitStringAddr = some v → Symbolic v → s.destPlace .bitString = refuse .notInGrammar))

/-! ## Operand forms and identifiers -/

/-- R74, R15, R97: a register name, and eSP, read as the contents of the register, with its width; SP is the low half of
ESP. The value is in `result`, the MODEL's own field (log entry 2). -/
def Obligations.RegisterNamesReadAsTheirContents : Prop :=
  ∀ s : State,
    exec (.reg .eax) s = .next (s.setResult (.sized 32 s.eax false)) ∧
    exec (.reg .esp) s = .next (s.setResult (.sized 32 s.esp false)) ∧
    exec (.reg .sp) s = .next (s.setResult (.sized 16 (BitVec.ofNat 16 (s.esp.toNat % 65536)) false)) ∧
    exec (.reg .si) s = .next (s.setResult (.sized 16 s.si false)) ∧
    exec (.reg .di) s = .next (s.setResult (.sized 16 s.di false)) ∧
    (s.launch.bBit = true → exec .eSP s = .next (s.setResult (.sized 32 s.esp false))) ∧
    (s.launch.bBit = false →
      exec .eSP s = .next (s.setResult (.sized 16 (BitVec.ofNat 16 (s.esp.toNat % 65536)) false)))

/-- R75, R36: `[SI]` is the location at offset SI of DS or of the overriding segment, read and as a destination; any other
register without a segment is refused. That the offset has SI's own 16 bits, whatever AddressSize is, is the MODEL's choice (log
entry 9). The value is in `result`, the MODEL's own field (log entry 2). -/
def Obligations.BracketedSIIsInTheDefaultOrOverridingSegment : Prop :=
  ∀ (s : State) (p : Place),
    p = { seg := .reg (s.launch.segOverride.getD .ds), offBits := 16, off := s.si.toNat, size := s.launch.memRegSize } →
    (s.admits p .read = true → ∃ v : BitVec p.size.bits,
      exec (.memReg .si) s = .next (s.setResult (.sized p.size.bits v false)) ∧
        HoldsBytes s.mem (s.linear p) p.size.bytes v.toNat) ∧
    (s.admits p .read = false → exec (.memReg .si) s = .fault (.notAdmitted p.seg p.off p.size .read)) ∧
    s.destPlace (.memReg .si) = .ok (some p) ∧
    (∀ r, r ≠ .si → exec (.memReg r) s = .refused .noDefaultSegment)

/-- R76: `seg:[r]` is the location at the offset in `r` of the segment written, read and as a destination. The sizes are not
R76's: that the stack forms have OperandSize / 8 bytes wherever they stand is read from R42 and R75, and that any register,
and eSP, may stand between the brackets, each form with a size of its own as an input, and that an offset taken from SI, DI or
EAX has that register's own width, is the MODEL's choice (log entries 9 and 16). The value is in `result`, the MODEL's own field (log entry 2). -/
def Obligations.SegmentQualifiedBracketsAreInTheirSegment : Prop :=
  ∀ (g : SegReg) (n : RegName) (r : Reg) (s : State) (p : Place), Names s n r →
    p.seg = .reg g → p.offBits = Reg.width r → p.off = (s.getReg r).toNat →
    p.size = (if g = .ss ∧ (r = .sp ∨ r = .esp) then s.operandSize.size
      else (if g = .es then s.launch.esSizes else if g = .ds then s.launch.dsSizes else s.launch.ssSizes).get r) →
    (s.admits p .read = true → ∃ v : BitVec p.size.bits,
      exec (.memSegReg g n) s = .next (s.setResult (.sized p.size.bits v false)) ∧
        HoldsBytes s.mem (s.linear p) p.size.bytes v.toNat) ∧
    (s.admits p .read = false → exec (.memSegReg g n) s = .fault (.notAdmitted p.seg p.off p.size .read)) ∧
    s.destPlace (.memSegReg g n) = .ok (some p)

/-- R77: `[SRC]`: the operand holds an offset within a segment, and the form is the location at that offset; where the
operand is a register the form is that of R75, read and as a destination. Where the read of the stored offset is not admitted
the form has no step. The sizes and the segment are inputs, as R77 says. The MODEL's choices (log entry 9) are that an
immediate operand is refused, that the designated location lies in the offset range of the stored offset's width, and that
the operand's own address is cut to AddressSize. The value is in `result`, the MODEL's own field (log entry 2). -/
def Obligations.BracketedOperandsAreIndirect : Prop :=
  ∀ (o : OperandName) (s : State),
    (∀ (g : SegReg) (off : BitVec 32) (n : Size) (q p : Place) (a : BitVec q.size.bits),
      (s.operandOf o).kind = .mem g off n →
      q = { seg := .reg g, offBits := s.addressSize.bits, off := ((off.toNat % 2 ^ s.addressSize.bits : Nat) : Int),
            size := (s.operandOf o).storedSize } →
      s.admits q .read = true → HoldsBytes s.mem (s.linear q) q.size.bytes a.toNat →
      p = { seg := .reg (s.operandOf o).targetSeg, offBits := q.size.bits, off := a.toNat,
            size := (s.operandOf o).targetSize } →
      (s.admits p .read = true → ∃ v : BitVec p.size.bits,
        exec (.memOperand o) s = .next (s.setResult (.sized p.size.bits v false)) ∧
          HoldsBytes s.mem (s.linear p) p.size.bytes v.toNat) ∧
      (s.admits p .read = false → exec (.memOperand o) s = .fault (.notAdmitted p.seg p.off p.size .read)) ∧
      s.destPlace (.memOperand o) = .ok (some p)) ∧
    (∀ (g : SegReg) (off : BitVec 32) (n : Size) (q : Place), (s.operandOf o).kind = .mem g off n →
      q = { seg := .reg g, offBits := s.addressSize.bits, off := ((off.toNat % 2 ^ s.addressSize.bits : Nat) : Int),
            size := (s.operandOf o).storedSize } →
      s.admits q .read = false → exec (.memOperand o) s = .fault (.notAdmitted q.seg q.off q.size .read) ∧
        s.destPlace (.memOperand o) = raise (.notAdmitted q.seg q.off q.size .read)) ∧
    (∀ r, (s.operandOf o).kind = .reg r →
      exec (.memOperand o) s = exec (.memReg r) s ∧ s.destPlace (.memOperand o) = s.destPlace (.memReg r)) ∧
    (∀ n c, (s.operandOf o).kind = .imm n c →
      exec (.memOperand o) s = .refused .addrOfNonMemory ∧ s.destPlace (.memOperand o) = refuse .addrOfNonMemory)

/-- R93, R94, R95: an operand identifier reads as what the instruction's operand holds, with the operand's size: a
register, the bytes of a location, or an immediate value; a DEST that is a location is assigned there;
that DEST may be given as an immediate and read is the MODEL's choice (log entry 20), and that an address is cut to
AddressSize is log entry 9. The value is in `result`, the MODEL's own field (log entry 2). -/
def Obligations.OperandIdentifiersReadTheirOperand : Prop :=
  ∀ (s : State) (i : Instr) (o : Operand),
    (i = .src ∧ o = s.launch.src) ∨ (i = .dest ∧ o = s.launch.dest) ∨ (i = .leftSrc ∧ o = s.launch.leftSrc) ∨
      (i = .rightSrc ∧ o = s.launch.rightSrc) →
    (∀ r, o.kind = .reg r → exec i s = .next (s.setResult (.sized (Reg.width r) (s.getReg r) false))) ∧
    (∀ (n : Size) (c : BitVec 32), o.kind = .imm n c →
      exec i s = .next (s.setResult (.sized n.bits (BitVec.ofNat n.bits c.toNat) false))) ∧
    (∀ (g : SegReg) (off : BitVec 32) (n : Size) (p : Place), o.kind = .mem g off n →
      p = { seg := .reg g, offBits := s.addressSize.bits,
            off := ((off.toNat % 2 ^ s.addressSize.bits : Nat) : Int), size := n } →
      (s.admits p .read = true → ∃ v : BitVec p.size.bits,
        exec i s = .next (s.setResult (.sized p.size.bits v false)) ∧
          HoldsBytes s.mem (s.linear p) p.size.bytes v.toNat) ∧
      (s.admits p .read = false → exec i s = .fault (.notAdmitted p.seg p.off p.size .read)) ∧
      (i = .dest → s.destPlace .dest = .ok (some p)))

/-- R88, R89, R92, R96: OperandSize and AddressSize read as 16 or 32; StackAddrSize is 32 when the B-bit is 1, else 16;
`instruction` reads as the name of the instruction that runs. That the three sizes carry no width is the MODEL's choice (log
entry 25). The value is in `result`, the MODEL's own field (log entry
2). -/
def Obligations.AttributeIdentifiersReadTheAttributes : Prop :=
  ∀ s : State,
    exec .operandSize s = .next (s.setResult (.unsized (if s.operandSize = .s16 then 16 else 32))) ∧
    exec .addressSize s = .next (s.setResult (.unsized (if s.addressSize = .s16 then 16 else 32))) ∧
    exec .stackAddrSize s = .next (s.setResult (.unsized (if s.launch.bBit = true then 32 else 16))) ∧
    exec .instruction s = .next (s.setResult (.name s.launch.instruction))

/-- R90, R91, R96: `instruction = CMPSW` and `instruction = CMPSD` are TRUE exactly for the instruction named. The value
is in `result`, the MODEL's own field (log entry 2). -/
def Obligations.InstructionTestsCompareTheName : Prop :=
  ∀ s : State,
    exec (.eq .instruction .cmpsw) s = .next (s.setResult (.truth (decide (s.launch.instruction = .cmpsw)))) ∧
    exec (.eq .instruction .cmpsd) s = .next (s.setResult (.truth (decide (s.launch.instruction = .cmpsd))))

/-- R26: a local variable that has been assigned reads as what it holds, which has no width and is no instruction's name; before
that, reading it is an UnwrittenRead. -/
def Obligations.LocalVariablesReadAfterTheirAssignment : Prop :=
  ∀ (l : LocalName) (d : Dest) (s : State),
    (s.locals.get l = none → exec (.assign d (.loc l)) s = .fault (.unwrittenRead l)) ∧
    (∀ v, s.locals.get l = some v → eval (.loc l) s = .ok (v, s) ∧ LocalReceives v v)

/-! ## Operators -/

/-- R79 to R82: the relational operators compare integers, and their result is a truth value. That `>=` and `<=` of a symbolic
constant are refused is log entry 12. The value is in `result`, the MODEL's own field (log entry 2). -/
def Obligations.RelationalOperatorsCompareIntegers : Prop :=
  ∀ (a b : Expr) (s s1 s2 : State) (va vb : Value),
    eval a s = .ok (va, s1) → eval b s1 = .ok (vb, s2) →
    (∀ x y : Int, va.int? = some x → vb.int? = some y →
      exec (.eq a b) s = .next (s2.setResult (.truth (decide (x = y)))) ∧
      exec (.ne a b) s = .next (s2.setResult (.truth (decide (x ≠ y)))) ∧
      exec (.ge a b) s = .next (s2.setResult (.truth (decide (y ≤ x)))) ∧
      exec (.le a b) s = .next (s2.setResult (.truth (decide (x ≤ y))))) ∧
    (Symbolic va ∨ Symbolic vb →
      exec (.ge a b) s = .refused .notInGrammar ∧ exec (.le a b) s = .refused .notInGrammar)

/-- R79, R62: symbolic constants are equal or not by name; comparing one with an integer is refused, and so is comparing
an instruction name outside the test of R96. The value is in `result`, the MODEL's own field (log entry 2). -/
def Obligations.SymbolicConstantsCompareByName : Prop :=
  ∀ (a b : Expr) (s s1 s2 : State) (va vb : Value),
    nameTest .eq a b = none → eval a s = .ok (va, s1) → eval b s1 = .ok (vb, s2) →
    (Symbolic va → Symbolic vb → (∀ n, va ≠ .name n) → (∀ n, vb ≠ .name n) →
      exec (.eq a b) s = .next (s2.setResult (.truth (decide (va = vb)))) ∧
      exec (.ne a b) s = .next (s2.setResult (.truth (decide (va ≠ vb))))) ∧
    ((Symbolic va ∧ ¬ Symbolic vb) ∨ (¬ Symbolic va ∧ Symbolic vb) ∨ (∃ n, va = .name n) ∨ (∃ n, vb = .name n) →
      exec (.eq a b) s = .refused .notInGrammar ∧ exec (.ne a b) s = .refused .notInGrammar)

/-- R83, R84: the product, the sum and the difference are exact and carry no width. That they are refused where an operand is a
symbolic constant is log entry 12. The value is in `result`, the MODEL's own field (log entry 2). -/
def Obligations.ArithmeticIsExact : Prop :=
  ∀ (a b : Expr) (s s1 s2 : State) (va vb : Value),
    eval a s = .ok (va, s1) → eval b s1 = .ok (vb, s2) →
    (∀ x y : Int, va.int? = some x → vb.int? = some y →
      exec (.mul a b) s = .next (s2.setResult (.unsized (x * y))) ∧
      exec (.add a b) s = .next (s2.setResult (.unsized (x + y))) ∧
      exec (.sub a b) s = .next (s2.setResult (.unsized (x - y)))) ∧
    (Symbolic va ∨ Symbolic vb →
      exec (.mul a b) s = .refused .notInGrammar ∧ exec (.add a b) s = .refused .notInGrammar ∧
      exec (.sub a b) s = .refused .notInGrammar)

/-- R10, R81, R85, decision D30: a value with a width reads as an unsigned integer, unless it went through SignExtend, when it
reads as two's complement; as a BitOffset it reads as two's complement, a bit as 0 or 1; AND, SHR, SHL, a BitBase and an I/O
address take its bit pattern. A value without a width is its integer in all three, and a symbolic constant is refused. (Log
entries 12 and 15.) -/
def Obligations.ValuesReadAsIntegersOffsetsAndBitPatterns : Prop :=
  (∀ (w : Nat) (b : BitVec w) (signed : Bool),
    (Value.sized w b false).int? = some (b.toNat : Int) ∧
    (Value.sized w b true).int? = some (if 2 * b.toNat < 2 ^ w then (b.toNat : Int) else (b.toNat : Int) - 2 ^ w) ∧
    (w = 1 → (Value.sized w b signed).signedInt = .ok (b.toNat : Int)) ∧
    (w ≠ 1 → (Value.sized w b signed).signedInt =
      .ok (if 2 * b.toNat < 2 ^ w then (b.toNat : Int) else (b.toNat : Int) - 2 ^ w)) ∧
    (Value.sized w b signed).bitsInt = .ok (b.toNat : Int)) ∧
  (∀ x : Int, (Value.unsized x).int? = some x ∧ (Value.unsized x).signedInt = .ok x ∧ (Value.unsized x).bitsInt = .ok x) ∧
  (∀ v, Symbolic v → v.signedInt = refuse .notInGrammar ∧ v.bitsInt = refuse .notInGrammar)

/-- R85: AND of two non-negative integers has bit i set exactly when both have; a value with a width is its bit pattern,
aligned at bit 0. That it is refused where an operand is a symbolic constant is log entry 12. The value is in `result`, the
MODEL's own field (log entry 2). -/
def Obligations.AndIsBitwise : Prop :=
  ∀ (a b : Expr) (s s1 s2 : State) (va vb : Value),
    eval a s = .ok (va, s1) → eval b s1 = .ok (vb, s2) →
    (∀ x y : Nat, va.bitsInt = .ok (x : Int) → vb.bitsInt = .ok (y : Int) →
      ∃ z : Nat, exec (.and a b) s = .next (s2.setResult (.unsized (z : Int))) ∧
        ∀ i, z.testBit i = (x.testBit i && y.testBit i)) ∧
    (Symbolic va ∨ Symbolic vb → exec (.and a b) s = .refused .notInGrammar)

/-- Where an operand of AND is a negative integer R85 states no result: the instruction runs, nothing but its result is open,
and the result is some integer. The MODEL's choice (log entry 6: a free value). -/
def Obligations.AndOfANegativeIntegerRuns : Prop :=
  ∀ (a b : Expr) (s s1 s2 : State) (va vb : Value) (x y : Int),
    eval a s = .ok (va, s1) → eval b s1 = .ok (vb, s2) → va.bitsInt = .ok x → vb.bitsInt = .ok y → x < 0 ∨ y < 0 →
    ∃ z : Int, exec (.and a b) s = .next (s2.setResult (.unsized z))

/-- R86: SHR and SHL of a non-negative integer by a non-negative count; a negative operand is refused. That a value with a
width, a result of SignExtend that reads as negative among them, is shifted as its bit pattern is the MODEL's choice (log
entry 15), and that a symbolic constant is refused is log entry 12. The value is in `result`, the MODEL's own field (log
entry 2). -/
def Obligations.ShiftsDivideAndMultiplyByPowersOfTwo : Prop :=
  ∀ (a b : Expr) (s s1 s2 : State) (va vb : Value),
    eval a s = .ok (va, s1) → eval b s1 = .ok (vb, s2) →
    (∀ v c : Nat, va.bitsInt = .ok (v : Int) → vb.bitsInt = .ok (c : Int) →
      exec (.shr a b) s = .next (s2.setResult (.unsized ((v / 2 ^ c : Nat) : Int))) ∧
      exec (.shl a b) s = .next (s2.setResult (.unsized ((v * 2 ^ c : Nat) : Int)))) ∧
    (∀ v c : Int, va.bitsInt = .ok v → vb.bitsInt = .ok c → v < 0 ∨ c < 0 →
      exec (.shr a b) s = .refused .notInGrammar ∧ exec (.shl a b) s = .refused .notInGrammar) ∧
    (Symbolic va ∨ Symbolic vb →
      exec (.shr a b) s = .refused .notInGrammar ∧ exec (.shl a b) s = .refused .notInGrammar)

/-- R87: DIV rounds towards negative infinity and MOD is what is left, in 0..B-1 for a positive B; division by 0 is refused. -/
def Obligations.DivRoundsDownAndModIsNonNegative : Prop :=
  ∀ (a b : Expr) (s s1 s2 : State) (va vb : Value) (x y : Int),
    eval a s = .ok (va, s1) → eval b s1 = .ok (vb, s2) → va.int? = some x → vb.int? = some y →
    (y ≠ 0 → ∃ q m : Int, eval (.bin .div a b) s = .ok (.unsized q, s2) ∧
      eval (.bin .mod a b) s = .ok (.unsized m, s2) ∧ x = y * q + m ∧
      (0 < y → 0 ≤ m ∧ m < y) ∧ (y < 0 → y < m ∧ m ≤ 0)) ∧
    (y = 0 → eval (.bin .div a b) s = refuse .notInGrammar ∧ eval (.bin .mod a b) s = refuse .notInGrammar)

/-- R119: operands are evaluated first, from left to right, and the first that stops is the outcome: of an assignment, Push,
CASE, an operator, Bit (its base and its offset), I-O-Permission (its two arguments) and the size functions. That the kind of
the first operand is judged after the second is evaluated, so that a stop of the second is met first whatever the first is, is
the MODEL's choice (log entry 24). -/
def Obligations.OperandsStopTheStatement : Prop :=
  ∀ (a b : Expr) (s : State) (x : Stop),
    (eval a s = .error x →
      (∀ d, exec (.assign d a) s = outcome (.error x)) ∧ exec (.push a) s = outcome (.error x) ∧
      (∀ arms, exec (.caseOf a arms) s = outcome (.error x)) ∧
      exec (.truncate16 a) s = outcome (.error x) ∧ exec (.zeroExtend a) s = outcome (.error x) ∧
      exec (.signExtend a) s = outcome (.error x) ∧
      (∀ n, exec (.bit (.reg n) a) s = outcome (.error x)) ∧ (∀ o, exec (.bit (.operand o) a) s = outcome (.error x)) ∧
      (∀ g, exec (.bit (.mem g a) b) s = outcome (.error x)) ∧ exec (.ioPermission a b) s = outcome (.error x)) ∧
    (∀ va s1, eval a s = .ok (va, s1) → eval b s1 = .error x →
      (∀ g, exec (.bit (.mem g a) b) s = outcome (.error x)) ∧ exec (.ioPermission a b) s = outcome (.error x)) ∧
    (∀ (op : BinOp) (i : Instr), nameTest op a b = none → (Expr.bin op a b).toInstr = some i →
      (eval a s = .error x → exec i s = outcome (.error x)) ∧
      (∀ va s1, eval a s = .ok (va, s1) → eval b s1 = .error x → exec i s = outcome (.error x)))

/-! ## Size and address functions -/

/-- R98: Truncate to 16 bits keeps the value modulo 2^16, with the width 16, and reads and writes no state. (Whether a result
of SignExtend keeps its mark is left open here: log entry 15.) -/
def Obligations.TruncateKeepsTheValueModulo65536 : Prop :=
  ∀ (e : Expr) (s s' : State) (v : Value), eval e s = .ok (v, s') →
    (∀ m (b : BitVec m), v = .sized m b false →
      eval (.truncate16 e) s = .ok (.sized 16 (BitVec.ofNat 16 (b.toNat % 65536)) false, s')) ∧
    (∀ m (b : BitVec m), v = .sized m b true → ∃ signed,
      eval (.truncate16 e) s = .ok (.sized 16 (BitVec.ofNat 16 (b.toNat % 65536)) signed, s')) ∧
    (∀ x : Int, v = .unsized x →
      eval (.truncate16 e) s = .ok (.sized 16 (BitVec.ofNat 16 (x % 65536).toNat) false, s'))

/-- DIV, MOD and Truncate to 16 bits, standing on their own, run on every integer, but for a divisor of 0, and leave their
value in `result`; MOD's value has the divisor's sign or is 0, and a divisor of 0 stops the step. That DIV, MOD and
Truncate of a symbolic constant are refused is log entry 12, and that Truncate of a result of SignExtend reads unsigned is
log entry 15. The value is in `result`, the MODEL's own field (log entry 2). -/
def Obligations.DivModAndTruncateStandOnTheirOwn : Prop :=
  (∀ (a b : Expr) (s s1 s2 : State) (va vb : Value),
    eval a s = .ok (va, s1) → eval b s1 = .ok (vb, s2) →
    (∀ x y : Int, va.int? = some x → vb.int? = some y →
      (y ≠ 0 → ∃ q m : Int, exec (.div a b) s = .next (s2.setResult (.unsized q)) ∧
        exec (.mod a b) s = .next (s2.setResult (.unsized m)) ∧ x = y * q + m ∧
        (0 < y → 0 ≤ m ∧ m < y) ∧ (y < 0 → y < m ∧ m ≤ 0)) ∧
      (y = 0 → exec (.div a b) s = .refused .notInGrammar ∧ exec (.mod a b) s = .refused .notInGrammar)) ∧
    (Symbolic va ∨ Symbolic vb →
      exec (.div a b) s = .refused .notInGrammar ∧ exec (.mod a b) s = .refused .notInGrammar)) ∧
  (∀ (e : Expr) (s s' : State) (v : Value), eval e s = .ok (v, s') →
    (∀ x, v.bitsInt = .ok x → exec (.truncate16 e) s = .next (s'.setResult (.sized 16 (BitVec.ofInt 16 x) false))) ∧
    (Symbolic v → exec (.truncate16 e) s = .refused .notInGrammar))

/-- R100: ZeroExtend keeps the value and carries the width OperandSize; a wider value, and one without a width, is a
WidthMismatch. That a symbolic constant is refused is log entry 12, that the result of a SignExtend comes out reading
unsigned log entry 15, and that a bit of width 1 is extended log entry 19. The value is in `result`, the MODEL's own field
(log entry 2). -/
def Obligations.ZeroExtendKeepsTheUnsignedValue : Prop :=
  ∀ (e : Expr) (s s' : State) (v : Value), eval e s = .ok (v, s') →
    (∀ m (b : BitVec m) signed, v = .sized m b signed → m ≤ s'.operandSize.bits →
      exec (.zeroExtend e) s =
        .next (s'.setResult (.sized s'.operandSize.bits (BitVec.ofNat s'.operandSize.bits b.toNat) false))) ∧
    (∀ m (b : BitVec m) signed, v = .sized m b signed → s'.operandSize.bits < m →
      exec (.zeroExtend e) s = .fault (.widthMismatch (some m) s'.operandSize.bits)) ∧
    (∀ x, v = .unsized x → exec (.zeroExtend e) s = .fault (.widthMismatch none s'.operandSize.bits)) ∧
    (Symbolic v → exec (.zeroExtend e) s = .refused .notInGrammar)

/-- R101: SignExtend carries the width OperandSize, its low bits are the operand's and every further bit is the operand's
top bit; a wider value, and one without a width, is a WidthMismatch. That a symbolic constant is refused is log entry 12, and
that a bit of width 1 is extended log entry 19. The value is in `result`, the MODEL's own field (log entry 2). -/
def Obligations.SignExtendCopiesTheTopBit : Prop :=
  ∀ (e : Expr) (s s' : State) (v : Value), eval e s = .ok (v, s') →
    (∀ m (b : BitVec m) signed, v = .sized m b signed → m ≤ s'.operandSize.bits →
      ∃ c : BitVec s'.operandSize.bits, exec (.signExtend e) s = .next (s'.setResult (.sized s'.operandSize.bits c true)) ∧
        (∀ i, i < m → c.getLsbD i = b.getLsbD i) ∧
        (∀ i, m ≤ i → i < s'.operandSize.bits → c.getLsbD i = b.getLsbD (m - 1))) ∧
    (∀ m (b : BitVec m) signed, v = .sized m b signed → s'.operandSize.bits < m →
      exec (.signExtend e) s = .fault (.widthMismatch (some m) s'.operandSize.bits)) ∧
    (∀ x, v = .unsized x → exec (.signExtend e) s = .fault (.widthMismatch none s'.operandSize.bits)) ∧
    (Symbolic v → exec (.signExtend e) s = .refused .notInGrammar)

/-- R99: Addr gives the effective address of a memory operand, of AddressSize bits, without reading memory; of anything
else it is refused. That Addr of a register or a numeral is refused when it is reached, and not while the text is read, is
log entry 12, and that an address wider than AddressSize is cut to it is log entry 9: the MODEL's choices. The value is in
`result`, the MODEL's own field (log entry 2). -/
def Obligations.AddrIsTheEffectiveAddress : Prop :=
  ∀ (o : OperandName) (s : State),
    (∀ g off n, (s.operandOf o).kind = .mem g off n →
      exec (.addr (.operand o)) s = .next (s.setResult
        (.sized s.addressSize.bits (BitVec.ofNat s.addressSize.bits off.toNat) false))) ∧
    (∀ r, (s.operandOf o).kind = .reg r → exec (.addr (.operand o)) s = .refused .addrOfNonMemory) ∧
    (∀ n c, (s.operandOf o).kind = .imm n c → exec (.addr (.operand o)) s = .refused .addrOfNonMemory) ∧
    (∀ r, exec (.addr (.reg r)) s = .refused .addrOfNonMemory) ∧
    (∀ n, exec (.addr (.num n)) s = .refused .addrOfNonMemory)

/-! ## Stack functions -/

/-- R102: Push lowers the stack pointer by OperandSize / 8 and stores the value at the new one in SS, low-order byte first; no
other byte and nothing else changes. A value of another width is a WidthMismatch; a store that passes the top of the
offset range, or that the launch state denies, has no step. That a symbolic constant is refused is log entry 12. -/
def Obligations.PushStoresBelowTheStackPointer : Prop :=
  ∀ (e : Expr) (s s' s1 : State) (v : Value) (p : Place), eval e s = .ok (v, s') →
    s1 = s'.moveStack (-(s'.operandSize.size.bytes : Int)) → p = s1.stackTop →
    (p.seg = .reg .ss ∧ p.size = s'.operandSize.size ∧
      (s'.launch.bBit = true → p.off = s1.esp.toNat ∧ p.offBits = 32) ∧
      (s'.launch.bBit = false → p.off = s1.sp.toNat ∧ p.offBits = 16)) ∧
    (∀ b : BitVec s'.operandSize.bits, Fits v s'.operandSize.bits b → s'.mem.wf = true → Within p →
      ¬ Denied s1 p .write →
      ∃ t, exec (.push e) s = .next t ∧ HoldsBytes t.mem (s1.linear p) (s'.operandSize.bits / 8) b.toNat ∧
        SameOutside s'.mem t.mem (s1.linear p) (s'.operandSize.bits / 8) ∧
        StackMoved s' t (-(s'.operandSize.bits / 8 : Nat)) ∧ SameRest s' t ∧ t.pc = s'.pc ∧ t.result = s'.result) ∧
    (∀ m, CarriesOtherWidth v m s'.operandSize.bits →
      exec (.push e) s = .fault (.widthMismatch (some m) s'.operandSize.bits)) ∧
    (∀ b : BitVec s'.operandSize.bits, Fits v s'.operandSize.bits b → ¬ Within p ∨ Denied s1 p .write →
      exec (.push e) s = .fault (.notAdmitted p.seg p.off p.size .write)) ∧
    (Symbolic v → exec (.push e) s = .refused .notInGrammar)

/-- R103: Pop gives the word or doubleword at the stack pointer, with the width OperandSize, and then raises the stack
pointer by OperandSize / 8; memory and everything else are unchanged. A load that passes the top of the offset range, or
that the launch state denies, has no step. The value is in `result`, the MODEL's own field (log entry 2). -/
def Obligations.PopTakesTheTopOfTheStack : Prop :=
  ∀ (s : State) (p : Place), p = s.stackTop →
    (p.seg = .reg .ss ∧ p.size = s.operandSize.size ∧ (s.launch.bBit = true → p.off = s.esp.toNat ∧ p.offBits = 32) ∧
      (s.launch.bBit = false → p.off = s.sp.toNat ∧ p.offBits = 16)) ∧
    (Within p → ¬ Denied s p .read → ∃ (t : State) (v : BitVec s.operandSize.bits), exec .pop s = .next t ∧
      t.result = some (.sized s.operandSize.bits v false) ∧
      HoldsBytes s.mem (s.linear p) (s.operandSize.bits / 8) v.toNat ∧
      StackMoved s t ((s.operandSize.bits / 8 : Nat) : Int) ∧ t.mem = s.mem ∧ SameRest s t ∧ t.pc = s.pc) ∧
    (¬ Within p ∨ Denied s p .read → exec .pop s = .fault (.notAdmitted p.seg p.off p.size .read))

/-- R104: with OperandSize = 32, `EAX <- Pop( );` gives EAX the doubleword at the top of the stack; with OperandSize = 16 it is
`WidthMismatch(16, 32)`. -/
def Obligations.EaxReceivesThePoppedDoubleword : Prop :=
  ∀ (s : State) (p : Place), p = s.stackTop →
    (s.operandSize = .s32 → s.admits p .read = true → ∃ t, exec (.assign (.reg .eax) .pop) s = .next t ∧
      HoldsBytes s.mem (s.linear p) 4 t.eax.toNat ∧ StackMoved s t 4 ∧ t.mem = s.mem ∧ t.launch = s.launch ∧
      t.si = s.si ∧ t.di = s.di ∧ t.operandSize = s.operandSize ∧ t.addressSize = s.addressSize ∧
      t.locals = s.locals ∧ t.pc = s.pc ∧ t.result = s.result) ∧
    (s.operandSize = .s16 → s.admits p .read = true →
      exec (.assign (.reg .eax) .pop) s = .fault (.widthMismatch (some 16) 32)) ∧
    (s.admits p .read = false → exec (.assign (.reg .eax) .pop) s = .fault (.notAdmitted p.seg p.off p.size .read))

/-- R106: Pop after Push, with any OperandSize between them. With the same one Pop gives the value pushed and the stack
pointer is where it was; with a doubleword pushed and a word popped it gives the low-order word; with a word pushed and a
doubleword popped it gives the word below the two bytes that lay at the original stack pointer. The value is in `result`,
the MODEL's own field (log entry 2). -/
def Obligations.PopAfterPushGivesThePushedValue : Prop :=
  ∀ (e : Expr) (s s' s1 s2 : State) (v : Value) (b : BitVec s'.operandSize.bits) (a : AttrSize),
    s.mem.wf = true → eval e s = .ok (v, s') → Fits v s'.operandSize.bits b → exec (.push e) s = .next s1 →
    s2 = s1.setOperandSize a → s2.admits s2.stackTop .read = true →
    ∃ t, exec .pop s2 = .next t ∧
      StackMoved s' t ((a.bits / 8 : Nat) - (s'.operandSize.bits / 8 : Nat) : Int) ∧
      SameOutside s'.mem t.mem (s1.linear s1.stackTop) (s'.operandSize.bits / 8) ∧
      (a = s'.operandSize → t.esp = s'.esp ∧ t.result = some (.sized a.bits (BitVec.ofNat a.bits b.toNat) false)) ∧
      (a = .s16 → s'.operandSize = .s32 → t.result = some (.sized 16 (BitVec.ofNat 16 (b.toNat % 65536)) false)) ∧
      (a = .s32 → s'.operandSize = .s16 → ∃ h : BitVec 16,
        HoldsBytes s'.mem (s'.linear s'.stackTop) 2 h.toNat ∧
        t.result = some (.sized 32 (BitVec.ofNat 32 (b.toNat + 65536 * h.toNat)) false))

/-! ## Bit -/

/-- R108: the bit of weight 2^n of a register, with the width 1; an offset outside 0..31, or not below the register's
width, is a BitOffsetRange. The MODEL's choices are that the register is read after the offset is evaluated, so after a Pop in
it (log entry 24), how an offset that carries a width reads (log entry 15), that eSP may name the register (log entry 16), and
that an offset that is no integer is refused (log entry 12). The value is in `result`, the MODEL's own field (log entry 2). -/
def Obligations.BitOfARegister : Prop :=
  ∀ (n : RegName) (r : Reg) (off : Expr) (s s' : State) (v : Value), eval off s = .ok (v, s') → Names s' n r →
    (∀ k : Int, v.signedInt = .ok k →
      (0 ≤ k → k < Reg.width r → exec (.bit (.reg n) off) s =
        .next (s'.setResult (.sized 1 (BitVec.ofNat 1 ((s'.getReg r).toNat / 2 ^ k.toNat)) false))) ∧
      (k < 0 ∨ Reg.width r ≤ k → exec (.bit (.reg n) off) s = .fault (.bitOffsetRange k))) ∧
    (Symbolic v → exec (.bit (.reg n) off) s = .refused .notInGrammar)

/-- R109, R110: the bit numbered k MOD 8 of the byte at base + (k DIV 8), for a BitOffset of -2^31..2^31-1; outside, a
BitOffsetRange; a byte that is not admitted has no step. The sum is over the integers and is not wrapped (decision D24);
that a value with a width is its bit pattern there, and how an offset that carries a width reads, is log entry 15, and that a
base or an offset that is no integer is refused is log entry 12. The value is in `result`, the MODEL's own field (log entry 2). -/
def Obligations.BitOfMemory : Prop :=
  ∀ (g : SegReg) (base off : Expr) (s s1 s2 : State) (vb vk : Value),
    eval base s = .ok (vb, s1) → eval off s1 = .ok (vk, s2) →
    (∀ (x k : Int) (p : Place), vb.bitsInt = .ok x → vk.signedInt = .ok k →
      p = { seg := .reg g, offBits := s2.addressSize.bits, off := x + k / 8, size := .byte } →
      (-2147483648 ≤ k → k ≤ 2147483647 → s2.admits p .read = true → exec (.bit (.mem g base) off) s =
        .next (s2.setResult (.sized 1 (BitVec.ofNat 1
          ((s2.mem.read (s2.segBase (.reg g) + (x + k / 8).toNat)).toNat / 2 ^ (k % 8).toNat))
          false))) ∧
      (-2147483648 ≤ k → k ≤ 2147483647 → s2.admits p .read = false →
        exec (.bit (.mem g base) off) s = .fault (.notAdmitted p.seg p.off p.size .read)) ∧
      (k < -2147483648 ∨ 2147483647 < k → exec (.bit (.mem g base) off) s = .fault (.bitOffsetRange k))) ∧
    (Symbolic vb ∨ Symbolic vk → exec (.bit (.mem g base) off) s = .refused .notInGrammar)

/-- R107: Bit of an operand of the instruction is the register form where the operand is a register, and the memory form at its
effective address where it is a location. The MODEL's choices are that an effective address wider than AddressSize is cut to it
(log entry 9), and that Bit of an immediate operand is refused as NotInGrammar (log entry 19). -/
def Obligations.BitOfAnOperandHasTheFormOfItsKind : Prop :=
  ∀ (o : OperandName) (off : Expr) (s : State),
    (∀ r, (s.operandOf o).kind = .reg r → exec (.bit (.operand o) off) s = exec (.bit (.reg (.reg r)) off) s) ∧
    (∀ g a n, (s.operandOf o).kind = .mem g a n →
      exec (.bit (.operand o) off) s =
        exec (.bit (.mem g (.num ((a.toNat % 2 ^ s.addressSize.bits : Nat) : Int))) off) s) ∧
    (∀ n c v s', (s.operandOf o).kind = .imm n c → eval off s = .ok (v, s') →
      exec (.bit (.operand o) off) s = .refused .notInGrammar)

/-- R109: the memory form agrees with the register form on a register image stored in memory: bit n of the word or
doubleword stored at BitBase is `Bit[BitBase, n]`. The value is in `result`, the MODEL's own field (log entry 2). -/
def Obligations.BitOfMemoryAgreesWithTheStoredImage : Prop :=
  ∀ (g : SegReg) (base : Nat) (s : State) (size : Size) (v : BitVec size.bits) (n : Nat),
    s.memRead { seg := .reg g, offBits := s.addressSize.bits, off := base, size := size } = .ok v →
    n < size.bits → s.admits (s.bitPlace g base n) .read = true →
    exec (.bit (.mem g (.num base)) (.num n)) s = .next (s.setResult (.sized 1 (BitVec.ofBool (v.getLsbD n)) false))

/-! ## I-O-Permission and the refused forms -/

/-- R112: I-O-Permission is TRUE exactly when the TSS is not a 16-bit one and the permission bit of every I/O address of
the access is 0; for a TSS that is not 16-bit both reads must be admitted. The value is in `result`, the MODEL's own field
(log entry 2). -/
def Obligations.IoPermissionTestsEveryCoveredAddress : Prop :=
  ∀ (a w : Expr) (s s1 s2 : State) (va : Value) (k : Nat) (width : IoWidth),
    eval a s = .ok (va, s1) → eval w s1 = .ok (.ioWidth width, s2) → va.bitsInt = .ok (k : Int) →
    (s2.launch.tssType = .other →
      s2.admits (pointerPlace s2) .read = true ∧ s2.admits (bitmapPlace s2 k) .read = true) →
    exec (.ioPermission a w) s = .next (s2.setResult (.truth
      (decide (s2.launch.tssType ≠ .t16 ∧ ∀ i, i < width.count → ioPermBit s2 (k + i) = false))))

/-- R111: with a 16-bit TSS the function is FALSE whatever memory admits; with another one it has no step where one of its
two reads is not admitted, and a width that is none of BYTE, WORD and DWORD is a CaseNoArm. R86: SHR refuses an I/O address
that is a negative integer or no integer, after the pointer has been read (log entries 12 and 18). That with a 16-bit TSS the
arguments may be of any kind, `instruction` among them, is the MODEL's choice (log entry 18). The value is in `result`, the
MODEL's own field (log entry 2). -/
def Obligations.IoPermissionOfA16BitTssAndItsStops : Prop :=
  ∀ (a w : Expr) (s s1 s2 : State) (va vw : Value),
    eval a s = .ok (va, s1) → eval w s1 = .ok (vw, s2) →
    (s2.launch.tssType = .t16 → exec (.ioPermission a w) s = .next (s2.setResult (.truth false))) ∧
    (s2.launch.tssType = .other → s2.admits (pointerPlace s2) .read = false →
      exec (.ioPermission a w) s = .fault (.notAdmitted .tss s2.launch.iomapPtrOffset .word .read)) ∧
    (s2.launch.tssType = .other → s2.admits (pointerPlace s2) .read = true →
      (Symbolic va ∨ (∃ k : Int, va.bitsInt = .ok k ∧ k < 0) → exec (.ioPermission a w) s = .refused .notInGrammar) ∧
      (∀ k : Nat, va.bitsInt = .ok (k : Int) →
        ((∀ x, vw ≠ .ioWidth x) → exec (.ioPermission a w) s = .fault (.caseNoArm vw)) ∧
        (∀ x, vw = .ioWidth x → s2.admits (bitmapPlace s2 k) .read = false →
          exec (.ioPermission a w) s =
            .fault (.notAdmitted .tss ((bitmapPointer s2 + k / 8 : Nat) : Int) .word .read))))

/-- R71, R90, R91, R105, R113: the forms to which the document gives no meaning are refused, each by its name. -/
def Obligations.FormsWithoutMeaningAreRefused : Prop :=
  ∀ s : State,
    (∀ b, exec (.doLoop b) s = .refused .doStatement) ∧
    exec .cmpsw s = .refused .instructionPageMissing ∧ exec .cmpsd s = .refused .instructionPageMissing ∧
    exec .popSt s = .refused .fpuNotInSource ∧ exec .switchTasks s = .refused .switchTasks

/-! ## Frames of evaluation -/

/-- Evaluating an expression writes at most the stack pointer, only where the expression calls Pop, and with a 16-bit stack only
SP. -/
def Obligations.EvaluationMovesAtMostTheStackPointer : Prop :=
  ∀ (e : Expr) (s t : State) (v : Value), eval e s = .ok (v, t) →
    t.setEsp s.esp = s ∧ (e.callsPop = false → t = s) ∧
    (s.launch.bBit = false → t.esp.extractLsb' 16 16 = s.esp.extractLsb' 16 16)

/-- A form that stands on its own is evaluated and its value kept in `result`; where evaluating it stops, the step stops so.
Beside `result` it changes the stack pointer, where it calls Pop, and nothing else: every byte of memory, register, variable
and attribute is as before. That such a form is an instruction, and where its value stands, is the MODEL's choice (log
entry 2). -/
def Obligations.FormsKeepTheirValueInResult : Prop :=
  ∀ (i : Instr) (e : Expr) (s : State), i.toExpr = some e →
    (∀ (v : Value) (t : State), eval e s = .ok (v, t) → exec i s = .next (t.setResult v)) ∧
    (∀ x : Stop, eval e s = .error x → exec i s = outcome (.error x)) ∧
    (∀ t : State, exec i s = .next t → SameRest s t ∧ t.mem = s.mem ∧ t.pc = s.pc ∧ (e.callsPop = false → t.esp = s.esp) ∧
      (s.launch.bBit = false → t.esp.extractLsb' 16 16 = s.esp.extractLsb' 16 16))

/-! ## The document's own algorithms -/

/-- Running the document's text of Push as a function's body, with `value` holding the integer that the value of the argument
is without its width, ends in the state that the function Push gives, with the body's local variables ended (R26). A local
variable keeps no width (log entry 14). -/
def Obligations.PushTextComputesPush : Prop :=
  ∀ (s t : State) (v : Value) (x : Int), s.pc = .start → s.launch.text = Source.pushText →
    s.launch.body = .functionBody → Begun s → LocalReceives v (.unsized x) → s.locals.get .value = some (.unsized x) →
    s.push v = .ok t → ∃ k, RunsTo k s ((t.setLocals .none).setPc (.at .nil))

/-- Running the document's text of Pop as a function's body ends in the state that the function Pop gives, with the
integer it gives for result, WITHOUT the width OperandSize that Pop's value carries (R103): the text keeps it in `ret val`,
and a local variable keeps no width (log entry 14). The value is in `result`, the MODEL's own field (log entry 2). -/
def Obligations.PopTextComputesPop : Prop :=
  ∀ (s t : State) (n : Nat) (v : BitVec n), s.pc = .start → s.launch.text = Source.popText →
    s.launch.body = .functionBody → Begun s → s.pop = .ok (.sized n v false, t) →
    ∃ k, RunsTo k s (((t.setResult (.unsized v.toNat)).setLocals .none).setPc (.at .nil))

/-- Running the document's text of I-O-Permission as a function's body, with `I-O-Address` and `width` holding the
arguments, ends with the truth value that the function gives for result. That a function's body is a run of the machine is
log entry 23. The value is in `result`, the MODEL's own field (log entry 2). -/
def Obligations.IoPermissionTextComputesIoPermission : Prop :=
  ∀ (s : State) (a : Int) (w : IoWidth) (b : Bool), s.pc = .start → s.launch.text = Source.ioPermissionText →
    s.launch.body = .functionBody → Begun s → s.locals.get .ioAddress = some (.unsized a) →
    s.locals.get .width = some (.ioWidth w) → s.ioPermission (.unsized a) (.ioWidth w) = .ok (.truth b) →
    ∃ k, RunsTo k s (((s.setResult (.truth b)).setLocals .none).setPc (.at .nil))
end

