-- ==== Sys2Proof/Laws/Decode.lean ====
section
/-! SUPPORT. Each token takes at least one character, so the tokens of a text do not depend on the fuel. -/

namespace Sys2Proof

theorem skipGap_length (b : Bool) (text : List Byte) : (skipGap b text).length ≤ text.length := by
  fun_induction skipGap b text <;> simp_all <;> omega

theorem stripSpelling_length {pat text rest : List Byte} (h : stripSpelling pat text = some rest) :
    rest.length ≤ text.length := by
  induction pat generalizing text with
  | nil => simp_all [stripSpelling]
  | cons p pat ih =>
    cases text with
    | nil => simp [stripSpelling] at h
    | cons c text =>
      simp only [stripSpelling] at h
      split at h
      · split at h
        · exact (ih h).trans (skipGap_length _ _)
        · cases h
      · split at h
        · exact (ih h).trans (by simp)
        · cases h

/-- A spelling that does not start with a space takes at least its first character. -/
theorem stripSpelling_length_lt {p : Byte} {pat text rest : List Byte} (hp : p ≠ 0x20)
    (h : stripSpelling (p :: pat) text = some rest) : rest.length < text.length := by
  cases text with
  | nil => simp [stripSpelling] at h
  | cons c text =>
    simp only [stripSpelling, beq_iff_eq, hp, if_false] at h
    split at h
    · exact Nat.lt_succ_of_le (stripSpelling_length h)
    · cases h

/-- No name starts with a space. -/
theorem wordSpellings_start : ∀ e ∈ wordSpellings, ∃ p pat, e.1 = p :: pat ∧ p ≠ 0x20 := by
  have h : wordSpellings.all (fun e => match e.1 with | [] => false | p :: _ => p != 0x20) = true := by decide +kernel
  intro e he
  have he := List.all_eq_true.mp h e he
  rcases e with ⟨_ | ⟨p, pat⟩, t⟩
  · simp at he
  · exact ⟨p, pat, rfl, by simpa using he⟩

theorem findSpelling_length {l : List (List Byte × Token)} (hl : ∀ e ∈ l, ∃ p pat, e.1 = p :: pat ∧ p ≠ 0x20)
    {text rest : List Byte} {t : Token} (h : findSpelling l text = some (t, rest)) : rest.length < text.length := by
  induction l with
  | nil => simp [findSpelling] at h
  | cons e l ih =>
    obtain ⟨pat, u⟩ := e
    have hl' := fun e he => hl e (List.mem_cons_of_mem _ he)
    simp only [findSpelling] at h
    split at h
    · rename_i r hr
      split at h
      · obtain ⟨p, q, hpq, hp⟩ := hl _ List.mem_cons_self
        simp only at hpq
        subst hpq
        simp only [Option.some.injEq, Prod.mk.injEq] at h
        exact h.2 ▸ stripSpelling_length_lt hp hr
      · exact ih hl' h
    · exact ih hl' h

theorem takeWord_length (text : List Byte) : (takeWord text).2.length ≤ text.length := by
  induction text with
  | nil => simp [takeWord]
  | cons c text ih =>
    simp only [takeWord]
    split
    · exact ih.trans (by simp)
    · simp

theorem takeWord_length_lt {c : Byte} (text : List Byte) (hc : isWordChar c = true) :
    (takeWord (c :: text)).2.length < (c :: text).length := by
  simp only [takeWord, hc, if_true]
  exact Nat.lt_succ_of_le (takeWord_length text)

theorem findCloser_length {text t rest : List Byte} (h : findCloser text = some (t, rest)) :
    rest.length ≤ text.length := by
  fun_induction findCloser text generalizing t with
  | case1 => simp at h
  | case2 => simp at h
  | case3 a b r hab =>
    simp only [Option.some.injEq, Prod.mk.injEq] at h
    simp [← h.2]
    omega
  | case4 a b r hab ih =>
    simp only [Option.map_eq_some_iff, Prod.exists, Prod.mk.injEq] at h
    obtain ⟨t', r', h, -, rfl⟩ := h
    exact (ih h).trans (by simp)

theorem lexSymbol_length {text rest : List Byte} {t : Token} (h : lexSymbol text = .ok (t, rest)) :
    rest.length < text.length := by
  unfold lexSymbol at h
  repeat' split at h
  all_goals simp_all

/-- A token takes at least one character. -/
theorem lexToken_length {text rest : List Byte} {t : Token} (h : lexToken text = .ok (t, rest)) :
    rest.length < text.length := by
  cases text with
  | nil => simp [lexToken] at h
  | cons c text =>
    simp only [lexToken] at h
    split at h
    · split at h
      · rename_i u r hr
        simp only [Except.ok.injEq, Prod.mk.injEq] at h
        have := findCloser_length hr
        simp only [List.length_tail] at this
        simp [← h.2]
        omega
      · cases h
    · split at h
      · split at h
        · rename_i found hf
          obtain ⟨u, r⟩ := found
          simp only [Except.ok.injEq, Prod.mk.injEq] at h
          exact h.2 ▸ findSpelling_length wordSpellings_start hf
        · split at h
          · simp only [Except.ok.injEq, Prod.mk.injEq] at h
            exact h.2 ▸ takeWord_length_lt text ‹_›
          · cases h
      · exact lexSymbol_length h

/-- Fuel beyond the length of the text changes nothing. -/
theorem lexAux_fuel (fuel : Nat) (text : List Byte) (h : text.length ≤ fuel) :
    lexAux fuel text = lexAux text.length text := by
  induction hn : text.length using Nat.strongRecOn generalizing fuel text with
  | ind n ih =>
    cases text with
    | nil => cases fuel <;> cases n <;> rfl
    | cons c rest =>
      simp only [List.length_cons] at h hn
      obtain ⟨f, rfl⟩ : ∃ f, fuel = f + 1 := ⟨fuel - 1, by omega⟩
      obtain ⟨m, rfl⟩ : ∃ m, n = m + 1 := ⟨n - 1, by omega⟩
      have key : ∀ r : List Byte, r.length ≤ rest.length → lexAux f r = lexAux m r := fun r hr =>
        (ih r.length (by omega) f r (by omega) rfl).trans (ih r.length (by omega) m r (by omega) rfl).symm
      simp only [lexAux]
      split
      · exact key rest le_rfl
      · cases hl : lexToken (c :: rest) with
        | error e => rfl
        | ok found =>
          obtain ⟨t, r⟩ := found
          have hr := lexToken_length hl
          simp only [List.length_cons] at hr
          simp only [key r (by omega)]

/-- The tokens of a text with no foreign byte. -/
theorem lex_eq {text : List Byte} (h : hasForeign false text = false) (fuel : Nat) (hf : text.length ≤ fuel) :
    lex text = lexAux fuel text := by
  simp only [lex, h, Bool.false_eq_true, if_false, lexAux_fuel fuel text hf]

end Sys2Proof
end

