-- ==== Sys2Proof/Laws/State.lean ====
section
/-! SUPPORT. One lemma per field per update of the state, and the laws of the registers and the local variables. -/

namespace Sys2Proof.Machine

/-! ## Updates -/

@[simp] theorem State.setEax_launch (s : State) (v : BitVec 32) : (s.setEax v).launch = s.launch := rfl
@[simp] theorem State.setEax_eax (s : State) (v : BitVec 32) : (s.setEax v).eax = v := rfl
@[simp] theorem State.setEax_esp (s : State) (v : BitVec 32) : (s.setEax v).esp = s.esp := rfl
@[simp] theorem State.setEax_si (s : State) (v : BitVec 32) : (s.setEax v).si = s.si := rfl
@[simp] theorem State.setEax_di (s : State) (v : BitVec 32) : (s.setEax v).di = s.di := rfl
@[simp] theorem State.setEax_operandSize (s : State) (v : BitVec 32) : (s.setEax v).operandSize = s.operandSize := rfl
@[simp] theorem State.setEax_addressSize (s : State) (v : BitVec 32) : (s.setEax v).addressSize = s.addressSize := rfl
@[simp] theorem State.setEax_mem (s : State) (v : BitVec 32) : (s.setEax v).mem = s.mem := rfl
@[simp] theorem State.setEax_locals (s : State) (v : BitVec 32) : (s.setEax v).locals = s.locals := rfl
@[simp] theorem State.setEax_pc (s : State) (v : BitVec 32) : (s.setEax v).pc = s.pc := rfl
@[simp] theorem State.setEax_result (s : State) (v : BitVec 32) : (s.setEax v).result = s.result := rfl

@[simp] theorem State.setEsp_launch (s : State) (v : BitVec 32) : (s.setEsp v).launch = s.launch := rfl
@[simp] theorem State.setEsp_eax (s : State) (v : BitVec 32) : (s.setEsp v).eax = s.eax := rfl
@[simp] theorem State.setEsp_esp (s : State) (v : BitVec 32) : (s.setEsp v).esp = v := rfl
@[simp] theorem State.setEsp_si (s : State) (v : BitVec 32) : (s.setEsp v).si = s.si := rfl
@[simp] theorem State.setEsp_di (s : State) (v : BitVec 32) : (s.setEsp v).di = s.di := rfl
@[simp] theorem State.setEsp_operandSize (s : State) (v : BitVec 32) : (s.setEsp v).operandSize = s.operandSize := rfl
@[simp] theorem State.setEsp_addressSize (s : State) (v : BitVec 32) : (s.setEsp v).addressSize = s.addressSize := rfl
@[simp] theorem State.setEsp_mem (s : State) (v : BitVec 32) : (s.setEsp v).mem = s.mem := rfl
@[simp] theorem State.setEsp_locals (s : State) (v : BitVec 32) : (s.setEsp v).locals = s.locals := rfl
@[simp] theorem State.setEsp_pc (s : State) (v : BitVec 32) : (s.setEsp v).pc = s.pc := rfl
@[simp] theorem State.setEsp_result (s : State) (v : BitVec 32) : (s.setEsp v).result = s.result := rfl

@[simp] theorem State.setSi_launch (s : State) (v : BitVec 16) : (s.setSi v).launch = s.launch := rfl
@[simp] theorem State.setSi_eax (s : State) (v : BitVec 16) : (s.setSi v).eax = s.eax := rfl
@[simp] theorem State.setSi_esp (s : State) (v : BitVec 16) : (s.setSi v).esp = s.esp := rfl
@[simp] theorem State.setSi_si (s : State) (v : BitVec 16) : (s.setSi v).si = v := rfl
@[simp] theorem State.setSi_di (s : State) (v : BitVec 16) : (s.setSi v).di = s.di := rfl
@[simp] theorem State.setSi_operandSize (s : State) (v : BitVec 16) : (s.setSi v).operandSize = s.operandSize := rfl
@[simp] theorem State.setSi_addressSize (s : State) (v : BitVec 16) : (s.setSi v).addressSize = s.addressSize := rfl
@[simp] theorem State.setSi_mem (s : State) (v : BitVec 16) : (s.setSi v).mem = s.mem := rfl
@[simp] theorem State.setSi_locals (s : State) (v : BitVec 16) : (s.setSi v).locals = s.locals := rfl
@[simp] theorem State.setSi_pc (s : State) (v : BitVec 16) : (s.setSi v).pc = s.pc := rfl
@[simp] theorem State.setSi_result (s : State) (v : BitVec 16) : (s.setSi v).result = s.result := rfl

@[simp] theorem State.setDi_launch (s : State) (v : BitVec 16) : (s.setDi v).launch = s.launch := rfl
@[simp] theorem State.setDi_eax (s : State) (v : BitVec 16) : (s.setDi v).eax = s.eax := rfl
@[simp] theorem State.setDi_esp (s : State) (v : BitVec 16) : (s.setDi v).esp = s.esp := rfl
@[simp] theorem State.setDi_si (s : State) (v : BitVec 16) : (s.setDi v).si = s.si := rfl
@[simp] theorem State.setDi_di (s : State) (v : BitVec 16) : (s.setDi v).di = v := rfl
@[simp] theorem State.setDi_operandSize (s : State) (v : BitVec 16) : (s.setDi v).operandSize = s.operandSize := rfl
@[simp] theorem State.setDi_addressSize (s : State) (v : BitVec 16) : (s.setDi v).addressSize = s.addressSize := rfl
@[simp] theorem State.setDi_mem (s : State) (v : BitVec 16) : (s.setDi v).mem = s.mem := rfl
@[simp] theorem State.setDi_locals (s : State) (v : BitVec 16) : (s.setDi v).locals = s.locals := rfl
@[simp] theorem State.setDi_pc (s : State) (v : BitVec 16) : (s.setDi v).pc = s.pc := rfl
@[simp] theorem State.setDi_result (s : State) (v : BitVec 16) : (s.setDi v).result = s.result := rfl

@[simp] theorem State.setOperandSize_launch (s : State) (v : AttrSize) : (s.setOperandSize v).launch = s.launch := rfl
@[simp] theorem State.setOperandSize_eax (s : State) (v : AttrSize) : (s.setOperandSize v).eax = s.eax := rfl
@[simp] theorem State.setOperandSize_esp (s : State) (v : AttrSize) : (s.setOperandSize v).esp = s.esp := rfl
@[simp] theorem State.setOperandSize_si (s : State) (v : AttrSize) : (s.setOperandSize v).si = s.si := rfl
@[simp] theorem State.setOperandSize_di (s : State) (v : AttrSize) : (s.setOperandSize v).di = s.di := rfl
@[simp] theorem State.setOperandSize_operandSize (s : State) (v : AttrSize) : (s.setOperandSize v).operandSize = v := rfl
@[simp] theorem State.setOperandSize_addressSize (s : State) (v : AttrSize) : (s.setOperandSize v).addressSize = s.addressSize := rfl
@[simp] theorem State.setOperandSize_mem (s : State) (v : AttrSize) : (s.setOperandSize v).mem = s.mem := rfl
@[simp] theorem State.setOperandSize_locals (s : State) (v : AttrSize) : (s.setOperandSize v).locals = s.locals := rfl
@[simp] theorem State.setOperandSize_pc (s : State) (v : AttrSize) : (s.setOperandSize v).pc = s.pc := rfl
@[simp] theorem State.setOperandSize_result (s : State) (v : AttrSize) : (s.setOperandSize v).result = s.result := rfl

@[simp] theorem State.setAddressSize_launch (s : State) (v : AttrSize) : (s.setAddressSize v).launch = s.launch := rfl
@[simp] theorem State.setAddressSize_eax (s : State) (v : AttrSize) : (s.setAddressSize v).eax = s.eax := rfl
@[simp] theorem State.setAddressSize_esp (s : State) (v : AttrSize) : (s.setAddressSize v).esp = s.esp := rfl
@[simp] theorem State.setAddressSize_si (s : State) (v : AttrSize) : (s.setAddressSize v).si = s.si := rfl
@[simp] theorem State.setAddressSize_di (s : State) (v : AttrSize) : (s.setAddressSize v).di = s.di := rfl
@[simp] theorem State.setAddressSize_operandSize (s : State) (v : AttrSize) : (s.setAddressSize v).operandSize = s.operandSize := rfl
@[simp] theorem State.setAddressSize_addressSize (s : State) (v : AttrSize) : (s.setAddressSize v).addressSize = v := rfl
@[simp] theorem State.setAddressSize_mem (s : State) (v : AttrSize) : (s.setAddressSize v).mem = s.mem := rfl
@[simp] theorem State.setAddressSize_locals (s : State) (v : AttrSize) : (s.setAddressSize v).locals = s.locals := rfl
@[simp] theorem State.setAddressSize_pc (s : State) (v : AttrSize) : (s.setAddressSize v).pc = s.pc := rfl
@[simp] theorem State.setAddressSize_result (s : State) (v : AttrSize) : (s.setAddressSize v).result = s.result := rfl

@[simp] theorem State.setMem_launch (s : State) (v : Memory) : (s.setMem v).launch = s.launch := rfl
@[simp] theorem State.setMem_eax (s : State) (v : Memory) : (s.setMem v).eax = s.eax := rfl
@[simp] theorem State.setMem_esp (s : State) (v : Memory) : (s.setMem v).esp = s.esp := rfl
@[simp] theorem State.setMem_si (s : State) (v : Memory) : (s.setMem v).si = s.si := rfl
@[simp] theorem State.setMem_di (s : State) (v : Memory) : (s.setMem v).di = s.di := rfl
@[simp] theorem State.setMem_operandSize (s : State) (v : Memory) : (s.setMem v).operandSize = s.operandSize := rfl
@[simp] theorem State.setMem_addressSize (s : State) (v : Memory) : (s.setMem v).addressSize = s.addressSize := rfl
@[simp] theorem State.setMem_mem (s : State) (v : Memory) : (s.setMem v).mem = v := rfl
@[simp] theorem State.setMem_locals (s : State) (v : Memory) : (s.setMem v).locals = s.locals := rfl
@[simp] theorem State.setMem_pc (s : State) (v : Memory) : (s.setMem v).pc = s.pc := rfl
@[simp] theorem State.setMem_result (s : State) (v : Memory) : (s.setMem v).result = s.result := rfl

@[simp] theorem State.setLocals_launch (s : State) (v : Locals) : (s.setLocals v).launch = s.launch := rfl
@[simp] theorem State.setLocals_eax (s : State) (v : Locals) : (s.setLocals v).eax = s.eax := rfl
@[simp] theorem State.setLocals_esp (s : State) (v : Locals) : (s.setLocals v).esp = s.esp := rfl
@[simp] theorem State.setLocals_si (s : State) (v : Locals) : (s.setLocals v).si = s.si := rfl
@[simp] theorem State.setLocals_di (s : State) (v : Locals) : (s.setLocals v).di = s.di := rfl
@[simp] theorem State.setLocals_operandSize (s : State) (v : Locals) : (s.setLocals v).operandSize = s.operandSize := rfl
@[simp] theorem State.setLocals_addressSize (s : State) (v : Locals) : (s.setLocals v).addressSize = s.addressSize := rfl
@[simp] theorem State.setLocals_mem (s : State) (v : Locals) : (s.setLocals v).mem = s.mem := rfl
@[simp] theorem State.setLocals_locals (s : State) (v : Locals) : (s.setLocals v).locals = v := rfl
@[simp] theorem State.setLocals_pc (s : State) (v : Locals) : (s.setLocals v).pc = s.pc := rfl
@[simp] theorem State.setLocals_result (s : State) (v : Locals) : (s.setLocals v).result = s.result := rfl

@[simp] theorem State.setPc_launch (s : State) (v : Position) : (s.setPc v).launch = s.launch := rfl
@[simp] theorem State.setPc_eax (s : State) (v : Position) : (s.setPc v).eax = s.eax := rfl
@[simp] theorem State.setPc_esp (s : State) (v : Position) : (s.setPc v).esp = s.esp := rfl
@[simp] theorem State.setPc_si (s : State) (v : Position) : (s.setPc v).si = s.si := rfl
@[simp] theorem State.setPc_di (s : State) (v : Position) : (s.setPc v).di = s.di := rfl
@[simp] theorem State.setPc_operandSize (s : State) (v : Position) : (s.setPc v).operandSize = s.operandSize := rfl
@[simp] theorem State.setPc_addressSize (s : State) (v : Position) : (s.setPc v).addressSize = s.addressSize := rfl
@[simp] theorem State.setPc_mem (s : State) (v : Position) : (s.setPc v).mem = s.mem := rfl
@[simp] theorem State.setPc_locals (s : State) (v : Position) : (s.setPc v).locals = s.locals := rfl
@[simp] theorem State.setPc_pc (s : State) (v : Position) : (s.setPc v).pc = v := rfl
@[simp] theorem State.setPc_result (s : State) (v : Position) : (s.setPc v).result = s.result := rfl

@[simp] theorem State.setResult_launch (s : State) (v : Value) : (s.setResult v).launch = s.launch := rfl
@[simp] theorem State.setResult_eax (s : State) (v : Value) : (s.setResult v).eax = s.eax := rfl
@[simp] theorem State.setResult_esp (s : State) (v : Value) : (s.setResult v).esp = s.esp := rfl
@[simp] theorem State.setResult_si (s : State) (v : Value) : (s.setResult v).si = s.si := rfl
@[simp] theorem State.setResult_di (s : State) (v : Value) : (s.setResult v).di = s.di := rfl
@[simp] theorem State.setResult_operandSize (s : State) (v : Value) : (s.setResult v).operandSize = s.operandSize := rfl
@[simp] theorem State.setResult_addressSize (s : State) (v : Value) : (s.setResult v).addressSize = s.addressSize := rfl
@[simp] theorem State.setResult_mem (s : State) (v : Value) : (s.setResult v).mem = s.mem := rfl
@[simp] theorem State.setResult_locals (s : State) (v : Value) : (s.setResult v).locals = s.locals := rfl
@[simp] theorem State.setResult_pc (s : State) (v : Value) : (s.setResult v).pc = s.pc := rfl
@[simp] theorem State.setResult_result (s : State) (v : Value) : (s.setResult v).result = some v := rfl

@[simp] theorem State.setEax_self (s : State) : s.setEax s.eax = s := rfl
@[simp] theorem State.setEsp_self (s : State) : s.setEsp s.esp = s := rfl
@[simp] theorem State.setSi_self (s : State) : s.setSi s.si = s := rfl
@[simp] theorem State.setDi_self (s : State) : s.setDi s.di = s := rfl
@[simp] theorem State.setOperandSize_self (s : State) : s.setOperandSize s.operandSize = s := rfl
@[simp] theorem State.setAddressSize_self (s : State) : s.setAddressSize s.addressSize = s := rfl
@[simp] theorem State.setMem_self (s : State) : s.setMem s.mem = s := rfl
@[simp] theorem State.setLocals_self (s : State) : s.setLocals s.locals = s := rfl
@[simp] theorem State.setPc_self (s : State) : s.setPc s.pc = s := rfl

/-! ## SP within ESP -/

/-- The bits of a doubleword made of two words. -/
theorem getLsbD_words (h l : BitVec 16) (i : Nat) :
    BitVec.getLsbD (w := 32) (h ++ l : BitVec (16 + 16)) i = if i < 16 then l.getLsbD i else h.getLsbD (i - 16) := by
  have := BitVec.getLsbD_append (x := h) (y := l) (i := i)
  rw [show BitVec.getLsbD (w := 32) (h ++ l : BitVec (16 + 16)) i = (h ++ l : BitVec (16 + 16)).getLsbD i from rfl, this]

@[simp] theorem State.sp_setSp (s : State) (v : BitVec 16) : (s.setSp v).sp = v := by
  apply BitVec.eq_of_getLsbD_eq
  intro i hi
  simp [State.sp, State.setSp, getLsbD_words, hi]

/-- A write to SP keeps bits 31..16 of ESP (R15). -/
@[simp] theorem State.setSp_high (s : State) (v : BitVec 16) :
    (s.setSp v).esp.extractLsb' 16 16 = s.esp.extractLsb' 16 16 := by
  apply BitVec.eq_of_getLsbD_eq
  intro i hi
  simp [State.setSp, getLsbD_words, hi]

/-- ESP is its high half and SP. -/
theorem State.esp_eq_append (s : State) : s.esp = (s.esp.extractLsb' 16 16 ++ s.sp : BitVec (16 + 16)) := by
  apply BitVec.eq_of_getLsbD_eq
  intro i hi
  rw [getLsbD_words]
  split
  · simp [State.sp, *]
  · have h1 : 16 + (i - 16) = i := by omega
    have h2 : i - 16 < 16 := by omega
    simp [h1, h2]

/-- Two ways to write SP, one after the other: the later one stands. -/
@[simp] theorem State.setSp_setSp (s : State) (v w : BitVec 16) : (s.setSp v).setSp w = s.setSp w := by
  simp only [State.setSp, State.setEsp]
  rw [show (BitVec.extractLsb' 16 16 (s.esp.extractLsb' 16 16 ++ v : BitVec (16 + 16))) = s.esp.extractLsb' 16 16
    from State.setSp_high s v]

/-- Writing SP its own value changes nothing. -/
@[simp] theorem State.setSp_self (s : State) : s.setSp s.sp = s := by
  simp only [State.setSp, ← State.esp_eq_append, State.setEsp_self]

@[simp] theorem State.setSp_launch (s : State) (v : BitVec 16) : (s.setSp v).launch = s.launch := rfl
@[simp] theorem State.setSp_eax (s : State) (v : BitVec 16) : (s.setSp v).eax = s.eax := rfl
@[simp] theorem State.setSp_si (s : State) (v : BitVec 16) : (s.setSp v).si = s.si := rfl
@[simp] theorem State.setSp_di (s : State) (v : BitVec 16) : (s.setSp v).di = s.di := rfl
@[simp] theorem State.setSp_operandSize (s : State) (v : BitVec 16) : (s.setSp v).operandSize = s.operandSize := rfl
@[simp] theorem State.setSp_addressSize (s : State) (v : BitVec 16) : (s.setSp v).addressSize = s.addressSize := rfl
@[simp] theorem State.setSp_mem (s : State) (v : BitVec 16) : (s.setSp v).mem = s.mem := rfl
@[simp] theorem State.setSp_locals (s : State) (v : BitVec 16) : (s.setSp v).locals = s.locals := rfl
@[simp] theorem State.setSp_pc (s : State) (v : BitVec 16) : (s.setSp v).pc = s.pc := rfl
@[simp] theorem State.setSp_result (s : State) (v : BitVec 16) : (s.setSp v).result = s.result := rfl

/-! ## Registers -/

/-- A register that has been written reads as what was written (R74). -/
@[simp] theorem State.getReg_setReg (s : State) (r : Reg) (v : BitVec (Reg.width r)) : (s.setReg r v).getReg r = v := by
  cases r
  case sp => exact s.sp_setSp v
  all_goals rfl

/-- Writing a register leaves the registers unchanged that share no storage with it (R15). -/
theorem State.getReg_setReg_disjoint (s : State) (r r' : Reg) (v : BitVec (Reg.width r)) (h : Reg.disjoint r r' = true) :
    (s.setReg r v).getReg r' = s.getReg r' := by
  cases r <;> cases r' <;> first | rfl | (simp [Reg.disjoint] at h)

@[simp] theorem State.setReg_launch (s : State) (r : Reg) (v : BitVec (Reg.width r)) : (s.setReg r v).launch = s.launch := by
  cases r <;> rfl
@[simp] theorem State.setReg_operandSize (s : State) (r : Reg) (v : BitVec (Reg.width r)) : (s.setReg r v).operandSize = s.operandSize := by
  cases r <;> rfl
@[simp] theorem State.setReg_addressSize (s : State) (r : Reg) (v : BitVec (Reg.width r)) : (s.setReg r v).addressSize = s.addressSize := by
  cases r <;> rfl
@[simp] theorem State.setReg_mem (s : State) (r : Reg) (v : BitVec (Reg.width r)) : (s.setReg r v).mem = s.mem := by
  cases r <;> rfl
@[simp] theorem State.setReg_locals (s : State) (r : Reg) (v : BitVec (Reg.width r)) : (s.setReg r v).locals = s.locals := by
  cases r <;> rfl
@[simp] theorem State.setReg_pc (s : State) (r : Reg) (v : BitVec (Reg.width r)) : (s.setReg r v).pc = s.pc := by
  cases r <;> rfl
@[simp] theorem State.setReg_result (s : State) (r : Reg) (v : BitVec (Reg.width r)) : (s.setReg r v).result = s.result := by
  cases r <;> rfl

/-! ## Names of registers -/

@[simp] theorem State.regOf_reg (s : State) (r : Reg) : s.regOf (.reg r) = r := rfl

/-- eSP is ESP where the B-bit is 1 and SP where it is 0 (R97). -/
theorem State.regOf_eSP (s : State) : s.regOf .eSP = if s.launch.bBit = true then .esp else .sp := by
  simp only [State.regOf, State.usesEsp, Config.bBitSelectsEsp, beq_iff_eq]

/-- What a name stands for depends on the launch components alone. -/
theorem State.regOf_congr {s t : State} (h : t.launch = s.launch) (n : RegName) : t.regOf n = s.regOf n := by
  cases n with
  | reg r => rfl
  | eSP => simp only [State.regOf_eSP, h]

/-! ## Local variables -/

@[simp] theorem Locals.get_set (l : Locals) (v : LocalValue) (x : LocalName) : (l.set v x).get x = some v.value := by
  cases x <;> rfl

theorem Locals.get_set_of_ne (l : Locals) (v : LocalValue) {x y : LocalName} (h : y ≠ x) : (l.set v x).get y = l.get y := by
  cases x <;> cases y <;> first | rfl | exact absurd rfl h

/-- What a local variable holds has no width and is no instruction's name. -/
theorem Locals.get_eq_some {l : Locals} {x : LocalName} {v : Value} (h : l.get x = some v) : ∃ y : LocalValue, v = y.value := by
  cases x <;> simp only [Locals.get, Option.map_eq_some_iff] at h <;> obtain ⟨y, -, rfl⟩ := h <;> exact ⟨y, rfl⟩

@[simp] theorem Locals.get_none (n : LocalName) : Locals.none.get n = .none := by cases n <;> rfl

/-! ## Statement positions -/

@[simp] theorem Position.enter_at (b rest : Block) : (Position.at rest).enter b = .at (b.append rest) := rfl

end Sys2Proof.Machine
end

