-- ==== Sys2Proof/Laws/Memory.lean ====
section
/-! SUPPORT. The laws of memory: a read after a write, the canonical form, and what the accesses of R39 and R40 do. -/

namespace Sys2Proof.Machine

/-! ## One byte -/

/-- An address that no entry has reads as the unlisted byte. -/
theorem Memory.read_absent (m : Memory) (k : Nat) (h : ∀ c ∈ m, c.1 ≠ k) : Memory.read m k = Config.unlistedByte := by
  induction m with
  | nil => rfl
  | cons c m ih =>
    rw [Memory.read, if_neg (h c List.mem_cons_self)]
    exact ih fun d hd => h d (List.mem_cons_of_mem _ hd)

theorem Memory.read_write (m : Memory) (a b : Nat) (v : Byte) (h : m.Pairwise fun x y => x.1 < y.1) :
    (m.write a v).read b = if b = a then v else m.read b := by
  induction m with
  | nil =>
    by_cases hv : v = Config.unlistedByte <;> by_cases hb : b = a <;>
      simp [Memory.write, Memory.read, hv, hb, Ne.symm]
  | cons c m ih =>
    obtain ⟨hc, hm⟩ := List.pairwise_cons.mp h
    have absent : ∀ k, k ≤ c.1 → Memory.read m k = Config.unlistedByte := fun k hk =>
      Memory.read_absent m k fun d hd => by have := hc d hd; omega
    rw [Memory.write]
    split
    · rename_i hlt
      split
      · rename_i hv
        by_cases hb : b = a
        · have hne : c.1 ≠ a := by omega
          simp [Memory.read, hb, hv, hne, absent a (by omega)]
        · simp [hb]
      · by_cases hb : b = a
        · simp [Memory.read, hb]
        · simp [Memory.read, hb, Ne.symm hb]
    · split
      · rename_i heq
        subst heq
        split
        · rename_i hv
          by_cases hb : b = c.1
          · simp [hb, hv, absent c.1 (le_refl _)]
          · simp [Memory.read, hb, Ne.symm hb]
        · by_cases hb : b = c.1
          · simp [Memory.read, hb]
          · simp [Memory.read, hb, Ne.symm hb]
      · rename_i hne
        by_cases hb : c.1 = b
        · have : b ≠ a := by omega
          simp [Memory.read, hb, this]
        · simp [Memory.read, hb, ih hm]

theorem Memory.mem_write (m : Memory) (a : Nat) (v : Byte) (x : Host.Cell) (hx : x ∈ m.write a v) :
    x = (a, v) ∧ v ≠ Config.unlistedByte ∨ x ∈ m := by
  induction m with
  | nil =>
    simp only [Memory.write] at hx
    split at hx <;> simp_all
  | cons c m ih =>
    simp only [Memory.write] at hx
    split at hx
    · split at hx
      · exact .inr hx
      · simp_all
    · split at hx
      · split at hx
        · exact .inr (List.mem_cons_of_mem _ hx)
        · rcases List.mem_cons.mp hx with h | h
          · exact .inl ⟨h, by assumption⟩
          · exact .inr (List.mem_cons_of_mem _ h)
      · rcases List.mem_cons.mp hx with h | h
        · exact .inr (h ▸ List.mem_cons_self)
        · rcases ih h with h' | h'
          · exact .inl h'
          · exact .inr (List.mem_cons_of_mem _ h')

theorem Memory.rising_write (m : Memory) (a : Nat) (v : Byte) (h : m.Pairwise fun x y => x.1 < y.1) :
    (m.write a v).Pairwise fun x y => x.1 < y.1 := by
  induction m with
  | nil =>
    simp only [Memory.write]
    split <;> simp
  | cons c m ih =>
    obtain ⟨hc, hm⟩ := List.pairwise_cons.mp h
    simp only [Memory.write]
    split
    · rename_i hlt
      split
      · exact h
      · refine List.pairwise_cons.mpr ⟨fun x hx => ?_, h⟩
        rcases List.mem_cons.mp hx with rfl | hx
        · exact hlt
        · exact lt_trans hlt (hc x hx)
    · split
      · rename_i heq
        split
        · exact hm
        · refine List.pairwise_cons.mpr ⟨fun x hx => ?_, hm⟩
          simpa [heq] using hc x hx
      · refine List.pairwise_cons.mpr ⟨fun x hx => ?_, ih hm⟩
        rcases Memory.mem_write m a v x hx with ⟨rfl, -⟩ | hx
        · simp only
          omega
        · exact hc x hx

/-! ## The canonical form -/

theorem Memory.wf_iff (m : Memory) :
    m.wf = true ↔ (m.Pairwise fun x y => x.1 < y.1) ∧ ∀ c ∈ m, c.2 ≠ Config.unlistedByte := by
  simp [Memory.wf]

theorem Memory.wf_write (m : Memory) (a : Nat) (v : Byte) (h : m.wf = true) : (m.write a v).wf = true := by
  rw [Memory.wf_iff] at h ⊢
  refine ⟨Memory.rising_write m a v h.1, fun c hc => ?_⟩
  rcases Memory.mem_write m a v c hc with ⟨rfl, hv⟩ | hc
  · exact hv
  · exact h.2 c hc

theorem Memory.wf_writeBytes (m : Memory) (a n v : Nat) (h : m.wf = true) : (m.writeBytes a n v).wf = true := by
  induction n generalizing m a v with
  | zero => exact h
  | succ n ih => exact ih _ _ _ (Memory.wf_write m a _ h)

theorem Memory.wf_empty : Memory.wf [] = true := by decide

theorem reset_mem_wf : State.reset.mem.wf = true := Memory.wf_empty

/-! ## Several bytes -/

/-- A byte outside the bytes stored keeps its value (R40). -/
theorem Memory.read_writeBytes_outside (m : Memory) (a n v k : Nat) (hm : m.wf = true) (hk : k < a ∨ a + n ≤ k) :
    (m.writeBytes a n v).read k = m.read k := by
  induction n generalizing m a v with
  | zero => rfl
  | succ n ih =>
    have hwf := (Memory.wf_iff m).mp hm
    have hne : k ≠ a := by omega
    rw [Memory.writeBytes, ih _ _ _ (Memory.wf_write m a _ hm) (by omega), Memory.read_write m a k _ hwf.1, if_neg hne]

/-- Byte `a + i` receives bits 8i+7..8i (R40). -/
theorem Memory.read_writeBytes_inside (m : Memory) (a n v i : Nat) (hm : m.wf = true) (hi : i < n) :
    (m.writeBytes a n v).read (a + i) = BitVec.ofNat 8 (v / 256 ^ i) := by
  induction n generalizing m a v i with
  | zero => omega
  | succ n ih =>
    have hwf := (Memory.wf_iff m).mp hm
    have hw := Memory.wf_write m a (BitVec.ofNat 8 v) hm
    cases i with
    | zero =>
      rw [Memory.writeBytes, Memory.read_writeBytes_outside _ _ _ _ _ hw (by omega), Memory.read_write m a _ _ hwf.1]
      simp
    | succ i =>
      rw [Memory.writeBytes, show a + (i + 1) = a + 1 + i by omega, ih _ _ _ _ hw (by omega), Nat.div_div_eq_div_mul,
        pow_succ, Nat.mul_comm]

/-- What was stored is read back (R39, R40). -/
theorem Memory.readBytes_writeBytes (m : Memory) (a n v : Nat) (hm : m.wf = true) :
    (m.writeBytes a n v).readBytes a n = v % 256 ^ n := by
  induction n generalizing m a v with
  | zero => simp [Memory.readBytes, Nat.mod_one]
  | succ n ih =>
    have hwf := (Memory.wf_iff m).mp hm
    have hw := Memory.wf_write m a (BitVec.ofNat 8 v) hm
    rw [Memory.readBytes, Memory.writeBytes, Memory.read_writeBytes_outside _ _ _ _ _ hw (by omega),
      Memory.read_write m a _ _ hwf.1, if_pos rfl, ih _ _ _ hw, BitVec.toNat_ofNat,
      show (256 : Nat) ^ (n + 1) = 256 * 256 ^ n from Nat.pow_succ', Nat.mod_mul]

theorem Memory.readBytes_lt (m : Memory) (a n : Nat) : m.readBytes a n < 256 ^ n := by
  induction n generalizing a with
  | zero => simp [Memory.readBytes]
  | succ n ih =>
    have h1 := (m.read a).isLt
    have h2 := ih (a + 1)
    rw [Memory.readBytes, pow_succ]
    omega

/-! ## The accesses -/

/-- A read that has a step is admitted, and its value is the bytes' (R39). -/
theorem State.memRead_ok {s : State} {p : Place} {v : BitVec p.size.bits} (h : s.memRead p = .ok v) :
    s.admits p .read = true ∧ v = BitVec.ofNat _ (s.mem.readBytes (s.linear p) p.size.bytes) := by
  unfold State.memRead at h
  split at h
  · exact ⟨by assumption, by simpa using h.symm⟩
  · exact absurd h (by simp [raise])

/-- A write that has a step is admitted and changes memory alone (R40). -/
theorem State.memWrite_ok {s t : State} {p : Place} {v : BitVec p.size.bits} (h : s.memWrite p v = .ok t) :
    s.admits p .write = true ∧ t = s.setMem (s.mem.writeBytes (s.linear p) p.size.bytes v.toNat) := by
  unfold State.memWrite at h
  split at h
  · exact ⟨by assumption, by simpa using h.symm⟩
  · exact absurd h (by simp [raise])

theorem State.memRead_of_admits {s : State} {p : Place} (h : s.admits p .read = true) :
    s.memRead p = .ok (BitVec.ofNat _ (s.mem.readBytes (s.linear p) p.size.bytes)) := by
  simp [State.memRead, h]

theorem State.memWrite_of_admits {s : State} {p : Place} (v : BitVec p.size.bits) (h : s.admits p .write = true) :
    s.memWrite p v = .ok (s.setMem (s.mem.writeBytes (s.linear p) p.size.bytes v.toNat)) := by
  simp [State.memWrite, h]

/-- An access that is not admitted has no step (R116). -/
theorem State.memRead_stuck {s : State} {p : Place} (h : s.admits p .read = false) :
    s.memRead p = raise (.notAdmitted p.seg p.off p.size .read) := by
  simp [State.memRead, h]

theorem State.memWrite_stuck {s : State} {p : Place} (v : BitVec p.size.bits) (h : s.admits p .write = false) :
    s.memWrite p v = raise (.notAdmitted p.seg p.off p.size .write) := by
  simp [State.memWrite, h]

end Sys2Proof.Machine
end

