-- ==== Sys2Proof/Laws/Operations.lean ====
section
/-! SUPPORT. For each shared operation, once, everything it can do when it answers a value or a state; later proofs
cite these and do not unfold the operation. -/

namespace Sys2Proof.Machine

/-! ## Stops -/

/-- A chain of operations succeeds only if each does. -/
theorem bind_eq_ok {α β : Type} {x : Except Stop α} {f : α → Except Stop β} {b : β} :
    (x >>= f) = .ok b ↔ ∃ a, x = .ok a ∧ f a = .ok b := by
  cases x with
  | error e => simp [bind, Except.bind]
  | ok a => simp [bind, Except.bind]

@[simp] theorem ok_bind {α β : Type} (a : α) (f : α → Except Stop β) : (Except.ok a >>= f) = f a := rfl

@[simp] theorem error_bind {α β : Type} (e : Stop) (f : α → Except Stop β) : (Except.error e >>= f) = .error e := rfl

@[simp] theorem raise_ne_ok {α : Type} (f : Fault) (a : α) : (raise f : Except Stop α) ≠ .ok a := by simp [raise]

@[simp] theorem refuse_ne_ok {α : Type} (r : Refusal) (a : α) : (refuse r : Except Stop α) ≠ .ok a := by simp [refuse]

/-- A step's outcome is a next state exactly when the operation answers that state. -/
theorem outcome_eq_next {x : Except Stop State} {t : State} : outcome x = .next t ↔ x = .ok t := by
  rcases x with (f | r) | s <;> simp [outcome]

/-! ## The stack pointer -/

/-- Moving the stack pointer changes ESP alone. -/
theorem State.moveStack_eq (s : State) (n : Int) : ∃ x, s.moveStack n = s.setEsp x := by
  unfold State.moveStack
  cases s.stackAddrSize with
  | s16 => exact ⟨_, rfl⟩
  | s32 => exact ⟨_, rfl⟩

@[simp] theorem State.setEsp_setEsp (s : State) (x y : BitVec 32) : (s.setEsp x).setEsp y = s.setEsp y := rfl

@[simp] theorem State.stackAddrSize_setEsp (s : State) (x : BitVec 32) : (s.setEsp x).stackAddrSize = s.stackAddrSize := rfl

@[simp] theorem State.moveStack_launch (s : State) (n : Int) : (s.moveStack n).launch = s.launch := by
  obtain ⟨x, h⟩ := s.moveStack_eq n
  simp [h]

@[simp] theorem State.moveStack_mem (s : State) (n : Int) : (s.moveStack n).mem = s.mem := by
  obtain ⟨x, h⟩ := s.moveStack_eq n
  simp [h]

@[simp] theorem State.moveStack_addressSize (s : State) (n : Int) : (s.moveStack n).addressSize = s.addressSize := by
  obtain ⟨x, h⟩ := s.moveStack_eq n
  simp [h]

@[simp] theorem State.moveStack_operandSize (s : State) (n : Int) : (s.moveStack n).operandSize = s.operandSize := by
  obtain ⟨x, h⟩ := s.moveStack_eq n
  simp [h]

/-! ## Widths -/

theorem Value.toWidth_ofBits {w : Nat} (b : BitVec w) : (Value.ofBits b).toWidth w = .ok b := by
  simp [Value.ofBits, Value.toWidth]

/-- What a register or a location accepts (R78): a value of its own width, or an unsized one. -/
theorem Value.toWidth_ok {v : Value} {w : Nat} {b : BitVec w} (h : v.toWidth w = .ok b) :
    (∃ signed, v = .sized w b signed) ∨ ∃ x, v = .unsized x ∧ b = BitVec.ofInt w x := by
  cases v with
  | sized m c signed =>
    simp only [Value.toWidth] at h
    split at h
    · rename_i hm
      subst hm
      exact .inl ⟨signed, by simp_all⟩
    · simp at h
  | unsized x => exact .inr ⟨x, rfl, by simpa [Value.toWidth] using h.symm⟩
  | truth => simp [Value.toWidth] at h
  | ioWidth => simp [Value.toWidth] at h
  | name => simp [Value.toWidth] at h

/-! ## Reading and writing places -/

theorem State.readPlace_ok {s : State} {p : Place} {v : Value} (h : s.readPlace p = .ok v) :
    s.admits p .read = true ∧ v = .ofBits (BitVec.ofNat p.size.bits (s.mem.readBytes (s.linear p) p.size.bytes)) := by
  obtain ⟨b, hb, hv⟩ := bind_eq_ok.mp h
  obtain ⟨ha, rfl⟩ := State.memRead_ok hb
  exact ⟨ha, by simpa using hv.symm⟩

theorem State.assignPlace_ok {s t : State} {p : Place} {v : Value} (h : s.assignPlace p v = .ok t) :
    ∃ b, v.toWidth p.size.bits = .ok b ∧ s.admits p .write = true ∧
      t = s.setMem (s.mem.writeBytes (s.linear p) p.size.bytes b.toNat) := by
  obtain ⟨b, hb, hv⟩ := bind_eq_ok.mp h
  exact ⟨b, hb, State.memWrite_ok hv⟩

theorem State.assignReg_ok {s t : State} {r : Reg} {v : Value} (h : s.assignReg r v = .ok t) :
    ∃ b, v.toWidth (Reg.width r) = .ok b ∧ t = s.setReg r b := by
  obtain ⟨b, hb, hv⟩ := bind_eq_ok.mp h
  exact ⟨b, hb, by simpa using hv.symm⟩

/-! ## Push and Pop -/

/-- Everything Push can do (R102): the stack pointer moves down and the bytes at the new one are written. -/
theorem State.push_ok {s t : State} {v : Value} (h : s.push v = .ok t) :
    ∃ b, v.toWidth s.operandSize.bits = .ok b ∧
      let s' := s.moveStack (-(s.operandSize.size.bytes : Int))
      s'.admits s'.stackTop .write = true ∧
        ∃ c, (Value.ofBits b).toWidth s'.stackTop.size.bits = .ok c ∧
          t = s'.setMem (s'.mem.writeBytes (s'.linear s'.stackTop) s'.stackTop.size.bytes c.toNat) := by
  obtain ⟨b, hb, ht⟩ := bind_eq_ok.mp h
  obtain ⟨c, hc, ha, ht⟩ := State.assignPlace_ok ht
  exact ⟨b, hb, ha, c, hc, ht⟩

/-- Everything Pop can do (R103): the bytes at the old stack pointer are the value, and the stack pointer moves up. -/
theorem State.pop_ok {s t : State} {v : Value} (h : s.pop = .ok (v, t)) :
    s.admits s.stackTop .read = true ∧
      v = .ofBits (BitVec.ofNat s.stackTop.size.bits (s.mem.readBytes (s.linear s.stackTop) s.stackTop.size.bytes)) ∧
      t = s.moveStack (s.operandSize.size.bytes : Int) := by
  obtain ⟨w, hw, ht⟩ := bind_eq_ok.mp h
  obtain ⟨ha, rfl⟩ := State.readPlace_ok hw
  simp only [Except.ok.injEq, Prod.mk.injEq] at ht
  exact ⟨ha, ht.1.symm, ht.2.symm⟩

/-! ## Assignment -/

/-- Everything an assignment to a place that is not in memory can do (R78). -/
theorem State.assignName_ok {s t : State} {d : Dest} {v : Value} (h : s.assignName d v = .ok t) :
    (∃ r b, v.toWidth (Reg.width r) = .ok b ∧ t = s.setReg r b) ∨
      (∃ l x, d = .loc l ∧ v.toLocal = .ok x ∧ t = s.setLocals (s.locals.set x l)) ∨
      ∃ x a, d = .operandSize ∧ v.int = .ok x ∧ attrOfInt x = .ok a ∧ t = s.setOperandSize a := by
  cases d with
  | reg r =>
    obtain ⟨b, hb, ht⟩ := State.assignReg_ok h
    exact .inl ⟨r, b, hb, ht⟩
  | eSP =>
    obtain ⟨b, hb, ht⟩ := State.assignReg_ok h
    exact .inl ⟨_, b, hb, ht⟩
  | dest =>
    simp only [State.assignName] at h
    split at h
    · obtain ⟨b, hb, ht⟩ := State.assignReg_ok h
      exact .inl ⟨_, b, hb, ht⟩
    · simp at h
    · simp at h
  | loc l =>
    obtain ⟨x, hx, ht⟩ := bind_eq_ok.mp h
    exact .inr (.inl ⟨l, x, rfl, hx, by simpa using ht.symm⟩)
  | operandSize =>
    obtain ⟨x, hx, ht⟩ := bind_eq_ok.mp h
    obtain ⟨a, ha, ht⟩ := bind_eq_ok.mp ht
    exact .inr (.inr ⟨x, a, rfl, hx, ha, by simpa using ht.symm⟩)
  | memReg r => simp [State.assignName] at h
  | memSegReg g r => simp [State.assignName] at h
  | memOperand o => simp [State.assignName] at h
  | tssPointer => simp [State.assignName] at h
  | bitString => simp [State.assignName] at h

/-- An assignment writes the place in memory that its destination is, or what is no place in memory (R78). -/
theorem State.assign_ok {s t : State} {d : Dest} {v : Value} (h : s.assign d v = .ok t) :
    (∃ p, s.destPlace d = .ok (some p) ∧ s.assignPlace p v = .ok t) ∨
      (s.destPlace d = .ok none ∧ s.assignName d v = .ok t) := by
  obtain ⟨x, hx, ht⟩ := bind_eq_ok.mp h
  cases x with
  | none => exact .inr ⟨hx, ht⟩
  | some p => exact .inl ⟨p, hx, ht⟩

/-! ## Evaluation -/

/-- Everything evaluating an expression can do to the state: Pop moves the stack pointer, and nothing else is
written. -/
theorem eval_ok_state {e : Expr} {s t : State} {v : Value} (h : eval e s = .ok (v, t)) : ∃ x, t = s.setEsp x := by
  induction e generalizing s t v with
  | num n => simp only [eval, Except.ok.injEq, Prod.mk.injEq] at h; exact ⟨s.esp, by simp [← h.2]⟩
  | truth b => simp only [eval, Except.ok.injEq, Prod.mk.injEq] at h; exact ⟨s.esp, by simp [← h.2]⟩
  | ioWidth w => simp only [eval, Except.ok.injEq, Prod.mk.injEq] at h; exact ⟨s.esp, by simp [← h.2]⟩
  | tssIs16 => simp only [eval, Except.ok.injEq, Prod.mk.injEq] at h; exact ⟨s.esp, by simp [← h.2]⟩
  | reg r => simp only [eval, Except.ok.injEq, Prod.mk.injEq] at h; exact ⟨s.esp, by simp [← h.2]⟩
  | operandSize => simp only [eval, Except.ok.injEq, Prod.mk.injEq] at h; exact ⟨s.esp, by simp [← h.2]⟩
  | addressSize => simp only [eval, Except.ok.injEq, Prod.mk.injEq] at h; exact ⟨s.esp, by simp [← h.2]⟩
  | stackAddrSize => simp only [eval, Except.ok.injEq, Prod.mk.injEq] at h; exact ⟨s.esp, by simp [← h.2]⟩
  | instruction => simp only [eval, Except.ok.injEq, Prod.mk.injEq] at h; exact ⟨s.esp, by simp [← h.2]⟩
  | eSP => simp only [eval, Except.ok.injEq, Prod.mk.injEq] at h; exact ⟨s.esp, by simp [← h.2]⟩
  | cmpsw => simp [eval] at h
  | cmpsd => simp [eval] at h
  | popSt => simp [eval] at h
  | switchTasks => simp [eval] at h
  | loc l => obtain ⟨_, -, h⟩ := bind_eq_ok.mp h; exact ⟨s.esp, by simp_all⟩
  | tssPointer => obtain ⟨_, -, h⟩ := bind_eq_ok.mp h; exact ⟨s.esp, by simp_all⟩
  | operand o => obtain ⟨_, -, h⟩ := bind_eq_ok.mp h; exact ⟨s.esp, by simp_all⟩
  | memSegReg g r => obtain ⟨_, -, h⟩ := bind_eq_ok.mp h; exact ⟨s.esp, by simp_all⟩
  | addr a => obtain ⟨_, -, h⟩ := bind_eq_ok.mp h; exact ⟨s.esp, by simp_all⟩
  | bitString =>
    obtain ⟨_, -, h⟩ := bind_eq_ok.mp h
    obtain ⟨_, -, h⟩ := bind_eq_ok.mp h
    exact ⟨s.esp, by simp_all⟩
  | memReg r =>
    obtain ⟨_, -, h⟩ := bind_eq_ok.mp h
    obtain ⟨_, -, h⟩ := bind_eq_ok.mp h
    exact ⟨s.esp, by simp_all⟩
  | memOperand o =>
    obtain ⟨_, -, h⟩ := bind_eq_ok.mp h
    obtain ⟨_, -, h⟩ := bind_eq_ok.mp h
    exact ⟨s.esp, by simp_all⟩
  | pop =>
    obtain ⟨-, -, rfl⟩ := State.pop_ok h
    exact s.moveStack_eq _
  | bin op a b iha ihb =>
    simp only [eval] at h
    split at h
    · exact ⟨s.esp, by simp_all⟩
    · obtain ⟨⟨_, s1⟩, h1, h⟩ := bind_eq_ok.mp h
      obtain ⟨⟨_, s2⟩, h2, h⟩ := bind_eq_ok.mp h
      obtain ⟨_, -, h⟩ := bind_eq_ok.mp h
      obtain ⟨x, rfl⟩ := iha h1
      obtain ⟨y, rfl⟩ := ihb h2
      exact ⟨y, by simp_all⟩
  | ioPermission a b iha ihb =>
    obtain ⟨⟨_, s1⟩, h1, h⟩ := bind_eq_ok.mp h
    obtain ⟨⟨_, s2⟩, h2, h⟩ := bind_eq_ok.mp h
    obtain ⟨_, -, h⟩ := bind_eq_ok.mp h
    obtain ⟨x, rfl⟩ := iha h1
    obtain ⟨y, rfl⟩ := ihb h2
    exact ⟨y, by simp_all⟩
  | bitMem g a b iha ihb =>
    obtain ⟨⟨_, s1⟩, h1, h⟩ := bind_eq_ok.mp h
    obtain ⟨⟨_, s2⟩, h2, h⟩ := bind_eq_ok.mp h
    obtain ⟨_, -, h⟩ := bind_eq_ok.mp h
    obtain ⟨_, -, h⟩ := bind_eq_ok.mp h
    obtain ⟨_, -, h⟩ := bind_eq_ok.mp h
    obtain ⟨x, rfl⟩ := iha h1
    obtain ⟨y, rfl⟩ := ihb h2
    exact ⟨y, by simp_all⟩
  | bitReg r off ih =>
    obtain ⟨⟨_, s1⟩, h1, h⟩ := bind_eq_ok.mp h
    obtain ⟨_, -, h⟩ := bind_eq_ok.mp h
    obtain ⟨_, -, h⟩ := bind_eq_ok.mp h
    obtain ⟨x, rfl⟩ := ih h1
    exact ⟨x, by simp_all⟩
  | bitOperand o off ih =>
    obtain ⟨⟨_, s1⟩, h1, h⟩ := bind_eq_ok.mp h
    obtain ⟨_, -, h⟩ := bind_eq_ok.mp h
    obtain ⟨_, -, h⟩ := bind_eq_ok.mp h
    obtain ⟨x, rfl⟩ := ih h1
    exact ⟨x, by simp_all⟩
  | truncate16 e ih =>
    obtain ⟨⟨_, s1⟩, h1, h⟩ := bind_eq_ok.mp h
    obtain ⟨_, -, h⟩ := bind_eq_ok.mp h
    obtain ⟨x, rfl⟩ := ih h1
    exact ⟨x, by simp_all⟩
  | zeroExtend e ih =>
    obtain ⟨⟨_, s1⟩, h1, h⟩ := bind_eq_ok.mp h
    obtain ⟨_, -, h⟩ := bind_eq_ok.mp h
    obtain ⟨x, rfl⟩ := ih h1
    exact ⟨x, by simp_all⟩
  | signExtend e ih =>
    obtain ⟨⟨_, s1⟩, h1, h⟩ := bind_eq_ok.mp h
    obtain ⟨_, -, h⟩ := bind_eq_ok.mp h
    obtain ⟨x, rfl⟩ := ih h1
    exact ⟨x, by simp_all⟩

/-- A form evaluated on its own answers a state with its value in `result`. -/
theorem evalForm_eq_next {e : Expr} {s t : State} :
    evalForm e s = .next t ↔ ∃ v s', eval e s = .ok (v, s') ∧ t = s'.setResult v := by
  simp only [evalForm, outcome_eq_next, bind_eq_ok]
  constructor
  · rintro ⟨⟨v, s'⟩, h, ht⟩
    exact ⟨v, s', h, by simpa using ht.symm⟩
  · rintro ⟨v, s', h, rfl⟩
    exact ⟨(v, s'), h, rfl⟩

end Sys2Proof.Machine
end

