-- ==== Sys2Proof/Laws/Sequence.lean ====
section
/-! SUPPORT. What a step can do beside running its statement: read the text, put the inputs in force, and end the local
variables of a function's body. -/

namespace Sys2Proof.Machine

/-! ## Size attributes -/

@[simp] theorem attrOfInt_bits (a : AttrSize) : attrOfInt a.bits = .ok a := by cases a <;> rfl

theorem attrOfInt_eq_ok {n : Int} {a : AttrSize} : attrOfInt n = .ok a ↔ n = a.bits := by
  constructor
  · intro h
    unfold attrOfInt at h
    split at h
    · simp_all [← Except.ok.inj h, AttrSize.bits]
    · split at h
      · simp_all [← Except.ok.inj h, AttrSize.bits]
      · simp at h
  · rintro rfl
    exact attrOfInt_bits a

/-- An input or an assigned value other than 16 and 32 is refused (R88, R89). -/
theorem attrOfInt_bad {n : Int} (h16 : n ≠ 16) (h32 : n ≠ 32) : attrOfInt n = refuse .badAttribute := by
  simp [attrOfInt, h16, h32]

/-! ## The start of a run -/

/-- Everything starting a run can do: the text is read, and the inputs are put in force. -/
theorem State.start_eq_ok {s t : State} {b : Block} :
    s.start = .ok (b, t) ↔ s.launch.read = .ok b ∧ ∃ o a : AttrSize, s.launch.operandSize = o.bits ∧
      s.launch.addressSize = a.bits ∧ t = (s.setOperandSize o).setAddressSize a := by
  simp only [State.start, bind_eq_ok, attrOfInt_eq_ok, Except.ok.injEq, Prod.mk.injEq]
  constructor
  · rintro ⟨_, hb, o, ho, a, ha, rfl, rfl⟩
    exact ⟨hb, o, a, ho, ha, rfl⟩
  · rintro ⟨hb, o, a, ho, ha, rfl⟩
    exact ⟨b, hb, o, ho, a, ha, rfl, rfl⟩

/-! ## The end of a function's body -/

/-- Ending a body changes at most the local variables. -/
theorem State.leave_eq (s : State) : ∃ l, s.leave = s.setLocals l := by
  unfold State.leave
  split
  · exact ⟨s.locals, rfl⟩
  · exact ⟨s.locals, rfl⟩
  · split
    · exact ⟨_, rfl⟩
    · exact ⟨s.locals, rfl⟩

@[simp] theorem State.leave_launch (s : State) : s.leave.launch = s.launch := by
  obtain ⟨l, h⟩ := s.leave_eq
  simp [h]

@[simp] theorem State.leave_mem (s : State) : s.leave.mem = s.mem := by
  obtain ⟨l, h⟩ := s.leave_eq
  simp [h]

@[simp] theorem State.leave_pc (s : State) : s.leave.pc = s.pc := by
  obtain ⟨l, h⟩ := s.leave_eq
  simp [h]

@[simp] theorem State.leave_addressSize (s : State) : s.leave.addressSize = s.addressSize := by
  obtain ⟨l, h⟩ := s.leave_eq
  simp [h]

theorem leaveBody_eq_next {o : Host.Outcome State Fault Refusal} {t : State} :
    leaveBody o = .next t ↔ ∃ s, o = .next s ∧ t = s.leave := by
  cases o with
  | next s => simp [leaveBody, eq_comm]
  | fault f => simp [leaveBody]
  | refused r => simp [leaveBody]

/-! ## Steps -/

/-- Everything a step can do: what remains is read, its first statement runs, and a function's body may end. -/
theorem step_eq_next {s t : State} :
    step s = .next t ↔ ∃ i rest s0 s1, s.remaining = .ok (.cons i rest, s0) ∧
      exec i (s0.setPc (.at rest)) = .next s1 ∧ t = s1.leave := by
  unfold step
  split
  · rename_i x hx
    rcases x with f | r <;> simp [outcome, hx]
  · rename_i b s0 hb
    cases b with
    | nil => simp [runFirst, hb]
    | cons i rest =>
      simp only [runFirst, leaveBody_eq_next, hb, Except.ok.injEq, Prod.mk.injEq, Block.cons.injEq]
      constructor
      · rintro ⟨s1, h, rfl⟩
        exact ⟨i, rest, s0, s1, ⟨⟨rfl, rfl⟩, rfl⟩, h, rfl⟩
      · rintro ⟨_, _, _, s1, ⟨⟨rfl, rfl⟩, rfl⟩, h, rfl⟩
        exact ⟨s1, h, rfl⟩

end Sys2Proof.Machine
end

