-- ==== Sys2Proof/Tests/Slice0.lean ====
section
/-! SUPPORT. Tests. The expected results are the source's own examples (S1 to S11 of spec/95_test_vectors.md), its
derived vectors (V1 to V106), or worked out by hand from the rule that a test names. -/

namespace Sys2Proof.Tests

open Sys2Proof.Machine

-- One kernel evaluation at a time: many at once would each take a thread of their own.
set_option Elab.async false

/-! ## Helpers -/

/-- The launch state of the vectors of spec/95_test_vectors.md: AddressSize 16, the three segment bases, TSS.base. -/
def vec : State :=
  { State.reset with addressSize := .s16, launch := { Launch.reset with
      addressSize := 16, ssBase := 0x10000, dsBase := 0x20000, esBase := 0x30000, tssBase := 0x40000 } }

/-- A state with other launch components. -/
def launched (s : State) (f : Launch → Launch) : State := { s with launch := f s.launch }

/-- Vectors with StackAddrSize = 32. -/
def vec32 : State := launched vec fun l => { l with bBit := true }

/-- The bytes of the Bit vectors in DS, and the bitmaps of set A of the I-O-Permission vectors. -/
def bits : State := vec.setMem [(0x200FE, 0x20), (0x200FF, 0x80), (0x20100, 0x01), (0x20101, 0x20)]
def setA : State := vec.setMem [(0x40066, 0x68), (0x400E7, 0xFC), (0x400E8, 0xFF)]

/-- What one instruction leaves, read through `f`; none where it stops. -/
def after {α : Type} (i : Instr) (s : State) (f : State → α) : Option α :=
  match exec i s with
  | .next t => some (f t)
  | .fault _ => none
  | .refused _ => none

/-- How one instruction stops; none where it goes on. -/
def stopOf (i : Instr) (s : State) : Option Stop :=
  match exec i s with
  | .next _ => none
  | .fault f => some (.fault f)
  | .refused r => some (.refused r)

/-- The value a form leaves in `result`. -/
def valueOf (i : Instr) (s : State) : Option Value := (after i s State.result).getD none

/-! ## WellFormed: a term that each check refuses -/

theorem test_wf_refuses_bracketed_di : (Instr.memReg .di).wf = false := by decide

theorem test_wf_refuses_bracketed_di_inside : (Instr.push (.bin .add (.num 1) (.memReg .di))).wf = false := by decide

theorem test_wf_refuses_bracketed_di_destination : (Instr.assign (.memReg .di) (.num 0)).wf = false := by decide

theorem test_wf_refuses_bracketed_di_base : (Instr.bit (.mem .ds (.memReg .di)) (.num 0)).wf = false := by decide

theorem test_wf_refuses_closed_comment : (Instr.comment [0x61, 0x2A, 0x29]).wf = false := by decide

theorem test_wf_refuses_case_without_arms : (Instr.caseOf .instruction .nil).wf = false := by decide

theorem test_wf_refuses_label_twice :
    (Instr.caseOf (.loc .width) (.cons (.num 1) .nil (.cons (.ioWidth .byte) .nil (.cons (.num 1) .nil .nil)))).wf = false := by
  decide

theorem test_wf_refuses_ill_formed_arm : (Instr.ifThen (.truth true) .nil (.cons (.memReg .esp) .nil)).wf = false := by decide

/-- R66: the form of an operand is no statement, and the call of a function is one. -/
theorem test_wf_refuses_form_as_statement : (Instr.doLoop (.cons (.reg .eax) .nil)).wf = false ∧
    (Instr.doLoop (.cons .pop .nil)).wf = true := by decide

theorem test_wf_accepts : (Instr.assign (.memSegReg .es (.reg .di)) (.memReg .si)).wf = true := by decide

/-! ## Decoding: every constructor, from its form in the opcode table -/

theorem test_decode_comment : decode (ascii "(* 2-byte value *)") = .ok (.comment (ascii " 2-byte value ")) := by
  decide +kernel

theorem test_decode_comment_inside : decode (ascii "SP(*x*)<- (* ; *) 2;") = .ok (.assign (.reg .sp) (.num 2)) := by
  decide +kernel

theorem test_decode_if : decode (ascii "IF TSS type is 16-bit THEN RETURN FALSE; FI;") =
    .ok (.ifThen .tssIs16 (.cons (.ret (.truth false)) .nil) .nil) := by decide +kernel

theorem test_decode_if_else_nested : decode (ascii "IF TRUE THEN ELSE IF FALSE THEN END FI; FI;") =
    .ok (.ifThen (.truth true) .nil (.cons (.ifThen (.truth false) (.cons .endRun .nil) .nil) .nil)) := by decide +kernel

theorem test_decode_do : decode (ascii "DO SP <- SP -2; OD;") =
    .ok (.doLoop (.cons (.assign (.reg .sp) (.bin .sub (.reg .sp) (.num 2))) .nil)) := by decide +kernel

theorem test_decode_case : decode (ascii "CASE width OF: BYTE: nBitMask <- 1; WORD: nBitMask <- 3; ESAC;") =
    .ok (.caseOf (.loc .width) (.cons (.ioWidth .byte) (.cons (.assign (.loc .nBitMask) (.num 1)) .nil)
      (.cons (.ioWidth .word) (.cons (.assign (.loc .nBitMask) (.num 3)) .nil) .nil))) := by decide +kernel

theorem test_decode_end : decode (ascii "END") = .ok .endRun := by decide +kernel

theorem test_decode_return : decode (ascii "RETURN(ret val);") = .ok (.ret (.loc .retVal)) := by decide +kernel

theorem test_decode_assign_source_symbol :
    decode (ascii "Ptr" ++ [0x11] ++ ascii " [TSS+66];") = .ok (.assign (.loc .ptr) .tssPointer) := by decide +kernel

theorem test_decode_reg : decode (ascii "EAX") = .ok (.reg .eax) := by decide +kernel

theorem test_decode_mem_reg : decode (ascii "[SI]") = .ok (.memReg .si) := by decide +kernel

theorem test_decode_mem_seg_reg : decode (ascii "SS:[ESP]") = .ok (.memSegReg .ss (.reg .esp)) := by decide +kernel

theorem test_decode_mem_operand : decode (ascii "[SRC]") = .ok (.memOperand .src) := by decide +kernel

theorem test_decode_eq : decode (ascii "StackAddrSize = 16") = .ok (.eq .stackAddrSize (.num 16)) := by decide +kernel

theorem test_decode_ne : decode (ascii "16 <> 32") = .ok (.ne (.num 16) (.num 32)) := by decide +kernel

theorem test_decode_ge : decode (ascii "32 " ++ [0xF2] ++ ascii " 16") = .ok (.ge (.num 32) (.num 16)) := by decide +kernel

theorem test_decode_le : decode (ascii "16 " ++ [0xF3] ++ ascii " 32") = .ok (.le (.num 16) (.num 32)) := by decide +kernel

theorem test_decode_mul : decode (ascii "2 * 4") = .ok (.mul (.num 2) (.num 4)) := by decide +kernel

theorem test_decode_add : decode (ascii "SP + 2") = .ok (.add (.reg .sp) (.num 2)) := by decide +kernel

theorem test_decode_sub : decode (ascii "SP -2") = .ok (.sub (.reg .sp) (.num 2)) := by decide +kernel

theorem test_decode_sub_left_to_right :
    decode (ascii "16 - 4 - -1") = .ok (.sub (.bin .sub (.num 16) (.num 4)) (.num (-1))) := by decide +kernel

theorem test_decode_and : decode (ascii "I-O-Address AND 7") = .ok (.and (.loc .ioAddress) (.num 7)) := by decide +kernel

theorem test_decode_shr : decode (ascii "SHR (03F8H, 3)") = .ok (.shr (.num 0x3F8) (.num 3)) := by decide +kernel

theorem test_decode_shl : decode (ascii "SHL (nBitMask, MaskShift)") = .ok (.shl (.loc .nBitMask) (.loc .maskShift)) := by
  decide +kernel

theorem test_decode_div : decode (ascii "-11 DIV 8") = .ok (.div (.num (-11)) (.num 8)) := by decide +kernel

theorem test_decode_mod : decode (ascii "-11 MOD 8") = .ok (.mod (.num (-11)) (.num 8)) := by decide +kernel

theorem test_decode_operand_size : decode (ascii "OperandSize") = .ok .operandSize := by decide +kernel

theorem test_decode_address_size : decode (ascii "AddressSize") = .ok .addressSize := by decide +kernel

theorem test_decode_stack_addr_size : decode (ascii "StackAddrSize") = .ok .stackAddrSize := by decide +kernel

theorem test_decode_src : decode (ascii "SRC") = .ok .src := by decide +kernel

theorem test_decode_dest : decode (ascii "DEST") = .ok .dest := by decide +kernel

theorem test_decode_left_src : decode (ascii "LeftSRC") = .ok .leftSrc := by decide +kernel

theorem test_decode_right_src : decode (ascii "RightSRC") = .ok .rightSrc := by decide +kernel

theorem test_decode_instruction : decode (ascii "instruction") = .ok .instruction := by decide +kernel

theorem test_decode_esp : decode (ascii "eSP") = .ok .eSP := by decide +kernel

theorem test_decode_cmpsw : decode (ascii "CMPSW") = .ok .cmpsw := by decide +kernel

theorem test_decode_cmpsd : decode (ascii "CMPSD") = .ok .cmpsd := by decide +kernel

theorem test_decode_truncate : decode (ascii "Truncate to 16 bits(EAX)") = .ok (.truncate16 (.reg .eax)) := by decide +kernel

theorem test_decode_addr : decode (ascii "Addr(DEST)") = .ok (.addr (.operand .dest)) := by decide +kernel

theorem test_decode_zero_extend : decode (ascii "ZeroExtend([SI])") = .ok (.zeroExtend (.memReg .si)) := by decide +kernel

theorem test_decode_sign_extend : decode (ascii "SignExtend(SRC)") = .ok (.signExtend (.operand .src)) := by decide +kernel

theorem test_decode_push : decode (ascii "Push(value);") = .ok (.push (.loc .value)) := by decide +kernel

theorem test_decode_pop : decode (ascii "Pop( )") = .ok .pop := by decide +kernel

theorem test_decode_pop_st : decode (ascii "Pop ST") = .ok .popSt := by decide +kernel

theorem test_decode_bit : decode (ascii "Bit[DS:0100H, -11]") = .ok (.bit (.mem .ds (.num 0x100)) (.num (-11))) := by
  decide +kernel

theorem test_decode_io_permission :
    decode (ascii "I-O-Permission(I-O-Address, width)") = .ok (.ioPermission (.loc .ioAddress) (.loc .width)) := by
  decide +kernel

theorem test_decode_switch_tasks : decode (ascii "Switch-Tasks") = .ok .switchTasks := by decide +kernel

/-- A table word numbers its bits from the first character up: END is 45H, 4EH, 44H. -/
theorem test_decode_table_word_end : decodeTableWord 24 0x444E45 = some .endRun := by decide +kernel

theorem test_decode_table_word_pop : decodeTableWord 48 0x292028706F50 = some .pop := by decide +kernel

theorem test_decode_table_word_bit :
    decodeTableWord 88 0x5D31322C5841455B544942 = some (.bit (.reg (.reg .eax)) (.num 21)) := by decide +kernel

theorem test_decode_table_word_machine_code : decodeTableWord 8 0xA7 = none := by decide +kernel

/-- The names are looked for longest first (R59). -/
theorem test_names_longest_first :
    (wordTokens.map fun t => t.spelling.length).Pairwise (fun a b => b ≤ a) := by decide +kernel

theorem test_decode_longest_name : decode (ascii "Switch-Tasks;") = .ok .switchTasks ∧
    decode (ascii "I-O-Address -2") = .ok (.sub (.loc .ioAddress) (.num 2)) := by decide +kernel

theorem test_hexadecimal_numeral : decode (ascii "FFFFFFF6H - F6H") = .ok (.sub (.num 0xFFFFFFF6) (.num 0xF6)) := by
  decide +kernel

/-- R55: a comment stands wherever white space may, inside a name too (log entry 11). -/
theorem test_comment_inside_a_name : decode (ascii "RETURN ret (* c *) val;") = .ok (.ret (.loc .retVal)) ∧
    decode (ascii "Pop(* c *)ST;") = .ok .popSt := by decide +kernel

/-- R97: eSP stands where a register's name does (log entry 16). -/
theorem test_decode_esp_as_a_register_name : decode (ascii "SS:[eSP]") = .ok (.memSegReg .ss .eSP) ∧
    decode (ascii "Bit[eSP, 3];") = .ok (.bit (.reg .eSP) (.num 3)) ∧
    decode (ascii "Addr(eSP);") = .ok (.addr (.reg .eSP)) := by decide +kernel

/-- The segment before the colon is the bit string's, and `[SI]` its offset (log entry 19). -/
theorem test_decode_bit_of_a_bracket : decode (ascii "Bit[ES:[SI], 1];") = .ok (.bit (.mem .es (.memReg .si)) (.num 1)) := by
  decide +kernel

/-- R57, R66: a call without its `;`, and the form of an operand in the place of a statement, are refused. -/
theorem test_refuses_unterminated_and_bare_forms :
    decodeAlgorithm (ascii "SP <- 2; Push(1)") = .error .notInGrammar ∧
    decodeAlgorithm (ascii "SP <- 2; EAX; END") = .error .notInGrammar ∧
    decode (ascii "EAX;") = .error .notInGrammar ∧ decode (ascii "(SP) <- 2;") = .error .notInGrammar := by decide +kernel

/-- Names that are no operand of Addr, and `TSS` by itself (log entries 11 and 12). -/
theorem test_refuses_addr_of_a_name : decode (ascii "Addr(ES)") = .error .notInGrammar ∧
    decode (ascii "Addr(Ptr)") = .error .notInGrammar ∧ decode (ascii "EAX <- TSS;") = .error .notInGrammar := by decide +kernel

theorem test_refuses_unclosed_comment : decodeAlgorithm (ascii "END (* x") = .error .notInGrammar := by decide +kernel

/-- A return outside a function body is refused before any statement runs (R73, R119). -/
theorem test_refuses_return_in_algorithm :
    Launch.read { Launch.reset with text := ascii "EAX <- 1; RETURN TRUE;" } = refuse .notInGrammar := by decide +kernel

/-! ## Meanings -/

theorem test_comment : exec (.comment [0x41]) vec = .next vec := rfl

theorem test_if_else_arm : after (.ifThen (.bin .eq .operandSize (.num 16)) (.cons .pop .nil) (.cons .endRun .nil))
    (vec.setPc (.at (.cons .eSP .nil))) State.pc = some (.at (.cons .endRun (.cons .eSP .nil))) := by decide +kernel

theorem test_if_needs_a_truth_value : stopOf (.ifThen (.num 1) .nil .nil) vec = some (.refused .notInGrammar) := by decide

theorem test_do : stopOf (.doLoop .nil) vec = some (.refused .doStatement) := by decide

/-- The CASE of V17 and V18. -/
def widthCase : Instr :=
  .caseOf (.loc .width) (.cons (.ioWidth .byte) (.cons (.assign (.loc .nBitMask) (.num 1)) .nil)
    (.cons (.ioWidth .word) (.cons (.assign (.loc .nBitMask) (.num 3)) .nil) .nil))

def withWidth (v : LocalValue) : State := vec.setLocals (Locals.none.set v .width)

theorem test_case_v17 : after widthCase ((withWidth (.ioWidth .word)).setPc (.at .nil)) State.pc =
    some (.at (.cons (.assign (.loc .nBitMask) (.num 3)) .nil)) := by decide +kernel

theorem test_case_v18 : stopOf widthCase (withWidth (.ioWidth .dword)) = some (.fault (.caseNoArm (.ioWidth .dword))) := by
  decide +kernel

theorem test_end_v20 : after .endRun (vec.setPc (.at (.cons .pop .nil))) State.pc = some (.at .nil) := by decide +kernel

theorem test_return : valueOf (.ret (.truth true)) (launched vec fun l => { l with body := .functionBody }) =
    some (.truth true) := by decide +kernel

theorem test_return_in_algorithm : stopOf (.ret (.truth true)) vec = some (.refused .notInGrammar) := by decide

/-- V4: only SP takes part. -/
theorem test_assign_v4 : after (.assign (.reg .sp) (.bin .add (.reg .sp) (.num 4))) (vec.setEsp 0x1234FFFE) State.esp =
    some 0x12340002#32 := by decide +kernel

/-- R78: a local variable receives "the unbounded value". -/
theorem test_assign_local : after (.assign (.loc .mask) (.bin .sub (.num 0) (.num 1))) vec (fun t => t.locals.mask) =
      some (some (.int (-1))) ∧
    stopOf (.assign (.loc .mask) .instruction) vec = some (.refused .notInGrammar) := by decide +kernel

/-- R78: `[TSS+66]` and `[BitStringAddr]` are bracketed locations, which an assignment may write. -/
theorem test_assign_tss : decode (ascii "[TSS+66] <- 1;") = .ok (.assign .tssPointer (.num 1)) ∧
    after (.assign .tssPointer (.num 0x1234)) setA (fun t => t.mem.read (setA.launch.tssBase + 102)) = some 0x34#8 ∧
    stopOf (.assign .bitString (.num 1)) vec = some (.fault (.unwrittenRead .bitStringAddr)) := by decide +kernel

theorem test_assign_v21 : stopOf (.assign (.reg .eax) (.reg .sp)) vec = some (.fault (.widthMismatch (some 16) 32)) := by
  decide +kernel

/-- V30 of eSP's storage: SP is the low half of ESP. -/
theorem test_reg_sp : valueOf (.reg .sp) (vec.setEsp 0x1234FFFE) = some (.sized 16 0xFFFE false) := by decide +kernel

theorem test_reg_di : valueOf (.reg .di) (vec.setDi 0x20) = some (.sized 16 0x20 false) := by decide +kernel

/-- R75: the byte 12H at DS:0010H; overridden to ES it is another byte. -/
def pointed : State :=
  launched ((vec.setSi 0x10).setMem [(0x20010, 0x12), (0x30010, 0x34)]) fun l => { l with memRegSize := .byte }

theorem test_mem_reg : valueOf (.memReg .si) pointed = some (.sized 8 0x12 false) := by decide +kernel

theorem test_mem_reg_overridden : valueOf (.memReg .si) (launched pointed fun l => { l with segOverride := some .es }) =
    some (.sized 8 0x34 false) := by decide +kernel

/-- V24, the write half: ES:0020H is linear 00030020H. -/
theorem test_mem_seg_reg_v24 :
    after (.assign (.memSegReg .es (.reg .di)) (.memReg .si)) (launched (pointed.setDi 0x20) fun l =>
      { l with esSizes := { l.esSizes with di := .byte } }) State.mem = some [(0x20010, 0x12), (0x30010, 0x34), (0x30020, 0x12)] := by decide +kernel

theorem test_mem_seg_reg_stack_form : valueOf (.memSegReg .ss (.reg .sp)) ((vec.setEsp 0xFC).setMem [(0x100FC, 0x78), (0x100FF, 0x12)]) =
    some (.sized 32 0x12000078 false) := by decide +kernel

/-- R42: ES:[DI] is a byte and DS:[SI] a word in one run, each of its operand's size. -/
theorem test_mem_seg_reg_sizes : valueOf (.memSegReg .ds (.reg .si)) (launched pointed fun l =>
      { l with esSizes := { l.esSizes with di := .byte }, dsSizes := { l.dsSizes with si := .word } }) =
      some (.sized 16 0x12 false) ∧
    valueOf (.memSegReg .es (.reg .di)) (launched (pointed.setDi 0x10) fun l =>
      { l with esSizes := { l.esSizes with di := .byte }, dsSizes := { l.dsSizes with si := .word } }) =
      some (.sized 8 0x34 false) := by decide +kernel

/-- R77: the word at DS:0040H holds the offset 0103H, and the byte at ES:0103H is 5AH. -/
theorem test_mem_operand : valueOf (.memOperand .src) (launched (vec.setMem [(0x20040, 0x03), (0x20041, 0x01), (0x30103, 0x5A)])
    fun l => { l with src := { kind := .mem .ds 0x40 .word, storedSize := .word, targetSeg := .es, targetSize := .byte } }) =
    some (.sized 8 0x5A false) := by decide +kernel

theorem test_mem_operand_immediate : stopOf (.memOperand .dest) (launched vec
    fun l => { l with dest := { kind := .imm .byte 1, storedSize := .word, targetSeg := .es, targetSize := .byte } }) =
    some (.refused .addrOfNonMemory) := by decide +kernel

theorem test_eq_v13 : valueOf (.eq (.num 16) (.num 32)) vec = some (.truth false) := by decide +kernel

theorem test_eq_symbol_and_integer : stopOf (.eq (.ioWidth .byte) (.num 1)) vec = some (.refused .notInGrammar) := by
  decide +kernel

theorem test_ne_v13 : valueOf (.ne (.num 16) (.num 32)) vec = some (.truth true) := by decide +kernel

theorem test_ge_v13 : valueOf (.ge (.num 16) (.num 32)) vec = some (.truth false) ∧
    valueOf (.ge (.num 16) (.num 16)) vec = some (.truth true) := by decide +kernel

/-- A register reads unsigned (R81). -/
theorem test_ge_unsigned : valueOf (.ge (.reg .eax) (.num 0)) (vec.setEax 0x80000000) = some (.truth true) := by decide +kernel

theorem test_le_v13 : valueOf (.le (.num 16) (.num 32)) vec = some (.truth true) := by decide +kernel

/-- What SignExtend gives reads as two's complement (R82, decision D30). -/
theorem test_le_signed : valueOf (.le (.signExtend (.reg .eax)) (.num 0)) (vec.setEax 0xFFFFFFF6) = some (.truth true) := by
  decide +kernel

theorem test_mul_v14 : valueOf (.mul (.num 2) (.num 4)) vec = some (.unsized 8) := by decide +kernel

theorem test_mul_v14_wraps : after (.assign (.reg .sp) (.bin .mul (.reg .sp) (.num 2))) (vec.setEsp 0xFFFF)
    State.sp = some 0xFFFE#16 := by decide +kernel

theorem test_add_exact : valueOf (.add (.reg .sp) (.num 2)) (vec.setEsp 0xFFFF) = some (.unsized 0x10001) := by decide +kernel

theorem test_sub_v1 : after (.assign (.reg .sp) (.bin .sub (.reg .sp) (.num 2))) vec State.esp = some 0x0000FFFE#32 := by
  decide +kernel

theorem test_and_v12 : valueOf (.and (.num 0x3FD) (.num 7)) vec = some (.unsized 5) ∧
    valueOf (.and (.num 0x100) (.num 0x1E0)) vec = some (.unsized 0x100) := by decide +kernel

theorem test_shr_v10 : valueOf (.shr (.num 0xFFFF) (.num 3)) vec = some (.unsized 0x1FFF) := by decide +kernel

theorem test_shr_negative : stopOf (.shr (.num (-1)) (.num 3)) vec = some (.refused .notInGrammar) := by decide +kernel

theorem test_shl_v11 : valueOf (.shl (.num 15) (.num 7)) vec = some (.unsized 0x780) := by decide +kernel

theorem test_div_v5 : valueOf (.div (.num (-11)) (.num 8)) vec = some (.unsized (-2)) := by decide +kernel

theorem test_div_by_zero : stopOf (.div (.num 1) (.num 0)) vec = some (.refused .notInGrammar) := by decide +kernel

theorem test_mod_v7 : valueOf (.mod (.num (-1)) (.num 8)) vec = some (.unsized 7) := by decide +kernel

theorem test_mod_v6 : valueOf (.mod (.num (-8)) (.num 8)) vec = some (.unsized 0) := by decide +kernel

/-- S1, the assignment that an instruction page makes. -/
theorem test_operand_size_s1 : after (.assign .operandSize (.num 16)) vec State.operandSize = some .s16 := by decide +kernel

/-- How one step stops; none where it goes on. -/
def stepStop (s : State) : Option Stop :=
  match step s with
  | .next _ => none
  | .fault f => some (.fault f)
  | .refused r => some (.refused r)

/-- V33: an input other than 16 and 32 is refused when the run starts, of either attribute (R88, R89). -/
theorem test_operand_size_v33 :
    stepStop (launched (vec.withText (ascii "END")) fun l => { l with operandSize := 8 }) =
      some (.refused .badAttribute) ∧
    stepStop (launched (vec.withText (ascii "END")) fun l => { l with addressSize := 64 }) =
      some (.refused .badAttribute) := by decide +kernel

theorem test_operand_size_bad_assignment : stopOf (.assign .operandSize (.num 8)) vec = some (.refused .badAttribute) := by decide +kernel

theorem test_address_size : valueOf .addressSize vec = some (.unsized 16) := by decide +kernel

theorem test_stack_addr_size_v30_v31 : valueOf .stackAddrSize vec = some (.unsized 16) ∧
    valueOf .stackAddrSize vec32 = some (.unsized 32) := by decide +kernel

/-- R93: SRC reads the operand with the operand's own size. -/
theorem test_src : valueOf .src (launched (vec.setMem [(0x20010, 0xF6), (0x20011, 0x01)])
    fun l => { l with src := { l.src with kind := .mem .ds 0x10 .byte } }) = some (.sized 8 0xF6 false) := by decide +kernel

theorem test_dest_assigned : after (.assign .dest (.num 0x1234)) (launched vec
    fun l => { l with dest := { l.dest with kind := .mem .es 0x10 .word } }) State.mem =
    some [(0x30010, 0x34), (0x30011, 0x12)] := by decide +kernel

theorem test_left_and_right : valueOf .leftSrc (launched vec fun l => { l with leftSrc := { l.src with kind := .reg .di } }) =
    some (.sized 16 0 false) ∧
    valueOf .rightSrc (launched vec fun l => { l with rightSrc := { l.src with kind := .imm .byte 0xF6 } }) =
    some (.sized 8 0xF6 false) := by decide +kernel

theorem test_instruction_v28 : valueOf (.eq .instruction .cmpsd) (launched vec fun l => { l with instruction := .cmpsd }) =
    some (.truth true) := by decide +kernel

theorem test_esp_v30_v31 : valueOf .eSP (vec.setEsp 0x1234FFFE) = some (.sized 16 0xFFFE false) ∧
    valueOf .eSP (vec32.setEsp 0x1234FFFE) = some (.sized 32 0x1234FFFE false) := by decide +kernel

theorem test_esp_v32 : after (.assign .eSP (.bin .add .eSP (.num 2))) (vec.setEsp 0x1234FFFE) State.esp =
    some 0x12340000#32 := by decide +kernel

theorem test_cmpsw_v34 : stopOf .cmpsw vec = some (.refused .instructionPageMissing) := by decide

theorem test_cmpsd : stopOf .cmpsd vec = some (.refused .instructionPageMissing) := by decide

theorem test_truncate_v35 : valueOf (.truncate16 (.num 0x12345678)) vec = some (.sized 16 0x5678 false) := by decide +kernel

theorem test_truncate_v37 : valueOf (.truncate16 (.bin .sub (.reg .sp) (.num 2))) vec = some (.sized 16 0xFFFE false) := by
  decide +kernel

theorem test_addr_v47 : valueOf (.addr (.operand .src)) (launched vec
    fun l => { l with src := { l.src with kind := .mem .ds 0x10 .word } }) = some (.sized 16 0x10 false) := by decide +kernel

theorem test_addr_v48 : stopOf (.addr (.reg (.reg .eax))) vec = some (.refused .addrOfNonMemory) := by decide +kernel

/-- The byte F6H as SRC. -/
def minusTen : State := launched vec fun l => { l with src := { l.src with kind := .imm .byte 0xF6 } }

theorem test_zero_extend_s2 : valueOf (.zeroExtend (.operand .src)) minusTen = some (.sized 32 0x000000F6 false) := by
  decide +kernel

theorem test_zero_extend_v45 : stopOf (.zeroExtend (.reg .eax)) (vec.setOperandSize .s16) =
    some (.fault (.widthMismatch (some 32) 16)) := by decide +kernel

theorem test_sign_extend_s3 : valueOf (.signExtend (.operand .src)) minusTen = some (.sized 32 0xFFFFFFF6 true) := by
  decide +kernel

theorem test_sign_extend_v46 : stopOf (.signExtend (.bin .add (.reg .sp) (.num 2))) vec =
    some (.fault (.widthMismatch none 32)) := by decide +kernel

theorem test_push_v50 : after (.push (.num 0x12345678)) (vec.setEsp 0xABCD0100) (fun t => (t.esp, t.mem)) =
    some (0xABCD00FC#32, [(0x100FC, 0x78), (0x100FD, 0x56), (0x100FE, 0x34), (0x100FF, 0x12)]) := by decide +kernel

theorem test_push_v55 : stopOf (.push (.num 0x1234)) ((vec.setOperandSize .s16).setEsp 1) =
    some (.fault (.notAdmitted (.reg .ss) 0xFFFF .word .write)) := by decide +kernel

/-- V64: the increment wraps within SP. -/
theorem test_pop_v64 : after .pop (((vec.setOperandSize .s16).setEsp 0xFFFE).setMem [(0x1FFFE, 0x11), (0x1FFFF, 0x22)])
    (fun t => (t.result, t.esp)) = some (some (.sized 16 0x2211 false), 0#32) := by decide +kernel

theorem test_pop_v67 : after (.assign (.reg .esp) .pop) ((vec32.setEsp 0x2000).setMem [(0x12001, 0x30)]) State.esp =
    some 0x00003000#32 := by decide +kernel

theorem test_pop_st_v69 : stopOf .popSt vec = some (.refused .fpuNotInSource) := by decide

theorem test_bit_v82 : valueOf (.bit (.mem .ds (.num 0x100)) (.num (-11))) bits = some (.sized 1 1 false) ∧
    valueOf (.bit (.mem .ds (.num 0x100)) (.num (-9))) bits = some (.sized 1 0 false) := by decide +kernel

theorem test_bit_v75 : valueOf (.bit (.reg (.reg .si)) (.num 15)) (vec.setSi 0x8000) = some (.sized 1 1 false) ∧
    stopOf (.bit (.reg (.reg .si)) (.num 16)) (vec.setSi 0x8000) = some (.fault (.bitOffsetRange 16)) := by decide +kernel

/-- R107: a bit used as an offset is 0 or 1. R10: a base that SignExtend gave is its bit pattern. -/
theorem test_bit_of_a_bit : valueOf (.bit (.reg (.reg .eax)) (.bitReg (.reg .eax) (.num 0))) (vec.setEax 3) =
      some (.sized 1 1 false) ∧
    valueOf (.bit (.mem .ds (.signExtend (.operand .src))) (.num 4)) (launched ((vec.setOperandSize .s16).setMem [(0x2FFF6, 0x10)])
      fun l => { l with src := { l.src with kind := .imm .byte 0xF6 } }) = some (.sized 1 1 false) := by decide +kernel

/-- Decision D24: the sum is over the integers, and is not wrapped. -/
theorem test_bit_base_d24 : stopOf (.bit (.mem .ds (.num 0x10000)) (.num 0)) bits =
      some (.fault (.notAdmitted (.reg .ds) 0x10000 .byte .read)) ∧
    valueOf (.bit (.mem .ds (.num 0x10000)) (.num (-8))) (bits.setMem [(0x2FFFF, 1)]) = some (.sized 1 1 false) := by
  decide +kernel

theorem test_bit_of_esp : valueOf (.bit (.reg .eSP) (.num 15)) (vec.setEsp 0x8000) = some (.sized 1 1 false) ∧
    stopOf (.bit (.reg .eSP) (.num 16)) (vec.setEsp 0x8000) = some (.fault (.bitOffsetRange 16)) := by decide +kernel

theorem test_io_permission_v91_v92 : valueOf (.ioPermission (.num 0x3F8) (.ioWidth .word)) setA = some (.truth true) ∧
    valueOf (.ioPermission (.num 0x3F9) (.ioWidth .word)) setA = some (.truth false) := by decide +kernel

/-- V104: a width that is none of the three names, `instruction` among them. -/
theorem test_io_permission_v104 : stopOf (.ioPermission (.num 0x3F8) .instruction) setA =
      some (.fault (.caseNoArm (.name setA.launch.instruction))) ∧
    stopOf (.ioPermission (.num 0x3F8) (.num 1)) setA = some (.fault (.caseNoArm (.unsized 1))) := by decide +kernel

/-- V95: the fourth address lies in the next byte of the bitmap. -/
theorem test_io_permission_v95 : valueOf (.ioPermission (.num 0x3FD) (.ioWidth .dword))
    (vec.setMem [(0x40066, 0x68), (0x400E8, 0x01)]) = some (.truth false) := by decide +kernel

theorem test_switch_tasks_v106 : stopOf .switchTasks vec = some (.refused .switchTasks) := by decide

/-! ## Steps -/

/-- A step from reset with a table word placed runs that word: Pop takes the doubleword of zeros at SS:0000H. -/
theorem test_step_runs_the_table_word :
    (match step (State.reset.withFetchWord 48 0x292028706F50) with
      | .next t => some (t.esp, t.result)
      | .fault _ => none
      | .refused _ => none) = some (4#32, some (.sized 32 0 false)) := by decide +kernel

/-- R26: the local variables of a function's body end with its last statement, and not those of an algorithm. -/
def lastAssignment (k : BodyKind) : State :=
  (launched vec fun l => { l with body := k }).setPc (.at (.cons (.assign (.loc .mask) (.num 1)) .nil))

theorem test_step_ends_the_locals :
    (match step (lastAssignment .functionBody), step (lastAssignment .algorithm) with
      | .next t, .next u => some (t.locals.mask, u.locals.mask)
      | _, _ => none) = some (none, some (.int 1)) := by decide +kernel

/-- A form that no statement holds is run as the text of its row (log entry 2). -/
theorem test_step_runs_a_form :
    (match step ((vec.setEax 5).withText (ascii "EAX")) with
      | .next t => t.result
      | .fault _ => none
      | .refused _ => none) = some (.sized 32 5 false) := by decide +kernel

/-! ## Witnesses: for each statement with hypotheses, states and operands that meet them together -/

/-- The state of an outcome that is a next state. -/
def nextOf (o : Host.Outcome State Fault Refusal) : Option State :=
  match o with
  | .next t => some t
  | .fault _ => none
  | .refused _ => none

theorem exists_next {o : Host.Outcome State Fault Refusal} (h : (nextOf o).isSome = true) : ∃ t, o = .next t := by
  cases o with
  | next t => exact ⟨t, rfl⟩
  | fault f => simp [nextOf] at h
  | refused r => simp [nextOf] at h

theorem witness_WellFormedInstructionsDecodeBack :
    WellFormed (.caseOf (.loc .width) (.cons (.ioWidth .byte)
      (.cons (.assign (.reg .sp) (.bin .mul (.bin .add (.reg .sp) (.num (-2))) (.memReg .si))) (.cons (.comment [0x2A]) .nil))
      (.cons (.num 0) (.cons (.ifThen (.truth true) .nil (.cons .endRun .nil)) .nil) .nil))) := by decide

theorem witness_DecodedAlgorithmsAreWellFormed :
    decodeAlgorithm (ascii "[SI] <- 1; END") = .ok (.cons (.assign (.memReg .si) (.num 1)) (.cons .endRun .nil)) ∧
    decodeForm (ascii "SP + [SI]") = .ok (.add (.reg .sp) (.memReg .si)) := by decide +kernel

/-- A state with a text to be run in the way named. -/
def placed (text : String) (k : BodyKind) : State := launched (vec.withText (ascii text)) fun l => { l with body := k }

theorem witness_StepRunsTheStatementAtThePosition_start : (placed "END" .functionBody).pc = .start ∧
    decodeAlgorithm (placed "END" .functionBody).launch.text = .ok (.cons .endRun .nil) ∧
    decodeAlgorithm (placed "END" .algorithm).launch.text = .ok (.cons .endRun .nil) ∧
    (Block.cons .endRun .nil).hasReturn = false ∧ decodeForm (placed "EAX" .form).launch.text = .ok (.reg .eax) ∧
    (placed "END" .algorithm).launch.operandSize = AttrSize.s32.bits ∧
    (placed "END" .algorithm).launch.addressSize = AttrSize.s16.bits := by decide +kernel

theorem witness_StepRunsTheStatementAtThePosition_stops :
    decodeAlgorithm (placed "DI" .algorithm).launch.text = .error .notInGrammar ∧
    decodeForm (placed "END" .form).launch.text = .error .notInGrammar ∧
    (placed "END" .functionBody).launch.read = .ok (.cons .endRun .nil) ∧
    (placed "" .algorithm).launch.read = .ok .nil ∧
    (launched (placed "END" .functionBody) fun l => { l with operandSize := 17 }).launch.operandSize ≠ 16 ∧
    (vec.setPc (.at .nil)).pc = .at .nil ∧ (vec.setPc (.at (.cons .pop .nil))).pc = .at (.cons .pop .nil) := by decide +kernel

/-- A state at which a Push remains, and then an END. -/
def pushing : State := vec.setPc (.at (.cons (.push (.num 1)) (.cons .endRun .nil)))

theorem witness_StepKeepsTheInvariant : Invariant pushing ∧ ∃ t, step pushing = .next t :=
  ⟨⟨by decide, show _ = true by decide⟩, exists_next (by decide +kernel)⟩

theorem witness_NoRunWritesTheLaunchComponents : pushing.pc ≠ .start ∧ ∃ t, RunsTo 2 pushing t := ⟨by decide, exists_next (o := core.run 2 pushing) (by decide +kernel)⟩

theorem witness_EachStatementMovesThePositionAsItsFormSays :
    (∃ t, step (vec.setPc (.at (.cons (.ifThen (.truth true) .nil .nil) .nil))) = .next t) ∧
    (∃ t, step (vec.setPc (.at (.cons (.caseOf (.num 0) (.cons (.num 0) .nil .nil)) .nil))) = .next t) ∧
    (∃ t, step (vec.setPc (.at (.cons .endRun (.cons .pop .nil)))) = .next t) ∧
    (∃ t, step ((launched vec fun l => { l with body := .functionBody }).setPc (.at (.cons (.ret .eSP) .nil))) = .next t) ∧
    (∃ t, step pushing = .next t) :=
  ⟨exists_next (by decide +kernel), exists_next (by decide +kernel), exists_next (by decide +kernel),
    exists_next (by decide +kernel), exists_next (by decide +kernel)⟩

theorem witness_EveryRunEndsWithinItsStatements :
    pushing.remaining = .ok (.cons (.push (.num 1)) (.cons .endRun .nil), pushing) ∧
    (vec.setPc (.at .nil)).remaining = .ok (.nil, vec.setPc (.at .nil)) := ⟨rfl, rfl⟩

theorem witness_OnlyAssignmentAndPushWriteMemory :
    (∃ t, exec (.push (.num 1)) vec = .next t) ∧ (∀ d e, Instr.push (.num 1) ≠ .assign d e) ∧
    (∃ t, exec .pop vec = .next t) ∧ (∀ d e, Instr.pop ≠ .assign d e) :=
  ⟨exists_next (by decide +kernel), by simp, exists_next (by decide +kernel), by simp⟩

/-- A comment, an IF with a comment in its arm, and an END. -/
def commented : State :=
  vec.setPc (.at (.cons (.comment []) (.cons (.ifThen (.truth true) (.cons (.comment [0x29]) .nil) .nil) (.cons .endRun .nil))))

theorem witness_CommentsHaveNoEffect : noCloser (ascii ")*") = true ∧
    (∃ b, commented.pc = .at b ∧ b.strip ≠ .nil) ∧ (∃ t, RunsTo 4 commented t ∧ t.pc = .at .nil) ∧
    (Block.cons (.comment []) .nil).strip = .nil ∧ Block.cons (.comment []) .nil ≠ .nil :=
  ⟨by decide, ⟨_, rfl, by decide⟩, ⟨vec.setPc (.at .nil), rfl, rfl⟩, rfl, by decide⟩

/-- The places before the assignment symbol and before the last `;` of `SP <- 2;`, and none at its start or its end. -/
theorem witness_CommentsHaveNoEffect_inside : WellFormed (.assign (.reg .sp) (.num 2)) ∧
    (Instr.assign (.reg .sp) (.num 2)).tokens = [.reg .sp] ++ [.assign, .num 2, .semi] ∧
    (Instr.assign (.reg .sp) (.num 2)).tokens = [.reg .sp, .assign, .num 2] ++ [.semi] ∧
    statementStart [Token.reg .sp].dropLast.getLast? [Token.reg .sp].getLast? = false ∧
    statementStart [Token.reg .sp, .assign, .num 2].dropLast.getLast? [Token.reg .sp, .assign, .num 2].getLast? = false ∧
    statementStart ([] : List Token).dropLast.getLast? ([] : List Token).getLast? = true := by decide

theorem witness_IfRunsTheSelectedArm : (vec.setPc (.at .nil)).pc = .at .nil ∧
    eval (.truth true) (vec.setPc (.at .nil)) = .ok (.truth true, vec.setPc (.at .nil)) ∧
    eval (.truth false) (vec.setPc (.at .nil)) = .ok (.truth false, vec.setPc (.at .nil)) ∧
    eval (.num 1) vec = .ok (.unsized 1, vec) ∧ (∀ b, Value.unsized 1 ≠ .truth b) ∧
    eval .popSt vec = .error (.refused .fpuNotInSource) := ⟨rfl, rfl, rfl, rfl, by simp, rfl⟩

theorem witness_CaseRunsTheArmWithTheLabel :
    (Arms.cons (.num 0) .nil (.cons (.ioWidth .dword) (.cons .endRun .nil) .nil)).wf = true ∧
    eval (.ioWidth .dword) (vec.setPc (.at .nil)) = .ok (.ioWidth .dword, vec.setPc (.at .nil)) ∧
    (Arms.cons (.num 0) .nil (.cons (.ioWidth .dword) (.cons .endRun .nil) .nil)).Has (.ioWidth .dword) (.cons .endRun .nil) ∧
    (Label.ioWidth .dword).Equals (.ioWidth .dword) ∧ (vec.setPc (.at .nil)).pc = .at .nil ∧
    eval (.reg .sp) vec = .ok (.sized 16 0 false, vec) ∧ (Label.num 0).Equals (.sized 16 0 false) :=
  ⟨by decide, rfl, .inr (.inl ⟨rfl, rfl⟩), rfl, rfl, rfl, rfl⟩

theorem witness_CaseRunsTheArmWithTheLabel_stops : eval .instruction vec = .ok (.name .other, vec) ∧
    eval .popSt vec = .error (.refused .fpuNotInSource) := ⟨rfl, rfl⟩

theorem witness_CaseRunsTheArmWithTheLabel_none : (Arms.cons (.num 0) .nil .nil).wf = true ∧
    eval (.num (-1)) vec = .ok (.unsized (-1), vec) ∧ (∀ n, Value.unsized (-1) ≠ .name n) ∧
    (∀ l b, (Arms.cons (.num 0) .nil .nil).Has l b → ¬ l.Equals (.unsized (-1))) := by
  refine ⟨by decide, rfl, by simp, ?_⟩
  rintro l b (⟨rfl, rfl⟩ | h)
  · simp [Label.Equals, Value.int?]
  · exact h.elim

theorem witness_EndEndsTheRun : (vec.setPc (.at (.cons .endRun (.cons .pop .nil)))).pc = .at (.cons .endRun (.cons .pop .nil)) ∧
    vec.launch.body = .algorithm ∧ (launched vec fun l => { l with body := .functionBody }).launch.body = .functionBody :=
  ⟨rfl, rfl, rfl⟩

theorem witness_ReturnEndsTheFunctionBody :
    (launched vec fun l => { l with body := .functionBody }).launch.body = .functionBody ∧
    eval .eSP (launched vec fun l => { l with body := .functionBody }) =
      .ok (.sized 16 0 false, launched vec fun l => { l with body := .functionBody }) ∧
    eval .popSt (launched vec fun l => { l with body := .functionBody }) = .error (.refused .fpuNotInSource) ∧
    vec.launch.body ≠ .functionBody := ⟨rfl, rfl, rfl, by decide⟩

theorem witness_ReturnEndsTheFunctionBody_read : (placed "RETURN TRUE;" .algorithm).launch.body = .algorithm ∧
    decodeAlgorithm (placed "RETURN TRUE;" .algorithm).launch.text = .ok (.cons (.ret (.truth true)) .nil) ∧
    (Block.cons (.ret (.truth true)) .nil).hasReturn = true := by decide +kernel

/-- A truth value, a symbolic constant and an instruction's name: what the clauses on symbolic values speak of. -/
theorem witness_symbolic_values : eval (.truth true) vec = .ok (.truth true, vec) ∧
    eval (.ioWidth .word) vec = .ok (.ioWidth .word, vec) ∧ eval .instruction vec = .ok (.name .other, vec) ∧
    Symbolic (.truth true) ∧ Symbolic (.ioWidth .word) ∧ Symbolic (.name .other) := ⟨rfl, rfl, rfl, rfl, rfl, rfl⟩

theorem witness_AssignmentToARegister :
    eval (.num (-2)) vec = .ok (.unsized (-2), vec) ∧ Fits (.unsized (-2)) (Reg.width .sp) 0xFFFE#16 ∧
    eval (.reg .esp) vec = .ok (.sized 32 0 false, vec) ∧ Fits (.sized 32 0 false) (Reg.width .eax) 0#32 ∧
    CarriesOtherWidth (.sized 32 0 false) 32 (Reg.width .sp) :=
  ⟨rfl, .inr ⟨-2, rfl, rfl⟩, rfl, .inl ⟨false, rfl⟩, by decide, 0, false, rfl⟩

/-- DEST a register, and DEST an immediate. -/
def destIs (k : OperandKind) : State := launched vec fun l => { l with dest := { l.dest with kind := k } }

theorem witness_AssignmentToESPAndToARegisterDEST : vec32.launch.bBit = true ∧ vec.launch.bBit = false ∧
    (destIs (.reg .si)).launch.dest.kind = .reg .si ∧ (destIs (.imm .byte 1)).launch.dest.kind = .imm .byte 1 ∧
    eval (.num 0) (destIs (.imm .byte 1)) = .ok (.unsized 0, destIs (.imm .byte 1)) := ⟨rfl, rfl, rfl, rfl, rfl⟩

theorem witness_AssignmentToALocalVariable :
    eval (.reg .sp) vec = .ok (.sized 16 0 false, vec) ∧ LocalReceives (.sized 16 0 false) (.unsized 0) ∧
    eval (.num (-1)) vec = .ok (.unsized (-1), vec) ∧ LocalReceives (.unsized (-1)) (.unsized (-1)) ∧
    eval (.truth true) vec = .ok (.truth true, vec) ∧ LocalReceives (.truth true) (.truth true) ∧
    eval .instruction vec = .ok (.name vec.launch.instruction, vec) :=
  ⟨rfl, .inl ⟨16, 0, false, rfl, rfl⟩, rfl, .inr ⟨by simp, by simp, rfl⟩, rfl, .inr ⟨by simp, by simp, rfl⟩, rfl⟩

theorem witness_AssignmentToOperandSize :
    eval (.num 16) vec = .ok (.unsized 16, vec) ∧ (Value.unsized 16).int? = some 16 ∧
    eval (.num 32) vec = .ok (.unsized 32, vec) ∧ (Value.unsized 32).int? = some 32 ∧
    eval (.num 17) vec = .ok (.unsized 17, vec) ∧ (Value.unsized 17).int? = some 17 := ⟨rfl, rfl, rfl, rfl, rfl, rfl⟩

/-- The last word and the word past it of a 16-bit offset range. -/
def topWord (off : BitVec 16) : State := launched (vec.setDi off) fun l => { l with esSizes := { l.esSizes with di := .word } }

theorem witness_AssignmentToMemory :
    eval (.num 1) (topWord 0xFFFE) = .ok (.unsized 1, topWord 0xFFFE) ∧
    (topWord 0xFFFE).destPlace (.memSegReg .es (.reg .di)) = .ok (some { seg := .reg .es, offBits := 16, off := 0xFFFE, size := .word }) ∧
    Fits (.unsized 1) 16 1#16 ∧ (topWord 0xFFFE).mem.wf = true ∧
    (topWord 0xFFFE).admits { seg := .reg .es, offBits := 16, off := 0xFFFE, size := .word } .write = true :=
  ⟨rfl, rfl, .inr ⟨1, rfl, rfl⟩, by decide, by decide +kernel⟩

theorem witness_AssignmentToMemory_stops :
    eval (.reg .eax) (topWord 0xFFFF) = .ok (.sized 32 0 false, topWord 0xFFFF) ∧
    (topWord 0xFFFF).destPlace (.memSegReg .es (.reg .di)) = .ok (some { seg := .reg .es, offBits := 16, off := 0xFFFF, size := .word }) ∧
    CarriesOtherWidth (.sized 32 0 false) 32 16 ∧
    eval (.reg .sp) (topWord 0xFFFF) = .ok (.sized 16 0 false, topWord 0xFFFF) ∧ Fits (.sized 16 0 false) 16 0#16 ∧
    (topWord 0xFFFF).admits { seg := .reg .es, offBits := 16, off := 0xFFFF, size := .word } .write = false :=
  ⟨rfl, rfl, ⟨by decide, 0, false, rfl⟩, rfl, .inl ⟨false, rfl⟩, by decide +kernel⟩

/-- A destination that cannot be reached: the word that holds the offset does not fit below the top of DS. -/
theorem witness_AssignmentToMemory_unreached :
    (match (launched vec fun l => { l with dest := { l.dest with kind := .mem .ds 0xFFFF .word, storedSize := .word } }).destPlace
        (.memOperand .dest) with
      | .error (.fault f) => some f
      | _ => none) = some (.notAdmitted (.reg .ds) 0xFFFF .word .read) := by decide +kernel

/-- The last doubleword of a 16-bit range, the place past it, a place below 0, and one that an entry denies. -/
theorem witness_AssignmentToMemory_admission :
    Within { seg := .tss, offBits := 16, off := 0xFFFC, size := .dword } ∧
    ¬ Within { seg := .tss, offBits := 16, off := 0xFFFD, size := .dword } ∧
    ¬ Within { seg := .tss, offBits := 16, off := -1, size := .byte } ∧
    Denied (launched vec fun l => { l with denied := [{ seg := .tss, kind := .read, size := .word, first := 1, last := 2 }] })
      { seg := .tss, offBits := 16, off := 2, size := .word } .read ∧
    ¬ Denied vec { seg := .tss, offBits := 16, off := 2, size := .word } .read :=
  ⟨⟨by decide, by decide⟩, fun h => absurd h.2 (by decide), fun h => absurd h.1 (by decide),
    ⟨_, List.mem_singleton.mpr rfl, by decide⟩, fun ⟨_, h, _⟩ => by cases h⟩

theorem witness_RegisterNamesReadAsTheirContents : vec32.launch.bBit = true ∧ vec.launch.bBit = false := ⟨rfl, rfl⟩

/-- What `BitStringAddr` may hold when it is a destination's address. -/
theorem witness_AssignmentToMemory_bitString :
    (vec.setLocals (Locals.none.set (.int (-1)) .bitStringAddr)).locals.get .bitStringAddr = some (.unsized (-1)) ∧
    vec.locals.get .bitStringAddr = none ∧
    (vec.setLocals (Locals.none.set (.truth true) .bitStringAddr)).locals.get .bitStringAddr = some (.truth true) ∧
    Symbolic (.truth true) := ⟨rfl, rfl, rfl, rfl⟩

theorem witness_BracketedSIIsInTheDefaultOrOverridingSegment :
    (vec.setSi 0xFFFC).admits { seg := .reg .ds, offBits := 16, off := 0xFFFC, size := .dword } .read = true ∧
    (vec.setSi 0xFFFD).admits { seg := .reg .ds, offBits := 16, off := 0xFFFD, size := .dword } .read = false ∧
    (launched vec fun l => { l with segOverride := some .es }).launch.segOverride.getD .ds = .es := by decide +kernel

theorem witness_SegmentQualifiedBracketsAreInTheirSegment :
    Names vec32 .eSP .esp ∧ Names vec .eSP .sp ∧ Names vec (.reg .di) .di :=
  ⟨.inr ⟨rfl, rfl⟩, .inr ⟨rfl, rfl⟩, .inl rfl⟩

theorem witness_SegmentQualifiedBracketsAreInTheirSegment_places :
    (vec32.setEsp 0xFFFFFFFC).memSegRegPlace .ss .esp = { seg := .reg .ss, offBits := 32, off := 0xFFFFFFFC, size := .dword } ∧
    (vec32.setEsp 0xFFFFFFFC).admits { seg := .reg .ss, offBits := 32, off := 0xFFFFFFFC, size := .dword } .read = true ∧
    (vec32.setEsp 0xFFFFFFFD).admits { seg := .reg .ss, offBits := 32, off := 0xFFFFFFFD, size := .dword } .read = false ∧
    (topWord 0xFFFE).memSegRegPlace .es .di = { seg := .reg .es, offBits := 16, off := 0xFFFE, size := .word } ∧
    (topWord 0xFFFE).admits { seg := .reg .es, offBits := 16, off := 0xFFFE, size := .word } .read = true ∧
    (topWord 0xFFFF).admits { seg := .reg .es, offBits := 16, off := 0xFFFF, size := .word } .read = false := by decide +kernel

/-- SRC is the word at DS:0040H, which holds `off`, the offset of a byte of ES, or of a word. -/
def srcStored (lo hi : Byte) (size : Size) : State :=
  launched (vec.setMem [(0x20040, lo), (0x20041, hi)]) fun l =>
    { l with src := { kind := .mem .ds 0x10040 .word, storedSize := .word, targetSeg := .es, targetSize := size } }

theorem witness_BracketedOperandsAreIndirect :
    ((srcStored 0xFF 0xFF .byte).operandOf .src).kind = .mem .ds 0x10040 .word ∧
    (srcStored 0xFF 0xFF .byte).admits { seg := .reg .ds, offBits := 16, off := 0x40, size := .word } .read = true ∧
    (srcStored 0xFF 0xFF .byte).mem.read 0x20040 = 0xFF ∧ (srcStored 0xFF 0xFF .byte).mem.read 0x20041 = 0xFF ∧
    (srcStored 0xFF 0xFF .byte).admits { seg := .reg .es, offBits := 16, off := 0xFFFF, size := .byte } .read = true ∧
    (srcStored 0xFF 0xFF .word).admits { seg := .reg .es, offBits := 16, off := 0xFFFF, size := .word } .read = false ∧
    ((destIs (.reg .si)).operandOf .dest).kind = .reg .si ∧ ((destIs (.imm .byte 1)).operandOf .dest).kind = .imm .byte 1 := by
  decide +kernel

/-- The read of the stored offset does not fit below the top of DS. -/
theorem witness_BracketedOperandsAreIndirect_unread :
    (launched vec fun l => { l with src := { l.src with kind := .mem .ds 0xFFFF .word, storedSize := .word } }).admits
      { seg := .reg .ds, offBits := 16, off := 0xFFFF, size := .word } .read = false := by decide +kernel

theorem witness_BracketedOperandsAreIndirect_stored : HoldsBytes (srcStored 0xFF 0xFF .byte).mem 0x20040 2 0xFFFF := by
  intro i hi
  obtain rfl | rfl : i = 0 ∨ i = 1 := by omega
  · decide +kernel
  · decide +kernel

theorem witness_OperandIdentifiersReadTheirOperand :
    (destIs (.reg .si)).launch.dest.kind = .reg .si ∧ (destIs (.imm .dword 1)).launch.dest.kind = .imm .dword 1 ∧
    (destIs (.mem .es 0xFFFE .word)).launch.dest.kind = .mem .es 0xFFFE .word ∧
    (destIs (.mem .es 0xFFFE .word)).launch.dest ≠ (destIs (.mem .es 0xFFFE .word)).launch.src ∧
    vec.admits { seg := .reg .es, offBits := 16, off := 0xFFFE, size := .word } .read = true ∧
    vec.admits { seg := .reg .es, offBits := 16, off := 0xFFFF, size := .word } .read = false := by decide +kernel

theorem witness_LocalVariablesReadAfterTheirAssignment : vec.locals.get .retVal = none ∧
    (withWidth (.int 1)).locals.get .width = some (.unsized 1) ∧
    (withWidth (.ioWidth .word)).locals.get .width = some (.ioWidth .word) := ⟨rfl, rfl, rfl⟩

/-- Two integers, either sign, met by every operator's hypotheses on its operands. -/
theorem witness_operands_are_integers :
    eval (.num (-3)) vec = .ok (.unsized (-3), vec) ∧ eval (.reg .eax) vec = .ok (.sized 32 0 false, vec) ∧
    (Value.unsized (-3)).int? = some (-3) ∧ (Value.sized 32 0 false).int? = some 0 := ⟨rfl, rfl, rfl, rfl⟩

theorem witness_RelationalOperatorsCompareIntegers : ∃ va vb x y,
    eval (.num (-3)) vec = .ok (va, vec) ∧ eval (.reg .eax) vec = .ok (vb, vec) ∧ va.int? = some x ∧ vb.int? = some y :=
  ⟨_, _, _, _, rfl, rfl, rfl, rfl⟩

theorem witness_SymbolicConstantsCompareByName : nameTest .eq (.truth true) (.ioWidth .byte) = none ∧
    eval (.truth true) vec = .ok (.truth true, vec) ∧ eval (.ioWidth .byte) vec = .ok (.ioWidth .byte, vec) ∧
    Symbolic (.truth true) ∧ Symbolic (.ioWidth .byte) ∧ (∀ n, Value.truth true ≠ .name n) ∧ (∀ n, Value.ioWidth .byte ≠ .name n) :=
  ⟨rfl, rfl, rfl, rfl, rfl, by simp, by simp⟩

theorem witness_SymbolicConstantsCompareByName_stops :
    nameTest .eq (.truth true) (.num 1) = none ∧ eval (.num 1) vec = .ok (.unsized 1, vec) ∧ ¬ Symbolic (.unsized 1) ∧
    nameTest .eq (.truth true) .instruction = none ∧ eval .instruction vec = .ok (.name .other, vec) :=
  ⟨rfl, rfl, by simp [Symbolic, Value.int?], rfl, rfl⟩

theorem witness_ArithmeticIsExact : ∃ va vb x y,
    eval (.reg .sp) vec = .ok (va, vec) ∧ eval (.num (-2)) vec = .ok (vb, vec) ∧ va.int? = some x ∧ vb.int? = some y :=
  ⟨_, _, _, _, rfl, rfl, rfl, rfl⟩

theorem witness_AndIsBitwise : eval (.num 0) vec = .ok (.unsized 0, vec) ∧ eval (.reg .eax) vec = .ok (.sized 32 0 false, vec) ∧
    (Value.unsized 0).bitsInt = .ok ((0 : Nat) : Int) ∧ (Value.sized 32 0 false).bitsInt = .ok ((0 : Nat) : Int) :=
  ⟨rfl, rfl, rfl, rfl⟩

theorem witness_AndOfANegativeIntegerRuns : eval (.num (-1)) vec = .ok (.unsized (-1), vec) ∧
    eval (.num 7) vec = .ok (.unsized 7, vec) ∧ (Value.unsized (-1)).bitsInt = .ok (-1) ∧ (Value.unsized 7).bitsInt = .ok 7 ∧
    ((-1 : Int) < 0 ∨ (7 : Int) < 0) := ⟨rfl, rfl, rfl, rfl, by decide⟩

theorem witness_ShiftsDivideAndMultiplyByPowersOfTwo :
    eval (.num 15) vec = .ok (.unsized 15, vec) ∧ eval (.num 0) vec = .ok (.unsized 0, vec) ∧
    (Value.unsized 15).bitsInt = .ok ((15 : Nat) : Int) ∧ (Value.unsized 0).bitsInt = .ok ((0 : Nat) : Int) ∧
    eval (.num (-1)) vec = .ok (.unsized (-1), vec) ∧ (Value.unsized (-1)).bitsInt = .ok (-1) ∧ (-1 : Int) < 0 :=
  ⟨rfl, rfl, rfl, rfl, rfl, rfl, by decide⟩

theorem witness_DivRoundsDownAndModIsNonNegative :
    eval (.num (-11)) vec = .ok (.unsized (-11), vec) ∧ (Value.unsized (-11)).int? = some (-11) ∧
    eval (.num 8) vec = .ok (.unsized 8, vec) ∧ (Value.unsized 8).int? = some 8 ∧
    eval (.num (-8)) vec = .ok (.unsized (-8), vec) ∧ (Value.unsized (-8)).int? = some (-8) ∧
    eval (.num 0) vec = .ok (.unsized 0, vec) ∧ (Value.unsized 0).int? = some 0 := ⟨rfl, rfl, rfl, rfl, rfl, rfl, rfl, rfl⟩

theorem witness_DivModAndTruncateStandOnTheirOwn : eval (.reg .eax) vec = .ok (.sized 32 0 false, vec) ∧
    (Value.sized 32 0 false).int? = some 0 ∧ eval (.num 8) vec = .ok (.unsized 8, vec) ∧ (Value.unsized 8).int? = some 8 ∧
    (Value.sized 32 0 false).bitsInt = .ok 0 := ⟨rfl, rfl, rfl, rfl, rfl⟩

theorem witness_OperandsStopTheStatement : eval .popSt vec = .error (.refused .fpuNotInSource) ∧
    nameTest .eq .popSt .cmpsw = none ∧ (Expr.bin .eq .popSt .cmpsw).toInstr = some (.eq .popSt .cmpsw) ∧
    nameTest .eq .eSP .cmpsw = none ∧ (Expr.bin .eq .eSP .cmpsw).toInstr = some (.eq .eSP .cmpsw) ∧
    eval .eSP vec = .ok (.sized 16 0 false, vec) ∧ eval .cmpsw vec = .error (.refused .instructionPageMissing) :=
  ⟨rfl, rfl, rfl, rfl, rfl, rfl, rfl⟩

theorem witness_OperandsStopTheStatement_second : eval (.num 0) vec = .ok (.unsized 0, vec) ∧
    eval .popSt vec = .error (.refused .fpuNotInSource) := ⟨rfl, rfl⟩

theorem witness_TruncateKeepsTheValueModulo65536 : eval (.reg .eax) vec = .ok (.sized 32 0 false, vec) ∧
    eval (.num (-1)) vec = .ok (.unsized (-1), vec) ∧
    eval (.signExtend (.reg .eax)) vec = .ok (.sized 32 0 true, vec) := ⟨rfl, rfl, rfl⟩

/-- Met by ZeroExtend and SignExtend alike: a byte, a value of the same size, a wider one, one without a width. -/
theorem witness_ZeroExtendKeepsTheUnsignedValue :
    eval (.operand .src) minusTen = .ok (.sized 8 0xF6 false, minusTen) ∧ 8 ≤ minusTen.operandSize.bits ∧
    eval (.reg .eax) vec = .ok (.sized 32 0 false, vec) ∧ 32 ≤ vec.operandSize.bits ∧
    eval (.reg .eax) (vec.setOperandSize .s16) = .ok (.sized 32 0 false, vec.setOperandSize .s16) ∧
    (vec.setOperandSize .s16).operandSize.bits < 32 ∧ eval (.num 1) vec = .ok (.unsized 1, vec) :=
  ⟨rfl, by decide, rfl, by decide, rfl, by decide, rfl⟩

theorem witness_SignExtendCopiesTheTopBit :
    eval (.operand .src) minusTen = .ok (.sized 8 0xF6 false, minusTen) ∧ 8 ≤ minusTen.operandSize.bits ∧
    eval (.reg .eax) (vec.setOperandSize .s16) = .ok (.sized 32 0 false, vec.setOperandSize .s16) ∧
    (vec.setOperandSize .s16).operandSize.bits < 32 ∧ eval (.num 1) vec = .ok (.unsized 1, vec) :=
  ⟨rfl, by decide, rfl, by decide, rfl⟩

theorem witness_AddrIsTheEffectiveAddress : ((destIs (.mem .es 0x1FFFF .byte)).operandOf .dest).kind = .mem .es 0x1FFFF .byte ∧
    ((destIs (.reg .esp)).operandOf .dest).kind = .reg .esp ∧ ((destIs (.imm .word 2)).operandOf .dest).kind = .imm .word 2 :=
  ⟨rfl, rfl, rfl⟩

/-- V53 and V55: the lowest stack pointers of a word Push. -/
def pushWord (esp : BitVec 32) : State := (vec.setOperandSize .s16).setEsp esp

theorem witness_PushStoresBelowTheStackPointer :
    eval (.num 0x1234) (pushWord 0) = .ok (.unsized 0x1234, pushWord 0) ∧ Fits (.unsized 0x1234) 16 0x1234#16 ∧
    (pushWord 0).mem.wf = true ∧ Within ((pushWord 0).moveStack (-2)).stackTop ∧
    ¬ Denied ((pushWord 0).moveStack (-2)) ((pushWord 0).moveStack (-2)).stackTop .write ∧
    ¬ Within ((pushWord 1).moveStack (-2)).stackTop ∧
    eval (.reg .eax) (pushWord 0) = .ok (.sized 32 0 false, pushWord 0) ∧ CarriesOtherWidth (.sized 32 0 false) 32 16 :=
  ⟨rfl, .inr ⟨_, rfl, rfl⟩, by decide, ⟨by decide +kernel, by decide +kernel⟩, fun ⟨_, h, _⟩ => (by cases h),
    fun h => absurd h.2 (by decide +kernel), rfl, by decide, 0, false, rfl⟩

theorem witness_PopTakesTheTopOfTheStack : Within (pushWord 0xFFFE).stackTop ∧
    ¬ Denied (pushWord 0xFFFE) (pushWord 0xFFFE).stackTop .read ∧ ¬ Within (pushWord 0xFFFF).stackTop ∧
    Within (vec32.setEsp 0xFFFFFFFC).stackTop ∧ vec32.launch.bBit = true :=
  ⟨⟨by decide +kernel, by decide +kernel⟩, fun ⟨_, h, _⟩ => (by cases h), fun h => absurd h.2 (by decide +kernel),
    ⟨by decide +kernel, by decide +kernel⟩, rfl⟩

theorem witness_EaxReceivesThePoppedDoubleword : vec32.operandSize = .s32 ∧ vec32.admits vec32.stackTop .read = true ∧
    (pushWord 0).operandSize = .s16 ∧ (pushWord 0).admits (pushWord 0).stackTop .read = true ∧
    (pushWord 0xFFFF).admits (pushWord 0xFFFF).stackTop .read = false := by decide +kernel

theorem witness_PopAfterPushGivesThePushedValue : vec.mem.wf = true ∧
    eval (.num 0x12345678) (vec.setEsp 0x100) = .ok (.unsized 0x12345678, vec.setEsp 0x100) ∧
    Fits (.unsized 0x12345678) 32 0x12345678#32 ∧
    (after (.push (.num 0x12345678)) (vec.setEsp 0x100) fun t =>
      (t.setOperandSize .s16).admits (t.setOperandSize .s16).stackTop .read && t.admits t.stackTop .read) = some true ∧
    (after (.push (.num 0x1234)) (pushWord 0x100) fun t =>
      (t.setOperandSize .s32).admits (t.setOperandSize .s32).stackTop .read) = some true :=
  ⟨by decide, rfl, .inr ⟨_, rfl, rfl⟩, by decide +kernel, by decide +kernel⟩

theorem witness_BitOfARegister : Names vec (.reg .eax) .eax ∧ Names vec .eSP .sp ∧ eval (.num 31) vec = .ok (.unsized 31, vec) ∧ (Value.unsized 31).signedInt = .ok 31 ∧
    (31 : Int) < Reg.width .eax ∧ ¬ (31 : Int) < Reg.width .si ∧
    eval (.num (-1)) vec = .ok (.unsized (-1), vec) ∧ (Value.unsized (-1)).signedInt = .ok (-1) :=
  ⟨.inl rfl, .inr ⟨rfl, rfl⟩, rfl, rfl, by decide, by decide, rfl, rfl⟩

theorem witness_BitOfMemory : eval (.num 0x100) bits = .ok (.unsized 0x100, bits) ∧ (Value.unsized 0x100).bitsInt = .ok 0x100 ∧
    eval (.num (-11)) bits = .ok (.unsized (-11), bits) ∧ (Value.unsized (-11)).signedInt = .ok (-11) ∧
    bits.admits { seg := .reg .ds, offBits := 16, off := 0x100 + -11 / 8, size := .byte } .read = true ∧
    bits.admits { seg := .reg .ds, offBits := 16, off := 0x10000 + 0 / 8, size := .byte } .read = false ∧
    bits.admits { seg := .reg .ds, offBits := 16, off := 0x10000 + -8 / 8, size := .byte } .read = true ∧
    eval (.num 2147483648) bits = .ok (.unsized 2147483648, bits) ∧ (Value.unsized 2147483648).signedInt = .ok 2147483648 :=
  ⟨rfl, rfl, rfl, rfl, by decide +kernel, by decide +kernel, by decide +kernel, rfl, rfl⟩

theorem witness_BitOfAnOperandHasTheFormOfItsKind_immediate :
    ((destIs (.imm .byte 1)).operandOf .dest).kind = .imm .byte 1 ∧
    eval (.num 0) (destIs (.imm .byte 1)) = .ok (.unsized 0, destIs (.imm .byte 1)) := ⟨rfl, rfl⟩

theorem witness_BitOfAnOperandHasTheFormOfItsKind : ((destIs (.reg .esp)).operandOf .dest).kind = .reg .esp ∧
    ((destIs (.mem .es 0x1FFFF .byte)).operandOf .dest).kind = .mem .es 0x1FFFF .byte := ⟨rfl, rfl⟩

theorem witness_BitOfMemoryAgreesWithTheStoredImage :
    bits.memRead { seg := .reg .ds, offBits := 16, off := 0x100, size := .word } = .ok 0x2001#16 ∧ 15 < Size.word.bits ∧
    bits.admits (bits.bitPlace .ds 0x100 15) .read = true := by decide +kernel

theorem witness_IoPermissionTestsEveryCoveredAddress :
    eval (.num 0x3FF) setA = .ok (.unsized 0x3FF, setA) ∧ eval (.ioWidth .dword) setA = .ok (.ioWidth .dword, setA) ∧
    (Value.unsized 0x3FF).bitsInt = .ok ((0x3FF : Nat) : Int) ∧ setA.launch.tssType = .other ∧
    setA.admits (pointerPlace setA) .read = true ∧ setA.admits (bitmapPlace setA 0x3FF) .read = true ∧
    (launched setA fun l => { l with tssType := .t16 }).launch.tssType = .t16 :=
  ⟨rfl, rfl, rfl, rfl, by decide +kernel, by decide +kernel, rfl⟩

/-- V101: the word at TSS+E7H is not admitted; and a TSS whose pointer is not admitted. -/
def denies (first : Nat) : State :=
  launched setA fun l => { l with denied := [{ seg := .tss, kind := .read, size := .word, first := first, last := first }] }

theorem witness_IoPermissionOfA16BitTssAndItsStops :
    (denies 0x66).admits (pointerPlace (denies 0x66)) .read = false ∧
    (denies 0xE7).admits (pointerPlace (denies 0xE7)) .read = true ∧
    (denies 0xE7).admits (bitmapPlace (denies 0xE7) 0x3F8) .read = false ∧
    (denies 0xE7).launch.tssType = .other ∧ (∀ x, Value.unsized 1 ≠ .ioWidth x) ∧
    (∀ x, Value.name .cmpsw ≠ .ioWidth x) ∧ (Value.unsized 0x3F8).bitsInt = .ok ((0x3F8 : Nat) : Int) ∧
    (Value.unsized (-1)).bitsInt = .ok (-1) ∧ Symbolic (.truth true) :=
  ⟨by decide +kernel, by decide +kernel, by decide +kernel, rfl, by simp, by simp, rfl, rfl, rfl⟩

theorem witness_EvaluationMovesAtMostTheStackPointer :
    eval (.bin .add .pop (.num 1)) vec = .ok (.unsized 1, vec.setEsp 4) ∧ vec.launch.bBit = false ∧
    eval .eSP vec = .ok (.sized 16 0 false, vec) ∧ Expr.callsPop .eSP = false := ⟨rfl, rfl, rfl, rfl⟩

theorem witness_FormsKeepTheirValueInResult : Instr.toExpr .pop = some .pop ∧
    eval .pop vec = .ok (.sized 32 0 false, vec.setEsp 4) ∧ (∃ t, exec .pop vec = .next t) ∧
    Instr.toExpr .cmpsw = some .cmpsw ∧ eval .cmpsw vec = .error (.refused .instructionPageMissing) :=
  ⟨rfl, rfl, exists_next (by decide +kernel), rfl, rfl⟩

/-- A run of one of the document's texts, with the arguments in the local variables. -/
def running (text : List Byte) (l : Locals) : State := (setA.withText text).setLocals l

theorem running_begun (text : List Byte) (l : Locals) : Begun (running text l) := ⟨rfl, rfl⟩

theorem witness_texts_are_bodies : (running Source.pushText .none).launch.body = .functionBody ∧
    (running Source.popText .none).launch.body = .functionBody ∧
    (running Source.ioPermissionText .none).launch.body = .functionBody := by decide +kernel

theorem witness_PushTextComputesPush :
    (running Source.pushText (Locals.none.set (.int 1) .value)).pc = .start ∧
    LocalReceives (.sized 32 1 false) (.unsized 1) ∧
    (running Source.pushText (Locals.none.set (.int 1) .value)).locals.get .value = some (.unsized 1) ∧
    ∃ t, (running Source.pushText (Locals.none.set (.int 1) .value)).push (.sized 32 1 false) = .ok t :=
  ⟨rfl, .inl ⟨32, 1, false, rfl, rfl⟩, rfl, _, rfl⟩

theorem witness_PopTextComputesPop : (running Source.popText Locals.none).pc = .start ∧
    (running Source.popText Locals.none).pop =
      .ok (.sized 32 0 false, (running Source.popText Locals.none).setEsp 4) := ⟨rfl, rfl⟩

/-- `I-O-Address` and `width` of V91. -/
def askWord : Locals := (Locals.none.set (.int 0x3F8) .ioAddress).set (.ioWidth .word) .width

theorem witness_IoPermissionTextComputesIoPermission :
    (running Source.ioPermissionText askWord).locals.get .ioAddress = some (.unsized 0x3F8) ∧
    (running Source.ioPermissionText askWord).locals.get .width = some (.ioWidth .word) ∧
    (running Source.ioPermissionText askWord).ioPermission (.unsized 0x3F8) (.ioWidth .word) = .ok (.truth true) :=
  ⟨rfl, rfl, rfl⟩

end Sys2Proof.Tests
end

section
/-! PROOF. The three readings of a value (R10, R81, R85, decision D30): as an integer, as a BitOffset and as a bit pattern.
One equation for each kind of value that has the reading, and one refusal for the kinds that have none. -/

namespace Sys2Proof.Machine

/-! A value with a width. -/

@[simp] theorem Value.int?_sized_unsigned (w : Nat) (b : BitVec w) :
    (Value.sized w b false).int? = some (b.toNat : Int) := rfl

@[simp] theorem Value.int?_sized_signed (w : Nat) (b : BitVec w) : (Value.sized w b true).int? = some b.toInt := rfl

@[simp] theorem Value.bitsInt_sized (w : Nat) (b : BitVec w) (signed : Bool) :
    (Value.sized w b signed).bitsInt = .ok (b.toNat : Int) := rfl

theorem Value.signedInt_bit (b : BitVec 1) (signed : Bool) :
    (Value.sized 1 b signed).signedInt = .ok (b.toNat : Int) := rfl

theorem Value.signedInt_sized {w : Nat} (hw : w ≠ 1) (b : BitVec w) (signed : Bool) :
    (Value.sized w b signed).signedInt = .ok b.toInt :=
  congrArg Except.ok (if_neg hw)

/-- Two's complement with the modulus written as a power of integers, which is how the statements of R10 and R81 write it. -/
theorem toInt_eq_ite_sub_two_pow {w : Nat} (b : BitVec w) :
    b.toInt = if 2 * b.toNat < 2 ^ w then (b.toNat : Int) else (b.toNat : Int) - 2 ^ w := by
  rw [BitVec.toInt_eq_toNat_cond, Nat.cast_pow, Nat.cast_ofNat]

/-! A value without a width is its integer. -/

@[simp] theorem Value.int?_unsized (x : Int) : (Value.unsized x).int? = some x := rfl

@[simp] theorem Value.signedInt_unsized (x : Int) : (Value.unsized x).signedInt = .ok x := rfl

@[simp] theorem Value.bitsInt_unsized (x : Int) : (Value.unsized x).bitsInt = .ok x := rfl

/-! A symbolic constant and an instruction name. -/

theorem not_symbolic_sized (w : Nat) (b : BitVec w) (signed : Bool) : ¬ Symbolic (.sized w b signed) :=
  Option.some_ne_none _

theorem not_symbolic_unsized (x : Int) : ¬ Symbolic (.unsized x) := Option.some_ne_none _

theorem Value.signedInt_of_symbolic {v : Value} (h : Symbolic v) : v.signedInt = refuse .notInGrammar := by
  cases v with
  | sized w b signed => exact absurd h (not_symbolic_sized w b signed)
  | unsized x => exact absurd h (not_symbolic_unsized x)
  | truth | ioWidth | name => rfl

theorem Value.bitsInt_of_symbolic {v : Value} (h : Symbolic v) : v.bitsInt = refuse .notInGrammar := by
  cases v with
  | sized w b signed => exact absurd h (not_symbolic_sized w b signed)
  | unsized x => exact absurd h (not_symbolic_unsized x)
  | truth | ioWidth | name => rfl

/-- Settles O34: the equations of the three readings, kind of value by kind of value. -/
theorem valuesReadAsIntegersOffsetsAndBitPatterns : Obligations.ValuesReadAsIntegersOffsetsAndBitPatterns := by
  unfold Obligations.ValuesReadAsIntegersOffsetsAndBitPatterns
  refine ⟨fun w b signed => ?sized, fun x => ?unsized,
    fun v hv => ⟨Value.signedInt_of_symbolic hv, Value.bitsInt_of_symbolic hv⟩⟩
  case sized =>
    rw [← toInt_eq_ite_sub_two_pow]
    refine ⟨Value.int?_sized_unsigned w b, Value.int?_sized_signed w b, ?bit, fun hw => Value.signedInt_sized hw b signed,
      Value.bitsInt_sized w b signed⟩
    case bit =>
      rintro rfl
      exact Value.signedInt_bit b signed
  case unsized => exact ⟨Value.int?_unsized x, Value.signedInt_unsized x, Value.bitsInt_unsized x⟩

end Sys2Proof.Machine
end

section
/-! PROOF. The statement position and the launch components (R19 to R29): what each form of statement leaves alone and where
it moves the position, said once for each shared operation, for each form and for a step. -/

/-- Whether the statement is none of the four that R28 gives a move of their own. -/
def Sys2Proof.Instr.isSimple : Sys2Proof.Instr → Bool
  | .ifThen _ _ _ => false
  | .caseOf _ _ => false
  | .endRun => false
  | .ret _ => false
  | _ => true

namespace Sys2Proof.Machine

/-! ## Moves of the statement position -/

/-- `t` has the launch components and the AddressSize of `s`, and its statement position is `p`. -/
structure MovesTo (s : State) (p : Position) (t : State) : Prop where
  launch : t.launch = s.launch
  addressSize : t.addressSize = s.addressSize
  pc : t.pc = p

theorem MovesTo.refl (s : State) : MovesTo s s.pc s := ⟨rfl, rfl, rfl⟩

theorem MovesTo.trans {s t u : State} {p q : Position} (h : MovesTo s p t) (h' : MovesTo t q u) : MovesTo s q u :=
  ⟨h'.launch.trans h.launch, h'.addressSize.trans h.addressSize, h'.pc⟩

theorem MovesTo.setPc {s t : State} {p : Position} (h : MovesTo s p t) (q : Position) : MovesTo s q (t.setPc q) :=
  ⟨h.launch, h.addressSize, rfl⟩

/-! ## The shared operations leave the position alone -/

theorem eval_movesTo {e : Expr} {s t : State} {v : Value} (h : eval e s = .ok (v, t)) : MovesTo s s.pc t := by
  obtain ⟨x, rfl⟩ := eval_ok_state h
  exact ⟨rfl, rfl, rfl⟩

theorem evalForm_movesTo {e : Expr} {s t : State} (h : evalForm e s = .next t) : MovesTo s s.pc t := by
  obtain ⟨v, s', he, rfl⟩ := evalForm_eq_next.mp h
  obtain ⟨hl, ha, hp⟩ := eval_movesTo he
  exact ⟨hl, ha, hp⟩

@[simp] theorem State.moveStack_pc (s : State) (n : Int) : (s.moveStack n).pc = s.pc := by
  obtain ⟨x, h⟩ := s.moveStack_eq n
  simp [h]

theorem State.push_movesTo {s t : State} {v : Value} (h : s.push v = .ok t) : MovesTo s s.pc t := by
  obtain ⟨b, -, -, c, -, rfl⟩ := State.push_ok h
  exact ⟨s.moveStack_launch _, s.moveStack_addressSize _, s.moveStack_pc _⟩

theorem State.assign_movesTo {s t : State} {d : Dest} {v : Value} (h : s.assign d v = .ok t) : MovesTo s s.pc t := by
  obtain ⟨p, -, hp⟩ | ⟨-, hn⟩ := State.assign_ok h
  · obtain ⟨b, -, -, rfl⟩ := State.assignPlace_ok hp
    exact ⟨rfl, rfl, rfl⟩
  · obtain ⟨r, b, -, rfl⟩ | ⟨l, x, -, -, rfl⟩ | ⟨x, a, -, -, -, rfl⟩ := State.assignName_ok hn
    · exact ⟨s.setReg_launch r b, s.setReg_addressSize r b, s.setReg_pc r b⟩
    · exact ⟨rfl, rfl, rfl⟩
    · exact ⟨rfl, rfl, rfl⟩

/-! ## The forms that move the position -/

theorem exec_ifThen_ok {c : Expr} {thn els : Block} {s t : State} (h : exec (.ifThen c thn els) s = .next t) :
    ∃ v s' b, eval c s = .ok (v, s') ∧ v.truthValue = .ok b ∧ t = s'.setPc (s'.pc.enter (if b then thn else els)) := by
  obtain ⟨⟨v, s'⟩, he, ht⟩ := bind_eq_ok.mp (outcome_eq_next.mp h)
  obtain ⟨b, hb, ht⟩ := bind_eq_ok.mp ht
  exact ⟨v, s', b, he, hb, (Except.ok.inj ht).symm⟩

/-- The arm that a CASE goes on with is one that its selector selects (R72). -/
theorem exec_caseOf_ok {e : Expr} {arms : Arms} {s t : State} (h : exec (.caseOf e arms) s = .next t) :
    ∃ v s' b, eval e s = .ok (v, s') ∧ selectArm v arms = some b ∧ t = s'.setPc (s'.pc.enter b) := by
  obtain ⟨⟨v, s'⟩, he, ht⟩ := bind_eq_ok.mp (outcome_eq_next.mp h)
  dsimp only at ht
  split at ht
  · simp at ht
  · split at ht
    · next b hb => exact ⟨v, s', b, he, hb, (Except.ok.inj ht).symm⟩
    · simp at ht

theorem exec_ret_ok {e : Expr} {s t : State} (h : exec (.ret e) s = .next t) :
    s.launch.body = .functionBody ∧
      ∃ v s', eval e s = .ok (v, s') ∧ t = ((s'.setResult v).setLocals .none).setPc (.at .nil) := by
  simp only [exec, execRet] at h
  split at h
  · simp at h
  · simp at h
  · next hbody =>
    obtain ⟨⟨v, s'⟩, he, ht⟩ := bind_eq_ok.mp (outcome_eq_next.mp h)
    exact ⟨hbody, v, s', he, (Except.ok.inj ht).symm⟩

/-- A selected arm is an arm of the CASE. -/
theorem selectArm_has {v : Value} {arms : Arms} {b : Block} (h : selectArm v arms = some b) : ∃ l, arms.Has l b := by
  induction arms using selectArm.induct v with
  | case1 => simp [selectArm] at h
  | case2 l b' rest hm => exact ⟨l, .inl ⟨rfl, by simpa [selectArm, hm] using h⟩⟩
  | case3 l b' rest hm ih =>
    obtain ⟨l', hl'⟩ := ih (by simpa [selectArm, hm] using h)
    exact ⟨l', .inr hl'⟩

theorem exec_ifThen_movesTo {c : Expr} {thn els : Block} {s t : State} (h : exec (.ifThen c thn els) s = .next t) :
    MovesTo s (s.pc.enter thn) t ∨ MovesTo s (s.pc.enter els) t := by
  obtain ⟨v, s', b, he, -, rfl⟩ := exec_ifThen_ok h
  have hm := eval_movesTo he
  rw [hm.pc]
  cases b with
  | true => exact .inl (hm.setPc _)
  | false => exact .inr (hm.setPc _)

theorem exec_caseOf_movesTo {e : Expr} {arms : Arms} {s t : State} (h : exec (.caseOf e arms) s = .next t) :
    ∃ l b, arms.Has l b ∧ MovesTo s (s.pc.enter b) t := by
  obtain ⟨v, s', b, he, hb, rfl⟩ := exec_caseOf_ok h
  have hm := eval_movesTo he
  obtain ⟨l, hl⟩ := selectArm_has hb
  exact ⟨l, b, hl, hm.pc ▸ hm.setPc _⟩

theorem exec_endRun_movesTo {s t : State} (h : exec .endRun s = .next t) : MovesTo s (.at .nil) t := by
  cases h
  exact (MovesTo.refl s).setPc _

theorem exec_ret_movesTo {e : Expr} {s t : State} (h : exec (.ret e) s = .next t) : MovesTo s (.at .nil) t := by
  obtain ⟨-, v, s', he, rfl⟩ := exec_ret_ok h
  obtain ⟨hl, ha, -⟩ := eval_movesTo he
  exact ⟨hl, ha, rfl⟩

/-! ## The simple statements -/

/-- An instruction that is a form, or the call of a value function, is evaluated for its value (log entry 2). -/
theorem exec_of_toExpr {i : Instr} {e : Expr} (h : i.toExpr = some e) (s : State) : exec i s = evalForm e s := by
  cases i <;> cases h <;> rfl

theorem exec_assign_eq_next {d : Dest} {e : Expr} {s t : State} :
    exec (.assign d e) s = .next t ↔ ∃ v s', eval e s = .ok (v, s') ∧ s'.assign d v = .ok t := by
  simp only [exec, execAssign, outcome_eq_next, bind_eq_ok, Prod.exists]

theorem exec_push_eq_next {e : Expr} {s t : State} :
    exec (.push e) s = .next t ↔ ∃ v s', eval e s = .ok (v, s') ∧ s'.push v = .ok t := by
  simp only [exec, execPush, outcome_eq_next, bind_eq_ok, Prod.exists]

/-- A statement that moves no position leaves it where the step has put it: at the textually next statement (R28). -/
theorem exec_simple_movesTo {i : Instr} {s t : State} (hi : i.isSimple = true) (h : exec i s = .next t) :
    MovesTo s s.pc t := by
  cases hx : i.toExpr with
  | some e => exact evalForm_movesTo (exec_of_toExpr hx s ▸ h)
  | none =>
    cases i with
    | comment text =>
      cases h
      exact .refl s
    | doLoop body => cases h
    | assign d e =>
      obtain ⟨v, s', he, ht⟩ := exec_assign_eq_next.mp h
      have hm := eval_movesTo he
      exact hm.trans (hm.pc ▸ State.assign_movesTo ht)
    | push e =>
      obtain ⟨v, s', he, ht⟩ := exec_push_eq_next.mp h
      have hm := eval_movesTo he
      exact hm.trans (hm.pc ▸ State.push_movesTo ht)
    | ifThen c thn els => cases hi
    | caseOf e arms => cases hi
    | endRun => cases hi
    | ret e => cases hi
    | _ => cases hx

/-- Whatever the statement, the run is not at its start again. -/
theorem exec_movesTo_at {i : Instr} {s t : State} {rest : Block} (hpc : s.pc = .at rest) (h : exec i s = .next t) :
    ∃ b, MovesTo s (.at b) t := by
  cases i with
  | ifThen c thn els =>
    obtain hm | hm := exec_ifThen_movesTo h
    · exact ⟨_, by simpa [hpc] using hm⟩
    · exact ⟨_, by simpa [hpc] using hm⟩
  | caseOf e arms =>
    obtain ⟨l, b, -, hm⟩ := exec_caseOf_movesTo h
    exact ⟨_, by simpa [hpc] using hm⟩
  | endRun => exact ⟨_, exec_endRun_movesTo h⟩
  | ret e => exact ⟨_, exec_ret_movesTo h⟩
  | _ => exact ⟨rest, hpc ▸ exec_simple_movesTo rfl h⟩

/-! ## Steps and runs -/

theorem State.remaining_at {s : State} {b : Block} (h : s.pc = .at b) : s.remaining = .ok (b, s) := by
  simp [State.remaining, h]

/-- Reading what remains writes no launch component, and AddressSize only where the run starts (R88, R89). -/
theorem State.remaining_keeps {s t : State} {b : Block} (h : s.remaining = .ok (b, t)) :
    t.launch = s.launch ∧ (s.pc ≠ .start → t.addressSize = s.addressSize) := by
  match hpc : s.pc with
  | .start =>
    have hstart : s.start = .ok (b, t) := by simpa [State.remaining, hpc] using h
    obtain ⟨-, o, a, -, -, rfl⟩ := State.start_eq_ok.mp hstart
    exact ⟨rfl, fun hne => absurd rfl hne⟩
  | .at rest =>
    rw [State.remaining_at hpc] at h
    cases h
    exact ⟨rfl, fun _ => rfl⟩

theorem step_at_eq_next {i : Instr} {rest : Block} {s t : State} (hpc : s.pc = .at (.cons i rest)) :
    step s = .next t ↔ ∃ s1, exec i (s.setPc (.at rest)) = .next s1 ∧ t = s1.leave := by
  simp only [step, State.remaining_at hpc, runFirst, leaveBody_eq_next]

theorem step_keeps {s t : State} (h : step s = .next t) :
    t.launch = s.launch ∧ (s.pc ≠ .start → t.addressSize = s.addressSize) ∧ t.pc ≠ .start := by
  obtain ⟨i, rest, s0, s1, hr, hx, rfl⟩ := step_eq_next.mp h
  obtain ⟨hlaunch, haddr⟩ := State.remaining_keeps hr
  obtain ⟨b, hm⟩ := exec_movesTo_at rfl hx
  refine ⟨?_, fun hpc => ?_, ?_⟩
  · rw [State.leave_launch, hm.launch, State.setPc_launch, hlaunch]
  · rw [State.leave_addressSize, hm.addressSize, State.setPc_addressSize, haddr hpc]
  · simp [hm.pc]

@[simp] theorem runsTo_zero {s t : State} : RunsTo 0 s t ↔ t = s :=
  ⟨fun h => (Host.Outcome.next.inj h).symm, fun h => h ▸ rfl⟩

theorem runsTo_succ {k : Nat} {s t : State} : RunsTo (k + 1) s t ↔ ∃ m, step s = .next m ∧ RunsTo k m t := by
  simp only [RunsTo, Host.Core.run, show core.step s = step s from rfl]
  cases step s with
  | next m => simp
  | fault r => simp
  | refused r => simp

/-- Settles O9: by induction on the number of steps. The first step leaves the start, so that from the second on AddressSize is
kept too. -/
theorem noRunWritesTheLaunchComponents : Obligations.NoRunWritesTheLaunchComponents := by
  unfold Obligations.NoRunWritesTheLaunchComponents
  intro k
  induction k with
  | zero =>
    intro s t h
    rw [runsTo_zero.mp h]
    exact ⟨rfl, fun _ => rfl⟩
  | succ k ih =>
    intro s t h
    obtain ⟨m, hstep, hrun⟩ := runsTo_succ.mp h
    obtain ⟨hlaunch, haddr, hpc⟩ := step_keeps hstep
    obtain ⟨hlaunch', haddr'⟩ := ih m t hrun
    exact ⟨hlaunch'.trans hlaunch, fun hs => (haddr' hpc).trans (haddr hs)⟩

/-- Settles O10: each form's own move, which the end of a function's body does not change. -/
theorem eachStatementMovesThePositionAsItsFormSays : Obligations.EachStatementMovesThePositionAsItsFormSays := by
  unfold Obligations.EachStatementMovesThePositionAsItsFormSays
  intro i s t rest hpc hstep
  obtain ⟨s1, hx, rfl⟩ := (step_at_eq_next hpc).mp hstep
  rw [State.leave_pc]
  refine ⟨?ifThen, ?caseOf, ?endRun, ?ret, ?simple⟩
  case ifThen =>
    rintro c a b rfl
    exact (exec_ifThen_movesTo hx).imp MovesTo.pc MovesTo.pc
  case caseOf =>
    rintro e arms rfl
    obtain ⟨l, b, hl, hm⟩ := exec_caseOf_movesTo hx
    exact ⟨l, b, hl, hm.pc⟩
  case endRun =>
    rintro rfl
    exact (exec_endRun_movesTo hx).pc
  case ret =>
    rintro e rfl
    exact (exec_ret_movesTo hx).pc
  case simple =>
    intro hif hcase hend hret
    have hi : i.isSimple = true := by
      cases i with
      | ifThen c a b => exact absurd rfl (hif c a b)
      | caseOf e arms => exact absurd rfl (hcase e arms)
      | endRun => exact absurd rfl hend
      | ret e => exact absurd rfl (hret e)
      | _ => rfl
    exact (exec_simple_movesTo hi hx).pc

/-- Settles O8: memory is empty after reset, and no statement has been read yet. -/
theorem resetMeetsTheInvariant : Obligations.ResetMeetsTheInvariant :=
  ⟨⟨reset_mem_wf, trivial⟩, rfl⟩

/-! ## Local variables -/

theorem eval_loc_of_get {l : LocalName} {s : State} {v : Value} (h : s.locals.get l = some v) :
    eval (.loc l) s = .ok (v, s) := by
  simp [eval, State.readLocal, h]

theorem eval_loc_of_unwritten {l : LocalName} {s : State} (h : s.locals.get l = none) :
    eval (.loc l) s = raise (.unwrittenRead l) := by
  simp [eval, State.readLocal, h, raise]

/-- An assignment whose source stops, stops as it does. -/
theorem exec_assign_of_eval_error {d : Dest} {e : Expr} {s : State} {x : Stop} (h : eval e s = .error x) :
    exec (.assign d e) s = outcome (.error x) := by
  simp [exec, execAssign, h]

/-- What a local variable holds, another receives unchanged (R78). -/
theorem localReceives_value (x : LocalValue) : LocalReceives x.value x.value := by
  cases x with
  | int | truth | ioWidth => exact .inr ⟨nofun, nofun, rfl⟩

/-- Settles O30: the equation of the read for a variable that holds a value, and for one that holds none. -/
theorem localVariablesReadAfterTheirAssignment : Obligations.LocalVariablesReadAfterTheirAssignment := by
  unfold Obligations.LocalVariablesReadAfterTheirAssignment
  refine fun l d s => ⟨fun hnone => exec_assign_of_eval_error (eval_loc_of_unwritten hnone),
    fun v hv => ⟨eval_loc_of_get hv, ?_⟩⟩
  obtain ⟨x, rfl⟩ := Locals.get_eq_some hv
  exact localReceives_value x

end Sys2Proof.Machine
end

section
/-! PROOF. Frames (R40, R44, R102, R103): what evaluating an expression writes, and what each statement leaves as it is. Pop is
the one function of an expression that writes state, so evaluation is a chain of Pops, and every claim about the state after
it is an induction on that chain. -/

namespace Sys2Proof.Machine

/-! ## Evaluation is a chain of Pops -/

/-- `e` calls Pop, and one Pop leads from `s` to `t`. -/
def PopOf (e : Expr) (s t : State) : Prop := e.callsPop = true ∧ ∃ v, s.pop = .ok (v, t)

/-- The Pops of an expression with two operands are those of the first and then those of the second (R119). -/
theorem popChain_of_operands {e e₁ e₂ : Expr} (h : e.callsPop = (e₁.callsPop || e₂.callsPop)) {s s₁ t : State}
    (h₁ : Relation.ReflTransGen (PopOf e₁) s s₁) (h₂ : Relation.ReflTransGen (PopOf e₂) s₁ t) :
    Relation.ReflTransGen (PopOf e) s t := by
  have hfirst : ∀ x y, PopOf e₁ x y → PopOf e x y := fun _ _ ⟨hc, hp⟩ => ⟨by rw [h, hc, Bool.true_or], hp⟩
  have hsecond : ∀ x y, PopOf e₂ x y → PopOf e x y := fun _ _ ⟨hc, hp⟩ => ⟨by rw [h, hc, Bool.or_true], hp⟩
  exact (Relation.ReflTransGen.mono hfirst _ _ h₁).trans (Relation.ReflTransGen.mono hsecond _ _ h₂)

theorem eval_popChain {e : Expr} {s t : State} {v : Value} (h : eval e s = .ok (v, t)) :
    Relation.ReflTransGen (PopOf e) s t := by
  induction e generalizing s t v with
  | num | truth | ioWidth | tssIs16 | reg | operandSize | addressSize | stackAddrSize | instruction | eSP =>
    cases h
    exact .refl
  | cmpsw | cmpsd | popSt | switchTasks => cases h
  | loc | tssPointer | operand | memSegReg | addr =>
    obtain ⟨_, -, h⟩ := bind_eq_ok.mp h
    cases h
    exact .refl
  | bitString | memReg | memOperand =>
    obtain ⟨_, -, h⟩ := bind_eq_ok.mp h
    obtain ⟨_, -, h⟩ := bind_eq_ok.mp h
    cases h
    exact .refl
  | pop => exact .single ⟨rfl, v, h⟩
  | bin op a b iha ihb =>
    simp only [eval] at h
    split at h
    · cases h
      exact .refl
    · obtain ⟨⟨_, s₁⟩, ha, h⟩ := bind_eq_ok.mp h
      obtain ⟨⟨_, s₂⟩, hb, h⟩ := bind_eq_ok.mp h
      obtain ⟨_, -, h⟩ := bind_eq_ok.mp h
      cases h
      exact popChain_of_operands rfl (iha ha) (ihb hb)
  | ioPermission a w iha ihw =>
    obtain ⟨⟨_, s₁⟩, ha, h⟩ := bind_eq_ok.mp h
    obtain ⟨⟨_, s₂⟩, hw, h⟩ := bind_eq_ok.mp h
    obtain ⟨_, -, h⟩ := bind_eq_ok.mp h
    cases h
    exact popChain_of_operands rfl (iha ha) (ihw hw)
  | bitMem g base off ihbase ihoff =>
    obtain ⟨⟨_, s₁⟩, hbase, h⟩ := bind_eq_ok.mp h
    obtain ⟨⟨_, s₂⟩, hoff, h⟩ := bind_eq_ok.mp h
    obtain ⟨_, -, h⟩ := bind_eq_ok.mp h
    obtain ⟨_, -, h⟩ := bind_eq_ok.mp h
    obtain ⟨_, -, h⟩ := bind_eq_ok.mp h
    cases h
    exact popChain_of_operands rfl (ihbase hbase) (ihoff hoff)
  | bitReg _ off ih | bitOperand _ off ih =>
    obtain ⟨⟨_, s₁⟩, hoff, h⟩ := bind_eq_ok.mp h
    obtain ⟨_, -, h⟩ := bind_eq_ok.mp h
    obtain ⟨_, -, h⟩ := bind_eq_ok.mp h
    cases h
    exact ih hoff
  | truncate16 e ih | zeroExtend e ih | signExtend e ih =>
    obtain ⟨⟨_, s₁⟩, he, h⟩ := bind_eq_ok.mp h
    obtain ⟨_, -, h⟩ := bind_eq_ok.mp h
    cases h
    exact ih he

theorem eval_of_not_callsPop {e : Expr} {s t : State} {v : Value} (he : e.callsPop = false)
    (h : eval e s = .ok (v, t)) : t = s := by
  obtain hts | ⟨m, -, hpop, -⟩ := (eval_popChain h).cases_tail
  · exact hts
  · simp [he] at hpop

/-! ## With a 16-bit stack -/

theorem State.moveStack_of_bBit_false {s : State} (h : s.launch.bBit = false) (n : Int) :
    s.moveStack n = s.setSp (s.sp + BitVec.ofInt 16 n) := by
  simp [State.moveStack, State.stackAddrSize, State.usesEsp, Config.bBitSelectsEsp, h]

theorem State.pop_launch {s t : State} {v : Value} (h : s.pop = .ok (v, t)) : t.launch = s.launch := by
  obtain ⟨-, -, rfl⟩ := State.pop_ok h
  exact s.moveStack_launch _

theorem State.pop_esp_high {s t : State} {v : Value} (hb : s.launch.bBit = false) (h : s.pop = .ok (v, t)) :
    t.esp.extractLsb' 16 16 = s.esp.extractLsb' 16 16 := by
  obtain ⟨-, -, rfl⟩ := State.pop_ok h
  rw [State.moveStack_of_bBit_false hb, State.setSp_high]

theorem eval_esp_high {e : Expr} {s t : State} {v : Value} (hb : s.launch.bBit = false) (h : eval e s = .ok (v, t)) :
    t.esp.extractLsb' 16 16 = s.esp.extractLsb' 16 16 := by
  have hchain := eval_popChain h
  clear h
  induction hchain using Relation.ReflTransGen.head_induction_on with
  | refl => rfl
  | head hpop _ ih =>
    obtain ⟨-, v, hpop⟩ := hpop
    exact (ih (by rw [State.pop_launch hpop, hb])).trans (State.pop_esp_high hb hpop)

/-- Settles O56: evaluation writes ESP alone, and by Pops alone, each of which moves SP where the stack has 16 bits. -/
theorem evaluationMovesAtMostTheStackPointer : Obligations.EvaluationMovesAtMostTheStackPointer := by
  unfold Obligations.EvaluationMovesAtMostTheStackPointer
  intro e s t v h
  refine ⟨?_, fun he => eval_of_not_callsPop he h, fun hb => eval_esp_high hb h⟩
  obtain ⟨x, rfl⟩ := eval_ok_state h
  rfl

/-! ## Statements -/

theorem sameRest_refl (s : State) : SameRest s s := ⟨rfl, rfl, rfl, rfl, rfl, rfl, rfl⟩

theorem sameRest_trans {s t u : State} : SameRest s t → SameRest t u → SameRest s u
  | ⟨hl, heax, hsi, hdi, hop, haddr, hloc⟩, ⟨hl', heax', hsi', hdi', hop', haddr', hloc'⟩ =>
    ⟨hl'.trans hl, heax'.trans heax, hsi'.trans hsi, hdi'.trans hdi, hop'.trans hop, haddr'.trans haddr,
      hloc'.trans hloc⟩

theorem eval_sameRest {e : Expr} {s t : State} {v : Value} (h : eval e s = .ok (v, t)) : SameRest s t ∧ t.mem = s.mem := by
  obtain ⟨x, rfl⟩ := eval_ok_state h
  exact ⟨sameRest_refl s, rfl⟩

theorem State.moveStack_sameRest (s : State) (n : Int) : SameRest s (s.moveStack n) := by
  obtain ⟨x, hx⟩ := s.moveStack_eq n
  rw [hx]
  exact sameRest_refl s

theorem State.push_sameRest {s t : State} {v : Value} (h : s.push v = .ok t) : SameRest s t := by
  obtain ⟨b, -, -, c, -, rfl⟩ := State.push_ok h
  exact State.moveStack_sameRest s _

/-- Everything a statement can do to memory, to the registers beside ESP, to OperandSize and AddressSize and to the local variables: an
assignment is a case of its own, Push writes memory, RETURN ends the local variables, and no other statement writes any. -/
theorem exec_frame_cases {i : Instr} {s t : State} (h : exec i s = .next t) :
    (∃ d e, i = .assign d e) ∨ (∃ e, i = .push e ∧ SameRest s t) ∨
      (∃ e, i = .ret e ∧ SameRest (s.setLocals .none) t ∧ t.mem = s.mem) ∨ (SameRest s t ∧ t.mem = s.mem) := by
  cases hx : i.toExpr with
  | some e =>
    obtain ⟨v, s', he, rfl⟩ := evalForm_eq_next.mp (exec_of_toExpr hx s ▸ h)
    have hs' := eval_sameRest he
    exact .inr (.inr (.inr hs'))
  | none =>
    cases i with
    | assign d e => exact .inl ⟨d, e, rfl⟩
    | push e =>
      obtain ⟨v, s', he, ht⟩ := exec_push_eq_next.mp h
      exact .inr (.inl ⟨e, rfl, sameRest_trans (eval_sameRest he).1 (State.push_sameRest ht)⟩)
    | ret e =>
      obtain ⟨-, v, s', he, rfl⟩ := exec_ret_ok h
      obtain ⟨⟨hl, heax, hsi, hdi, hop, haddr, -⟩, hmem⟩ := eval_sameRest he
      exact .inr (.inr (.inl ⟨e, rfl, ⟨hl, heax, hsi, hdi, hop, haddr, rfl⟩, hmem⟩))
    | comment text | endRun =>
      cases h
      exact .inr (.inr (.inr ⟨sameRest_refl s, rfl⟩))
    | doLoop body => cases h
    | ifThen c thn els =>
      obtain ⟨v, s', b, he, -, rfl⟩ := exec_ifThen_ok h
      have hs' := eval_sameRest he
      exact .inr (.inr (.inr hs'))
    | caseOf sel arms =>
      obtain ⟨v, s', b, he, -, rfl⟩ := exec_caseOf_ok h
      have hs' := eval_sameRest he
      exact .inr (.inr (.inr hs'))
    | _ => cases hx

/-- Settles O12: the cases of a statement's frame; an assignment leaves AddressSize as it is. -/
theorem onlyAssignmentAndPushWriteMemory : Obligations.OnlyAssignmentAndPushWriteMemory := by
  unfold Obligations.OnlyAssignmentAndPushWriteMemory
  intro i s t h
  obtain ⟨d, e, rfl⟩ | ⟨e, rfl, -, heax, hsi, hdi, hop, haddr, hloc⟩ | ⟨e, rfl, ⟨-, heax, hsi, hdi, hop, haddr, -⟩, hmem⟩ |
    ⟨⟨-, heax, hsi, hdi, hop, haddr, hloc⟩, hmem⟩ := exec_frame_cases h
  · exact ⟨(exec_simple_movesTo rfl h).addressSize, fun hne => absurd rfl (hne d e)⟩
  · exact ⟨haddr, fun _ => ⟨heax, hsi, hdi, hop, fun hne => absurd rfl (hne e), fun _ => hloc⟩⟩
  · exact ⟨haddr, fun _ => ⟨heax, hsi, hdi, hop, fun _ => hmem, fun hne => absurd rfl (hne e)⟩⟩
  · exact ⟨haddr, fun _ => ⟨heax, hsi, hdi, hop, fun _ => hmem, fun _ => hloc⟩⟩

end Sys2Proof.Machine
end

section
/-! PROOF. What is read from a text is well-formed (R55, R66): the comments of a token sequence hold no closing symbol, and each
parsing function, started on such a sequence, reads a well-formed term and leaves such a sequence. A property of whatever a
reading answers is carried through each step of the reading. -/

namespace Sys2Proof

/-- An instruction that may stand among statements and is well-formed. -/
def Instr.statementWf (i : Instr) : Bool := !i.isForm && i.wf

/-! ## Properties of what is read -/

/-- Whatever the reading answers has the property `p`. -/
def Reads {α : Type} (p : α → Prop) (x : Except DecodeError α) : Prop := ∀ a, x = .ok a → p a

/-- No comment of the token sequence holds a closing symbol. -/
def CommentsWf (ts : List Token) : Prop := ∀ text, .comment text ∈ ts → noCloser text = true

/-- What was read passes the check `wf`, and the comments of the remaining tokens hold no closing symbol. -/
def ParsedWf {α : Type} (wf : α → Bool) (r : α × List Token) : Prop := wf r.1 = true ∧ CommentsWf r.2

theorem CommentsWf.drop {ts : List Token} (h : CommentsWf ts) (n : Nat) : CommentsWf (ts.drop n) :=
  fun text hmem => h text (List.mem_of_mem_drop hmem)

theorem CommentsWf.tail {t : Token} {ts : List Token} (h : CommentsWf (t :: ts)) : CommentsWf ts := h.drop 1

theorem commentsWf_nil : CommentsWf [] := nofun

theorem commentsWf_cons {t : Token} {ts : List Token} :
    CommentsWf (t :: ts) ↔ (∀ text, t = .comment text → noCloser text = true) ∧ CommentsWf ts := by
  simp only [CommentsWf, List.mem_cons, or_imp, forall_and, eq_comm]

section
variable {α β : Type} {p : α → Prop} {q : β → Prop}

theorem Reads.ok {a : α} (h : p a) : Reads p (.ok a) := fun _ ha => Except.ok.inj ha ▸ h

theorem Reads.error {e : DecodeError} : Reads p (.error e) := nofun

theorem Reads.bind {x : Except DecodeError α} {f : α → Except DecodeError β} (hx : Reads p x)
    (hf : ∀ a, p a → Reads q (f a)) : Reads q (x >>= f) := by
  cases x with
  | ok a => exact hf a (hx a rfl)
  | error e => exact .error

/-- An expected token is no comment to be judged, and what follows it is a part of the sequence. -/
theorem Reads.expect {t : Token} {ts : List Token} {f : List Token → Except DecodeError β} (h : CommentsWf ts)
    (hf : ∀ rest, CommentsWf rest → Reads q (f rest)) : Reads q (expect t ts >>= f) := by
  refine .bind (p := CommentsWf) ?_ hf
  unfold Sys2Proof.expect
  split
  · exact .error
  · split
    · exact .ok h.tail
    · exact .error

end

/-! ## Tokens -/

/-- The text of a comment ends before the first closing symbol (R55). -/
theorem findCloser_noCloser {text t rest : List Byte} (h : findCloser text = some (t, rest)) :
    noCloser t = true ∧ (t = [] ∨ t.head? = text.head?) := by
  fun_induction findCloser text generalizing t rest with
  | case1 | case2 => cases h
  | case3 a b r hab =>
    cases h
    exact ⟨rfl, .inl rfl⟩
  | case4 a b r hab ih =>
    simp only [Option.map_eq_some_iff, Prod.exists, Prod.mk.injEq] at h
    obtain ⟨t', r', h, rfl, -⟩ := h
    refine ⟨?_, .inr rfl⟩
    obtain ⟨hno, hhead⟩ := ih h
    cases t' with
    | nil => rfl
    | cons c t' =>
      obtain rfl : c = b := by simpa using hhead
      simpa [noCloser, hno, imp_iff_not_or] using hab

theorem wordSpellings_not_comment {e : List Byte × Token} (he : e ∈ wordSpellings) : e.2.isComment = false := by
  have h : wordSpellings.all (fun e => !e.2.isComment) = true := by decide +kernel
  simpa using List.all_eq_true.mp h e he

theorem findSpelling_mem {l : List (List Byte × Token)} {text rest : List Byte} {t : Token}
    (h : findSpelling l text = some (t, rest)) : ∃ pat, (pat, t) ∈ l := by
  fun_induction findSpelling l text with
  | case1 => cases h
  | case2 pat u more text r hr hb =>
    cases h
    exact ⟨pat, List.mem_cons_self⟩
  | case3 pat u more text r hr hb ih | case4 pat u more text hr ih =>
    obtain ⟨pat', hmem⟩ := ih h
    exact ⟨pat', List.mem_cons_of_mem _ hmem⟩

theorem wordToken_not_comment {w : List Byte} {t : Token} (h : wordToken w = .ok t) : t.isComment = false := by
  unfold wordToken at h
  repeat' split at h
  all_goals cases h <;> rfl

/-- One test in a chain of tests for symbols. -/
theorem not_comment_of_ite {p : Prop} [Decidable p] {t u : Token} {x : Option Token} (hu : u.isComment = false)
    (hx : x = some t → t.isComment = false) (h : (if p then some u else x) = some t) : t.isComment = false := by
  split at h
  · exact Option.some.inj h ▸ hu
  · exact hx h

theorem symbol1?_not_comment {c : Byte} {t : Token} : symbol1? c = some t → t.isComment = false := by
  unfold symbol1?
  iterate 14 refine not_comment_of_ite rfl ?_
  exact nofun

theorem symbol2?_not_comment {a b : Byte} {t : Token} : symbol2? a b = some t → t.isComment = false := by
  unfold symbol2?
  iterate 4 refine not_comment_of_ite rfl ?_
  exact nofun

theorem lexSymbol_not_comment {text rest : List Byte} {t : Token} (h : lexSymbol text = .ok (t, rest)) :
    t.isComment = false := by
  unfold lexSymbol at h
  split at h
  · cases h
  · split at h
    next hs =>
      cases h
      exact symbol1?_not_comment hs
    next => cases h
  · split at h
    next hs =>
      cases h
      exact symbol2?_not_comment hs
    next =>
      split at h
      next hs =>
        cases h
        exact symbol1?_not_comment hs
      next => cases h

/-- A token is read as a comment only up to the first closing symbol; every other token is none. -/
theorem lexToken_comment {text rest : List Byte} {t : Token} (h : lexToken text = .ok (t, rest)) :
    t.isComment = false ∨ ∃ c, t = .comment c ∧ noCloser c = true := by
  cases text with
  | nil => cases h
  | cons c text =>
    simp only [lexToken] at h
    split at h
    · split at h
      next hc =>
        cases h
        exact .inr ⟨_, rfl, (findCloser_noCloser hc).1⟩
      next => cases h
    · split at h
      · split at h
        next hf =>
          cases h
          obtain ⟨pat, hmem⟩ := findSpelling_mem hf
          exact .inl (wordSpellings_not_comment hmem)
        next =>
          split at h
          next hw =>
            cases h
            exact .inl (wordToken_not_comment hw)
          next => cases h
      · exact .inl (lexSymbol_not_comment h)

theorem lexToken_comment_noCloser {text c rest : List Byte} (h : lexToken text = .ok (.comment c, rest)) :
    noCloser c = true := by
  obtain hno | ⟨c', heq, hc'⟩ := lexToken_comment h
  · cases hno
  · cases heq
    exact hc'

theorem lexAux_commentsWf (fuel : Nat) (text : List Byte) : Reads CommentsWf (lexAux fuel text) := by
  fun_induction lexAux fuel text with
  | case1 => exact .ok commentsWf_nil
  | case2 | case4 | case5 => exact .error
  | case3 fuel c rest hc ih => exact ih
  | case6 fuel c rest hc t r ht ts hts ih =>
    exact .ok (commentsWf_cons.mpr ⟨fun text hcom => lexToken_comment_noCloser (hcom ▸ ht), ih ts hts⟩)

theorem lex_commentsWf (text : List Byte) : Reads CommentsWf (lex text) := by
  unfold lex
  split
  · exact .error
  · exact lexAux_commentsWf _ _

/-- Dropping comments adds no token. -/
theorem dropInner_commentsWf {ts : List Token} (h : CommentsWf ts) (prev2 prev : Option Token) :
    CommentsWf (dropInner prev2 prev ts) := by
  fun_induction dropInner prev2 prev ts with
  | case1 => exact commentsWf_nil
  | case2 prev2 prev t rest hs ih | case4 prev2 prev t rest hne ih =>
    exact commentsWf_cons.mpr ⟨(commentsWf_cons.mp h).1, ih h.tail⟩
  | case3 prev2 prev t rest hs ih => exact ih h.tail

/-! ## Expressions of one fixed shape -/

theorem parseBracket_wf {ts : List Token} (h : CommentsWf ts) : Reads (ParsedWf Expr.wf) (parseBracket ts) := by
  unfold parseBracket
  split
  · refine .expect h.tail fun rest h => ?_
    split
    next hr => exact .ok ⟨hr, h⟩
    next => exact .error
  · exact .expect h.tail fun _ _ => .error
  · exact .expect h.tail fun _ h => .ok ⟨rfl, h⟩
  · exact .expect h.tail fun _ h => .expect h fun _ h => .expect h fun _ h => .ok ⟨rfl, h⟩
  · refine .expect h.tail fun _ h => ?_
    split
    · exact .ok ⟨rfl, h⟩
    · exact .error
  · exact .error

theorem parseSegBracket_wf (g : SegReg) {ts : List Token} (h : CommentsWf ts) :
    Reads (ParsedWf Expr.wf) (parseSegBracket g ts) := by
  refine .expect h fun _ h => .expect h fun rest h => ?_
  split
  · exact .error
  · split
    · exact .error
    · exact .expect h.tail fun _ h => .ok ⟨rfl, h⟩

theorem parseNumeral_wf {ts : List Token} (h : CommentsWf ts) : Reads (ParsedWf fun _ => true) (parseNumeral ts) := by
  unfold parseNumeral
  split
  · exact .ok ⟨rfl, h.tail⟩
  · exact .ok ⟨rfl, h.tail⟩
  · exact .ok ⟨rfl, h.drop 2⟩
  · exact .ok ⟨rfl, h.drop 2⟩
  · exact .error

theorem parseAddrArg_wf {ts : List Token} (h : CommentsWf ts) : Reads (ParsedWf fun _ => true) (parseAddrArg ts) := by
  unfold parseAddrArg
  split
  · exact .ok ⟨rfl, h.tail⟩
  · exact .ok ⟨rfl, h.tail⟩
  · exact .ok ⟨rfl, h.tail⟩
  · exact .bind (parseNumeral_wf h) fun _ ⟨_, h⟩ => .ok ⟨rfl, h⟩

theorem atom?_wf {t : Token} {e : Expr} (h : t.atom? = some e) : e.wf = true := by
  unfold Token.atom? at h
  split at h <;> cases h <;> rfl

theorem parseAtom_wf {ts : List Token} (h : CommentsWf ts) : Reads (ParsedWf Expr.wf) (parseAtom ts) := by
  cases ts with
  | nil => exact .error
  | cons t rest =>
    unfold parseAtom
    dsimp only
    split
    next he => exact .ok ⟨atom?_wf he, h.tail⟩
    next =>
      split
      · exact parseBracket_wf h.tail
      · exact parseSegBracket_wf _ h.tail
      · exact .expect h.tail fun _ h => .bind (parseAddrArg_wf h) fun _ ⟨_, h⟩ => .expect h fun _ h => .ok ⟨rfl, h⟩
      · exact .expect h.tail fun _ h => .expect h fun _ h => .ok ⟨rfl, h⟩
      · exact .bind (parseNumeral_wf h) fun _ ⟨_, h⟩ => .ok ⟨rfl, h⟩

theorem unaryFn?_wf {f : FnName} {mk : Expr → Expr} (h : unaryFn? f = some mk) (e : Expr) : (mk e).wf = e.wf := by
  unfold unaryFn? at h
  split at h <;> cases h <;> rfl

theorem binaryFn?_wf {f : FnName} {mk : Expr → Expr → Expr} (h : binaryFn? f = some mk) (a b : Expr) :
    (mk a b).wf = (a.wf && b.wf) := by
  unfold binaryFn? at h
  split at h <;> cases h <;> rfl

/-! ## Expressions -/

theorem bin_wf (op : BinOp) {a b : Expr} (ha : a.wf = true) (hb : b.wf = true) : (Expr.bin op a b).wf = true := by
  simp [Expr.wf, ha, hb]

/-- With the fuel `fuel`, each parsing function of expressions reads well-formed ones. -/
structure ExprParsersWf (fuel : Nat) : Prop where
  expr {ts : List Token} (h : CommentsWf ts) : Reads (ParsedWf Expr.wf) (parseExpr fuel ts)
  sum {ts : List Token} (h : CommentsWf ts) : Reads (ParsedWf Expr.wf) (parseSum fuel ts)
  sumTail {a : Expr} {ts : List Token} (ha : a.wf = true) (h : CommentsWf ts) :
    Reads (ParsedWf Expr.wf) (sumTail fuel a ts)
  term {ts : List Token} (h : CommentsWf ts) : Reads (ParsedWf Expr.wf) (parseTerm fuel ts)
  termTail {a : Expr} {ts : List Token} (ha : a.wf = true) (h : CommentsWf ts) :
    Reads (ParsedWf Expr.wf) (termTail fuel a ts)
  factor {ts : List Token} (h : CommentsWf ts) : Reads (ParsedWf Expr.wf) (parseFactor fuel ts)

section
variable {fuel : Nat} (ih : ExprParsersWf fuel) {ts : List Token} (h : CommentsWf ts)
include ih h

theorem ExprParsersWf.succ_expr : Reads (ParsedWf Expr.wf) (parseExpr (fuel + 1) ts) := by
  unfold parseExpr
  refine .bind (ih.sum h) fun ⟨a, rest⟩ ⟨ha, h⟩ => ?_
  cases rest with
  | nil => exact .ok ⟨ha, h⟩
  | cons t rest =>
    dsimp only
    split
    · exact .ok ⟨ha, h⟩
    · exact .bind (ih.sum h.tail) fun _ ⟨hb, h⟩ => .ok ⟨bin_wf _ ha hb, h⟩

theorem ExprParsersWf.succ_sum : Reads (ParsedWf Expr.wf) (parseSum (fuel + 1) ts) := by
  unfold parseSum
  exact .bind (ih.term h) fun _ ⟨ha, h⟩ => ih.sumTail ha h

theorem ExprParsersWf.succ_sumTail {a : Expr} (ha : a.wf = true) :
    Reads (ParsedWf Expr.wf) (Sys2Proof.sumTail (fuel + 1) a ts) := by
  cases ts with
  | nil => exact .ok ⟨ha, h⟩
  | cons t rest =>
    unfold Sys2Proof.sumTail
    split
    · exact .ok ⟨ha, h⟩
    · exact .bind (ih.term h.tail) fun _ ⟨hb, h⟩ => ih.sumTail (bin_wf _ ha hb) h

theorem ExprParsersWf.succ_term : Reads (ParsedWf Expr.wf) (parseTerm (fuel + 1) ts) := by
  unfold parseTerm
  exact .bind (ih.factor h) fun _ ⟨ha, h⟩ => ih.termTail ha h

theorem ExprParsersWf.succ_termTail {a : Expr} (ha : a.wf = true) :
    Reads (ParsedWf Expr.wf) (Sys2Proof.termTail (fuel + 1) a ts) := by
  cases ts with
  | nil => exact .ok ⟨ha, h⟩
  | cons t rest =>
    unfold Sys2Proof.termTail
    split
    · exact .ok ⟨ha, h⟩
    · exact .bind (ih.factor h.tail) fun _ ⟨hb, h⟩ => ih.termTail (bin_wf _ ha hb) h

theorem ExprParsersWf.succ_factor : Reads (ParsedWf Expr.wf) (parseFactor (fuel + 1) ts) := by
  unfold parseFactor
  split
  case h_1 => exact .bind (ih.expr h.tail) fun _ ⟨he, h⟩ => .expect h fun _ h => .ok ⟨he, h⟩
  case h_2 | h_3 | h_4 => exact .bind (ih.expr (h.drop 4)) fun _ ⟨hoff, h⟩ => .expect h fun _ h => .ok ⟨hoff, h⟩
  case h_5 =>
    exact .bind (ih.expr (h.drop 4)) fun _ ⟨hbase, h⟩ => .expect h fun _ h => .bind (ih.expr h) fun _ ⟨hoff, h⟩ =>
      .expect h fun _ h => .ok ⟨by simp [Expr.wf, hbase, hoff], h⟩
  case h_6 =>
    split
    next hmk =>
      exact .expect h.tail fun _ h => .bind (ih.expr h) fun _ ⟨he, h⟩ => .expect h fun _ h =>
        .ok ⟨(unaryFn?_wf hmk _).trans he, h⟩
    next hmk =>
      exact .expect h.tail fun _ h => .bind (ih.expr h) fun _ ⟨ha, h⟩ => .expect h fun _ h =>
        .bind (ih.expr h) fun _ ⟨hb, h⟩ => .expect h fun _ h => .ok ⟨by simp [binaryFn?_wf hmk, ha, hb], h⟩
    next => exact parseAtom_wf h
  case h_7 => exact parseAtom_wf h

end

theorem exprParsersWf (fuel : Nat) : ExprParsersWf fuel := by
  induction fuel with
  | zero =>
    constructor
    all_goals
      intros
      exact .error
  | succ fuel ih =>
    exact ⟨ih.succ_expr, ih.succ_sum, fun ha h => ih.succ_sumTail h ha, ih.succ_term,
      fun ha h => ih.succ_termTail h ha, ih.succ_factor⟩

theorem parseExpr_wf (fuel : Nat) {ts : List Token} (h : CommentsWf ts) :
    Reads (ParsedWf Expr.wf) (parseExpr fuel ts) :=
  (exprParsersWf fuel).expr h

/-! ## Statements -/

theorem toDest_wf {e : Expr} (he : e.wf = true) : Reads (fun d => d.wf = true) e.toDest := by
  unfold Expr.toDest
  split
  case h_3 => exact .ok he
  case h_1 | h_2 | h_4 | h_5 | h_6 | h_7 | h_8 | h_9 | h_10 => exact .ok rfl
  case h_11 | h_12 | h_13 | h_14 => exact .error

theorem toInstr_wf {e : Expr} {i : Instr} (he : e.wf = true) (h : e.toInstr = some i) : i.wf = true := by
  unfold Expr.toInstr at h
  split at h <;> cases h <;> exact he

theorem parseSimple_wf {ts : List Token} (h : CommentsWf ts) : Reads (ParsedWf Instr.statementWf) (parseSimple ts) := by
  refine .bind (parseExpr_wf _ h) fun ⟨a, rest⟩ ⟨ha, h⟩ => ?_
  dsimp only at ha h ⊢
  split
  · exact .error
  · split
    · refine .bind (toDest_wf ha) fun d hd => .bind (parseExpr_wf _ h.tail) fun _ ⟨hb, h⟩ => .expect h fun _ h =>
        .ok ⟨?_, h⟩
      simp [Instr.statementWf, Instr.isForm, Instr.wf, hd, hb]
    · split
      · exact .error
      next hi =>
        split
        · exact .error
        next hform => exact .expect h fun _ h => .ok ⟨by simp [Instr.statementWf, hform, toInstr_wf ha hi], h⟩

theorem label?_commentsWf {ts rest : List Token} {l : Label} (h : CommentsWf ts) (hl : label? ts = some (l, rest)) :
    CommentsWf rest := by
  unfold label? at hl
  split at hl <;> cases hl <;> exact h.drop 2

/-- With the fuel `fuel`, each parsing function of statements reads well-formed ones. -/
structure StatementParsersWf (fuel : Nat) : Prop where
  instr {ts : List Token} (h : CommentsWf ts) : Reads (ParsedWf Instr.statementWf) (parseInstr fuel ts)
  block {ts : List Token} (h : CommentsWf ts) : Reads (ParsedWf Block.wf) (parseBlock fuel ts)
  arms {ts : List Token} (h : CommentsWf ts) : Reads (ParsedWf Arms.wf) (parseArms fuel ts)

section
variable {fuel : Nat} (ih : StatementParsersWf fuel) {ts : List Token} (h : CommentsWf ts)
include ih h

theorem StatementParsersWf.succ_instr : Reads (ParsedWf Instr.statementWf) (parseInstr (fuel + 1) ts) := by
  unfold parseInstr
  split
  case h_1 => exact .ok ⟨(commentsWf_cons.mp h).1 _ rfl, h.tail⟩
  case h_2 =>
    refine .bind (parseExpr_wf _ h.tail) fun _ ⟨hc, h⟩ => .expect h fun _ h => .bind (ih.block h) fun ⟨t, rest⟩ ⟨ht, h⟩ => ?_
    dsimp only at hc ht h ⊢
    split
    · exact .bind (ih.block h.tail) fun _ ⟨he, h⟩ => .expect h fun _ h => .expect h fun _ h =>
        .ok ⟨by simp [Instr.statementWf, Instr.isForm, Instr.wf, hc, ht, he], h⟩
    · exact .expect h fun _ h => .expect h fun _ h =>
        .ok ⟨by simp [Instr.statementWf, Instr.isForm, Instr.wf, Block.wf, hc, ht], h⟩
  case h_3 => exact .bind (ih.block h.tail) fun _ ⟨hb, h⟩ => .expect h fun _ h => .expect h fun _ h => .ok ⟨hb, h⟩
  case h_4 =>
    refine .bind (parseExpr_wf _ h.tail) fun _ ⟨he, h⟩ => .expect h fun _ h => .expect h fun _ h =>
      .bind (ih.arms h) fun ⟨arms, rest⟩ ⟨harms, h⟩ => .expect h fun _ h => .expect h fun _ h => ?_
    dsimp only at he harms h ⊢
    split
    · exact .error
    next hne => exact .ok ⟨by simp [Instr.statementWf, Instr.isForm, Instr.wf, he, hne, harms], h⟩
  case h_5 => exact .ok ⟨rfl, h.drop 2⟩
  case h_6 => exact .ok ⟨rfl, h.tail⟩
  case h_7 => exact .bind (parseExpr_wf _ h.tail) fun _ ⟨he, h⟩ => .expect h fun _ h => .ok ⟨he, h⟩
  case h_8 =>
    exact .bind (parseExpr_wf _ (h.drop 2)) fun _ ⟨he, h⟩ => .expect h fun _ h => .expect h fun _ h => .ok ⟨he, h⟩
  case h_9 => exact parseSimple_wf h

theorem StatementParsersWf.succ_block : Reads (ParsedWf Block.wf) (parseBlock (fuel + 1) ts) := by
  unfold parseBlock
  split
  · exact .ok ⟨rfl, h⟩
  · refine .bind (ih.instr h) fun _ ⟨hi, h⟩ => .bind (ih.block h) fun _ ⟨hb, h⟩ => .ok ⟨?_, h⟩
    exact Bool.and_eq_true_iff.mpr ⟨hi, hb⟩

theorem StatementParsersWf.succ_arms : Reads (ParsedWf Arms.wf) (parseArms (fuel + 1) ts) := by
  unfold parseArms
  split
  · exact .ok ⟨rfl, h⟩
  next hl =>
    refine .bind (ih.block (label?_commentsWf h hl)) fun _ ⟨hb, h⟩ => .bind (ih.arms h) fun ⟨arms, _⟩ ⟨harms, h⟩ => ?_
    dsimp only at hb harms h ⊢
    split
    · exact .error
    next hfresh => exact .ok ⟨by simp [Arms.wf, hfresh, hb, harms], h⟩

end

theorem statementParsersWf (fuel : Nat) : StatementParsersWf fuel := by
  induction fuel with
  | zero =>
    constructor
    all_goals
      intros
      exact .error
  | succ fuel ih => exact ⟨ih.succ_instr, ih.succ_block, ih.succ_arms⟩

/-! ## Texts -/

theorem parseTokens_wf {ts : List Token} (h : CommentsWf ts) : Reads (fun b => b.wf = true) (parseTokens ts) := by
  refine .bind ((statementParsersWf _).block h) fun ⟨b, rest⟩ ⟨hb, _⟩ => ?_
  cases rest with
  | nil => exact .ok hb
  | cons t rest => exact .error

theorem decodeAlgorithm_wf (text : List Byte) : Reads (fun b => b.wf = true) (decodeAlgorithm text) :=
  .bind (lex_commentsWf text) fun _ h => parseTokens_wf (dropInner_commentsWf h _ _)

theorem parseForm_wf {ts : List Token} (h : CommentsWf ts) : Reads (fun i => i.wf = true) (parseForm ts) := by
  unfold parseForm
  split
  · refine .bind (parseExpr_wf _ (h.drop 2)) fun _ ⟨he, h⟩ => .expect h fun rest _ => ?_
    cases rest with
    | nil => exact .ok he
    | cons t rest => exact .error
  · refine .bind (parseExpr_wf _ h) fun ⟨a, rest⟩ ⟨ha, _⟩ => ?_
    dsimp only at ha ⊢
    split
    next hi _ _ => exact .ok (toInstr_wf ha hi)
    next => exact .error

theorem decodeForm_wf (text : List Byte) : Reads (fun i => i.wf = true) (decodeForm text) :=
  .bind (lex_commentsWf text) fun _ h => parseForm_wf fun t hmem => h t (List.mem_of_mem_filter hmem)

end Sys2Proof
end

section
/-! PROOF. The invariant (R40, R68): memory's canonical form is kept by every store, and the statements that remain are parts
of well-formed ones. -/

namespace Sys2Proof

/-! ## Parts of well-formed statements -/

theorem Block.wf_of_cons {i : Instr} {rest : Block} (h : (Block.cons i rest).wf = true) :
    i.wf = true ∧ rest.wf = true := by
  simp only [Block.wf, Bool.and_eq_true] at h
  obtain ⟨⟨-, hi⟩, hrest⟩ := h
  exact ⟨hi, hrest⟩

theorem Block.wf_append (a b : Block) : (a.append b).wf = (a.wf && b.wf) := by
  induction a, b using Block.append.induct with
  | case1 b => rfl
  | case2 b i a ih => simp [Block.append, Block.wf, ih, Bool.and_assoc]

theorem Arms.wf_of_has {l : Label} {b : Block} {arms : Arms} (h : arms.Has l b) (hwf : arms.wf = true) :
    b.wf = true := by
  induction arms using Arms.Has.induct with
  | case1 => exact h.elim
  | case2 l' b' rest ih =>
    simp only [Arms.wf, Bool.and_eq_true] at hwf
    obtain ⟨⟨-, hb'⟩, hrest⟩ := hwf
    obtain ⟨-, rfl⟩ | h := h
    · exact hb'
    · exact ih h hrest

end Sys2Proof

namespace Sys2Proof.Machine

/-! ## Memory -/

theorem State.assignPlace_mem_wf {s t : State} {p : Place} {v : Value} (h : s.assignPlace p v = .ok t)
    (hm : s.mem.wf = true) : t.mem.wf = true := by
  obtain ⟨b, -, -, rfl⟩ := State.assignPlace_ok h
  exact Memory.wf_writeBytes _ _ _ _ hm

theorem State.assignName_mem {s t : State} {d : Dest} {v : Value} (h : s.assignName d v = .ok t) : t.mem = s.mem := by
  obtain ⟨r, b, -, rfl⟩ | ⟨l, x, -, -, rfl⟩ | ⟨x, a, -, -, -, rfl⟩ := State.assignName_ok h
  · exact s.setReg_mem r b
  · rfl
  · rfl

theorem State.assign_mem_wf {s t : State} {d : Dest} {v : Value} (h : s.assign d v = .ok t) (hm : s.mem.wf = true) :
    t.mem.wf = true := by
  obtain ⟨p, -, hp⟩ | ⟨-, hn⟩ := State.assign_ok h
  · exact State.assignPlace_mem_wf hp hm
  · rw [State.assignName_mem hn, hm]

theorem State.push_mem_wf {s t : State} {v : Value} (h : s.push v = .ok t) (hm : s.mem.wf = true) :
    t.mem.wf = true := by
  obtain ⟨b, -, h⟩ := bind_eq_ok.mp h
  exact State.assignPlace_mem_wf h (by rw [s.moveStack_mem, hm])

theorem exec_mem_wf {i : Instr} {s t : State} (h : exec i s = .next t) (hm : s.mem.wf = true) : t.mem.wf = true := by
  obtain ⟨d, e, rfl⟩ | ⟨e, rfl, -⟩ | ⟨e, rfl, -, hmem⟩ | ⟨-, hmem⟩ := exec_frame_cases h
  · obtain ⟨v, s', he, ht⟩ := exec_assign_eq_next.mp h
    exact State.assign_mem_wf ht (by rw [(eval_sameRest he).2, hm])
  · obtain ⟨v, s', he, ht⟩ := exec_push_eq_next.mp h
    exact State.push_mem_wf ht (by rw [(eval_sameRest he).2, hm])
  · rw [hmem, hm]
  · rw [hmem, hm]

/-! ## The statements that remain -/

theorem positionWf_enter {b rest : Block} (hb : b.wf = true) (hrest : rest.wf = true) :
    PositionWf ((Position.at rest).enter b) := by
  simp [PositionWf, Block.wf_append, hb, hrest]

/-- A well-formed instruction leaves only well-formed statements to be run: those that followed it, after an IF or a CASE those
of an arm before them, and after END and RETURN none. -/
theorem exec_positionWf {i : Instr} {rest : Block} {s t : State} (hpc : s.pc = .at rest) (hi : i.wf = true)
    (hrest : rest.wf = true) (h : exec i s = .next t) : PositionWf t.pc := by
  cases i with
  | ifThen c thn els =>
    simp only [Instr.wf, Bool.and_eq_true] at hi
    obtain ⟨⟨-, hthn⟩, hels⟩ := hi
    obtain hm | hm := exec_ifThen_movesTo h
    · rw [hm.pc, hpc]
      exact positionWf_enter hthn hrest
    · rw [hm.pc, hpc]
      exact positionWf_enter hels hrest
  | caseOf e arms =>
    simp only [Instr.wf, Bool.and_eq_true] at hi
    obtain ⟨-, harms⟩ := hi
    obtain ⟨l, b, hb, hm⟩ := exec_caseOf_movesTo h
    rw [hm.pc, hpc]
    exact positionWf_enter (Arms.wf_of_has hb harms) hrest
  | endRun =>
    rw [(exec_endRun_movesTo h).pc]
    rfl
  | ret e =>
    rw [(exec_ret_movesTo h).pc]
    rfl
  | _ =>
    rw [(exec_simple_movesTo rfl h).pc, hpc]
    exact hrest

/-! ## Steps -/

theorem readAs_eq_ok {α : Type} {x : Except DecodeError α} {a : α} : readAs x = .ok a ↔ x = .ok a := by
  cases x with
  | ok b => simp [readAs]
  | error e => simp [readAs]

/-- The first instruction of a text is well-formed, though a form is no statement, and so are the statements after it. -/
theorem Launch.read_wf {l : Launch} {i : Instr} {rest : Block} (h : l.read = .ok (.cons i rest)) :
    i.wf = true ∧ rest.wf = true := by
  unfold Launch.read at h
  split at h
  · exact Block.wf_of_cons (decodeAlgorithm_wf _ _ (readAs_eq_ok.mp h))
  · obtain ⟨b, hb, h⟩ := bind_eq_ok.mp h
    split at h
    · cases h
    · cases h
      exact Block.wf_of_cons (decodeAlgorithm_wf _ _ (readAs_eq_ok.mp hb))
  · obtain ⟨j, hj, h⟩ := bind_eq_ok.mp h
    cases h
    exact ⟨decodeForm_wf _ _ (readAs_eq_ok.mp hj), rfl⟩

theorem State.remaining_wf {s t : State} {i : Instr} {rest : Block} (hs : Invariant s)
    (h : s.remaining = .ok (.cons i rest, t)) : t.mem.wf = true ∧ i.wf = true ∧ rest.wf = true := by
  obtain ⟨hm, hp⟩ := hs
  match hpc : s.pc with
  | .start =>
    have hstart : s.start = .ok (.cons i rest, t) := by simpa [State.remaining, hpc] using h
    obtain ⟨hread, o, a, -, -, rfl⟩ := State.start_eq_ok.mp hstart
    exact ⟨hm, Launch.read_wf hread⟩
  | .at b =>
    rw [State.remaining_at hpc] at h
    cases h
    rw [hpc] at hp
    exact ⟨hm, Block.wf_of_cons hp⟩

/-- Settles O7: what remains before the step is well-formed, the statement that runs keeps memory's form and leaves only parts of
what remained, and the end of a function's body touches neither. -/
theorem stepKeepsTheInvariant : Obligations.StepKeepsTheInvariant := by
  unfold Obligations.StepKeepsTheInvariant
  intro s t hs hstep
  obtain ⟨i, rest, s₀, s₁, hrem, hx, rfl⟩ := step_eq_next.mp hstep
  obtain ⟨hm, hi, hrest⟩ := State.remaining_wf hs hrem
  refine ⟨?mem, ?pc⟩
  case mem =>
    rw [State.leave_mem]
    exact exec_mem_wf hx hm
  case pc =>
    rw [State.leave_pc]
    exact exec_positionWf rfl hi hrest hx

end Sys2Proof.Machine
end

section
/-! PROOF. Samples of reading a text, and what every reading keeps (R60, R61, R66, R115). -/

namespace Sys2Proof

/-- Settles O5: reading keeps well-formedness, step by step of the parser. -/
theorem decodedAlgorithmsAreWellFormed : Obligations.DecodedAlgorithmsAreWellFormed :=
  ⟨decodeAlgorithm_wf, decodeForm_wf⟩

/-- Settles O2: the decoder runs on the nine texts. -/
theorem spelledTextsDecodeToTheirInstructions : Obligations.SpelledTextsDecodeToTheirInstructions := by
  unfold Obligations.SpelledTextsDecodeToTheirInstructions
  decide +kernel

/-- Settles O3: the decoder runs on the fifteen texts. -/
theorem sampleTextsAreRefusedByNameWhileRead : Obligations.SampleTextsAreRefusedByNameWhileRead := by
  unfold Obligations.SampleTextsAreRefusedByNameWhileRead
  decide +kernel

end Sys2Proof
end

section
/-! PROOF. Spelled tokens are read back (R54 to R63): the canonical spelling of a token, with the space that `spell` puts after
it, is read as that token and the reading goes on after the space. -/

namespace Sys2Proof

/-! ## One token of a text -/

/-- A byte that starts no comment is foreign or not by itself. -/
theorem hasForeign_cons {c : Byte} {rest : List Byte} (h : (c == 0x28 && rest.head? == some 0x2A) = false) :
    hasForeign false (c :: rest) = (isForeign c || hasForeign false rest) := by
  cases rest with
  | nil => simp [hasForeign]
  | cons b rest =>
    have h' : (c == 0x28 && b == 0x2A) = false := h
    simp only [hasForeign, h', Bool.false_eq_true, if_false]

theorem lex_cons_of_isSpace {c : Byte} (hc : isSpace c = true) (rest : List Byte) : lex (c :: rest) = lex rest := by
  have hcom : (c == 0x28 && rest.head? == some 0x2A) = false := by
    rw [Bool.and_eq_false_iff]
    left
    rw [beq_eq_false_iff_ne]
    rintro rfl
    exact absurd hc (by decide)
  have hf : hasForeign false (c :: rest) = hasForeign false rest := by simp [hasForeign_cons hcom, isForeign, hc]
  simp [lex, hf, lexAux, hc]

/-- The first token of a text with no foreign byte in it, and then the tokens of what follows. -/
theorem lex_of_lexToken {c : Byte} {text rest : List Byte} {t : Token} (hc : isSpace c = false)
    (h : lexToken (c :: text) = .ok (t, rest)) (hf : hasForeign false (c :: text) = hasForeign false rest) :
    lex (c :: text) = (lex rest).map (List.cons t) := by
  have hlen := lexToken_length h
  rw [List.length_cons] at hlen
  unfold lex
  rw [hf]
  split
  · rfl
  · simp only [List.length_cons, lexAux, hc, h, lexAux_fuel text.length rest (by omega), Bool.false_eq_true, if_false]
    cases lexAux rest.length rest <;> rfl

/-- Settles O1: each symbol is the first token of the text, by evaluation, and holds no foreign byte. -/
theorem sourceBytesAndCanonicalSpellingsAreTheSameTokens :
    Obligations.SourceBytesAndCanonicalSpellingsAreTheSameTokens := by
  intro rest
  have heq : lexToken (ascii "=" ++ rest) = .ok (.eq, rest) := by cases rest <;> rfl
  have h11 : lexToken (0x11 :: rest) = .ok (.assign, rest) := by cases rest <;> rfl
  have hF2 : lexToken (0xF2 :: rest) = .ok (.ge, rest) := by cases rest <;> rfl
  have hF3 : lexToken (0xF3 :: rest) = .ok (.le, rest) := by cases rest <;> rfl
  exact ⟨h11, rfl, hF2, rfl, hF3, rfl, rfl, heq,
    lex_of_lexToken rfl h11 (hasForeign_cons rfl),
    lex_of_lexToken rfl rfl ((hasForeign_cons rfl).trans (hasForeign_cons rfl)),
    lex_of_lexToken rfl hF2 (hasForeign_cons rfl),
    lex_of_lexToken rfl rfl ((hasForeign_cons rfl).trans (hasForeign_cons rfl)),
    lex_of_lexToken rfl hF3 (hasForeign_cons rfl),
    lex_of_lexToken rfl rfl ((hasForeign_cons rfl).trans (hasForeign_cons rfl)),
    lex_of_lexToken rfl rfl ((hasForeign_cons rfl).trans (hasForeign_cons rfl)),
    lex_of_lexToken rfl heq (hasForeign_cons rfl)⟩

/-! ## Numerals (R58) -/

/-- The value of decimal digits, read after the value `n`. -/
def decimalValue (n : Nat) (w : List Byte) : Nat := w.foldl (fun n c => 10 * n + (c.toNat - 0x30)) n

theorem isDigit_ne {c d : Byte} (hc : isDigit c = true) (hd : isDigit d = false) : c ≠ d := by
  rintro rfl
  rw [hc] at hd
  cases hd

theorem digit_toNat (n : Nat) : (BitVec.ofNat 8 (0x30 + n % 10)).toNat = 0x30 + n % 10 := by
  rw [BitVec.toNat_ofNat]
  omega

theorem isDigit_digit (n : Nat) : isDigit (BitVec.ofNat 8 (0x30 + n % 10)) = true := by
  simp only [isDigit, digit_toNat, Bool.and_eq_true, decide_eq_true_eq]
  omega

theorem digitsAux_isDigit (fuel n : Nat) {acc : List Byte} (h : ∀ c ∈ acc, isDigit c = true) :
    ∀ c ∈ digitsAux fuel n acc, isDigit c = true := by
  induction fuel generalizing n acc with
  | zero => exact h
  | succ fuel ih =>
    have h' : ∀ c ∈ BitVec.ofNat 8 (0x30 + n % 10) :: acc, isDigit c = true := List.forall_mem_cons.mpr ⟨isDigit_digit n, h⟩
    unfold digitsAux
    dsimp only
    split
    · exact h'
    · exact ih (n / 10) h'

theorem digitsAux_ne_nil (fuel n : Nat) {acc : List Byte} (h : acc ≠ []) : digitsAux fuel n acc ≠ [] := by
  induction fuel generalizing n acc with
  | zero => exact h
  | succ fuel ih =>
    unfold digitsAux
    dsimp only
    split
    · exact List.cons_ne_nil _ _
    · exact ih (n / 10) (List.cons_ne_nil _ _)

theorem decimalValue_digitsAux {fuel n : Nat} (h : n < fuel) (acc : List Byte) :
    decimalValue 0 (digitsAux fuel n acc) = decimalValue n acc := by
  induction fuel generalizing n acc with
  | zero => omega
  | succ fuel ih =>
    have hcons (m : Nat) : decimalValue m (BitVec.ofNat 8 (0x30 + n % 10) :: acc) = decimalValue (10 * m + n % 10) acc := by
      rw [decimalValue, List.foldl_cons, digit_toNat, Nat.add_sub_cancel_left, decimalValue]
    unfold digitsAux
    dsimp only
    split
    · rw [hcons]
      congr 1
      omega
    · rw [ih (by omega), hcons]
      congr 1
      omega

theorem digits_isDigit (n : Nat) : ∀ c ∈ digits n, isDigit c = true := digitsAux_isDigit (n + 1) n nofun

theorem digits_eq_cons (n : Nat) : ∃ c w, digits n = c :: w := by
  have h : digits n ≠ [] := by
    unfold digits digitsAux
    dsimp only
    split
    · exact List.cons_ne_nil _ _
    · exact digitsAux_ne_nil _ _ (List.cons_ne_nil _ _)
  exact List.exists_cons_of_ne_nil h

theorem decimalNumeral?_digits (n : Nat) : decimalNumeral? (digits n) = some n := by
  have hall : (digits n).all isDigit = true := List.all_eq_true.mpr (digits_isDigit n)
  have hval : decimalValue 0 (digits n) = n := decimalValue_digitsAux n.lt_succ_self []
  obtain ⟨c, w, hw⟩ := digits_eq_cons n
  have hne : (digits n).isEmpty = false := by rw [hw]; rfl
  simp only [decimalNumeral?, hne, hall, Bool.not_false, Bool.and_self, if_true]
  exact congrArg some hval

theorem hexNumeral?_of_isDigit {w : List Byte} (h : ∀ c ∈ w, isDigit c = true) : hexNumeral? w = none := by
  have hlast : (w.getLast? == some 0x48) = false :=
    beq_eq_false_iff_ne.mpr fun hH => isDigit_ne (h _ (List.mem_of_getLast? hH)) rfl rfl
  simp only [hexNumeral?, hlast, Bool.false_and, Bool.false_eq_true, if_false]

theorem wordToken_digits (n : Nat) : wordToken (digits n) = .ok (.num n) := by
  simp [wordToken, hexNumeral?_of_isDigit (digits_isDigit n), decimalNumeral?_digits]

theorem takeWord_append {w : List Byte} (hw : ∀ c ∈ w, isWordChar c = true) (rest : List Byte) :
    takeWord (w ++ 0x20 :: rest) = (w, 0x20 :: rest) := by
  induction w with
  | nil => rfl
  | cons c w ih =>
    obtain ⟨hc, hw⟩ := List.forall_mem_cons.mp hw
    simp only [List.cons_append, takeWord, hc, if_true, ih hw]

/-- A name is found only where it starts with the first character of the text. -/
theorem findSpelling_of_first {l : List (List Byte × Token)} {c : Byte}
    (hl : ∀ e ∈ l, ∃ p pat, e.1 = p :: pat ∧ p ≠ 0x20 ∧ p ≠ c) (text : List Byte) : findSpelling l (c :: text) = none := by
  induction l with
  | nil => rfl
  | cons e l ih =>
    obtain ⟨pat, t⟩ := e
    obtain ⟨⟨p, q, hpat, hp, hpc⟩, hmore⟩ := List.forall_mem_cons.mp hl
    obtain rfl : pat = p :: q := hpat
    simp only [findSpelling, stripSpelling, beq_iff_eq, hp, hpc, if_false, ih hmore]

/-- No name starts with a digit. -/
theorem findSpelling_of_isDigit {c : Byte} (hc : isDigit c = true) (text : List Byte) :
    findSpelling wordSpellings (c :: text) = none := by
  refine findSpelling_of_first (fun e he => ?_) text
  have hstart : wordSpellings.all (fun e => !e.1.head?.any isDigit) = true := by decide +kernel
  have hdigit := List.all_eq_true.mp hstart e he
  obtain ⟨p, pat, hpat, hp⟩ := wordSpellings_start e he
  refine ⟨p, pat, hpat, hp, (isDigit_ne hc ?_).symm⟩
  simpa [hpat] using hdigit

theorem lexToken_digits (n : Nat) (rest : List Byte) :
    lexToken (digits n ++ 0x20 :: rest) = .ok (.num n, 0x20 :: rest) := by
  have hword : ∀ c ∈ digits n, isWordChar c = true := fun c hc => by simp [isWordChar, digits_isDigit n c hc]
  have htake := takeWord_append hword rest
  have htok := wordToken_digits n
  obtain ⟨c, w, hw⟩ := digits_eq_cons n
  have hc : isDigit c = true := digits_isDigit n c (hw ▸ List.mem_cons_self)
  have hne : (c == 0x28) = false := beq_eq_false_iff_ne.mpr (isDigit_ne hc rfl)
  have hcw : isWordChar c = true := hword c (hw ▸ List.mem_cons_self)
  rw [hw] at htake htok ⊢
  rw [List.cons_append] at htake ⊢
  simp only [lexToken, hne, hcw, findSpelling_of_isDigit hc, htake, htok, Bool.false_and, Bool.false_eq_true, if_false,
    if_true]

theorem isDigit_not_foreign {c : Byte} (h : isDigit c = true) : isForeign c = false := by
  simp only [isDigit, Bool.and_eq_true, decide_eq_true_eq] at h
  have hrange : (decide (0x20 ≤ c.toNat) && decide (c.toNat ≤ 0x7E)) = true := by
    simp only [Bool.and_eq_true, decide_eq_true_eq]
    omega
  simp only [isForeign, hrange, Bool.or_true, Bool.not_true]

theorem isDigit_not_space {c : Byte} (h : isDigit c = true) : isSpace c = false := by
  simp only [isSpace, Bool.or_eq_false_iff, beq_eq_false_iff_ne]
  exact ⟨⟨⟨isDigit_ne h rfl, isDigit_ne h rfl⟩, isDigit_ne h rfl⟩, isDigit_ne h rfl⟩

theorem hasForeign_digits {w : List Byte} (hw : ∀ c ∈ w, isDigit c = true) (rest : List Byte) :
    hasForeign false (w ++ rest) = hasForeign false rest := by
  induction w with
  | nil => rfl
  | cons c w ih =>
    obtain ⟨hc, hw⟩ := List.forall_mem_cons.mp hw
    have hne : (c == 0x28) = false := beq_eq_false_iff_ne.mpr (isDigit_ne hc rfl)
    rw [List.cons_append, hasForeign_cons (by rw [hne, Bool.false_and]), isDigit_not_foreign hc, Bool.false_or, ih hw]

/-! ## Comments (R55) -/

theorem noCloser_cons {a b : Byte} {text : List Byte} :
    noCloser (a :: b :: text) = true ↔ (a == 0x2A && b == 0x29) = false ∧ noCloser (b :: text) = true := by
  simp only [noCloser, Bool.and_eq_true, Bool.not_eq_true']

/-- A comment ends at the closing symbol that is put after its text. -/
theorem findCloser_append {text : List Byte} (h : noCloser text = true) (rest : List Byte) :
    findCloser (text ++ 0x2A :: 0x29 :: rest) = some (text, rest) := by
  fun_induction noCloser text with
  | case1 => rfl
  | case2 a => simp [findCloser]
  | case3 a b text ih =>
    obtain ⟨hab, h⟩ := noCloser_cons.mp h
    have ih := ih h
    simp only [List.cons_append] at ih ⊢
    simp only [findCloser, hab, Bool.false_eq_true, if_false, ih, Option.map_some]

/-- What stands in a comment is no machine code. -/
theorem hasForeign_comment {text : List Byte} (h : noCloser text = true) (rest : List Byte) :
    hasForeign true (text ++ 0x2A :: 0x29 :: rest) = hasForeign false rest := by
  fun_induction noCloser text with
  | case1 => simp [hasForeign]
  | case2 a => simp [hasForeign]
  | case3 a b text ih =>
    obtain ⟨hab, h⟩ := noCloser_cons.mp h
    have ih := ih h
    simp only [List.cons_append] at ih ⊢
    simp only [hasForeign, hab, Bool.false_eq_true, if_false, ih]

/-! ## The spelling of a token -/

/-- Whether the token is no comment and is read back from its spelling whatever follows the space after it. `Pop` and `TSS` are
not: the spellings of `Pop ST` and `TSS type is 16-bit` go on after a space (R59). An `altNum` has no canonical spelling. -/
def Token.isPlain : Token → Bool
  | .comment _ => false
  | .altNum _ => false
  | .fn .pop => false
  | .tss => false
  | _ => true

theorem lex_space (rest : List Byte) : lex (0x20 :: rest) = lex rest := lex_cons_of_isSpace rfl rest

theorem lex_comment {text : List Byte} (h : noCloser text = true) (rest : List Byte) :
    lex ((Token.comment text).spelling ++ rest) = (lex rest).map (List.cons (.comment text)) := by
  have hspell : (Token.comment text).spelling ++ rest = 0x28 :: 0x2A :: (text ++ 0x2A :: 0x29 :: rest) := by
    have hopen : ascii "(*" = [0x28, 0x2A] := rfl
    have hclose : ascii "*)" = [0x2A, 0x29] := rfl
    simp [Token.spelling, hopen, hclose]
  rw [hspell]
  refine lex_of_lexToken rfl ?_ (hasForeign_comment h rest)
  simp only [lexToken, List.head?_cons, beq_self_eq_true, Bool.and_self, if_true, List.tail_cons, findCloser_append h]

theorem lex_num (n : Nat) (rest : List Byte) :
    lex ((Token.num n).spelling ++ 0x20 :: rest) = (lex (0x20 :: rest)).map (List.cons (.num n)) := by
  have htok := lexToken_digits n rest
  have hforeign := hasForeign_digits (digits_isDigit n) (0x20 :: rest)
  rw [Token.spelling]
  obtain ⟨c, w, hw⟩ := digits_eq_cons n
  have hc : isDigit c = true := digits_isDigit n c (hw ▸ List.mem_cons_self)
  rw [hw] at htok hforeign ⊢
  exact lex_of_lexToken (isDigit_not_space hc) htok hforeign

theorem lex_spelling {t : Token} (h : t.isPlain = true) (rest : List Byte) :
    lex (t.spelling ++ 0x20 :: rest) = (lex rest).map (List.cons t) := by
  rw [← lex_space rest]
  cases t with
  | num n => exact lex_num n rest
  | comment | altNum | tss => cases h
  | kw k => cases k <;> exact lex_of_lexToken rfl rfl rfl
  | reg r => cases r <;> exact lex_of_lexToken rfl rfl rfl
  | seg g => cases g <;> exact lex_of_lexToken rfl rfl rfl
  | loc l => cases l <;> exact lex_of_lexToken rfl rfl rfl
  | operand o => cases o <;> exact lex_of_lexToken rfl rfl rfl
  | fn f =>
    cases f
    case pop => cases h
    all_goals exact lex_of_lexToken rfl rfl rfl
  | _ => exact lex_of_lexToken rfl rfl rfl

/-! ## The spelling of a token sequence -/

theorem spell_append (ts us : List Token) : spell (ts ++ us) = spell ts ++ spell us := by
  induction ts with
  | nil => rfl
  | cons t ts ih => simp [spell, ih]

/-- The tokens are read back from their spelling, whatever text follows it. -/
def SpellsBack (ts : List Token) : Prop := ∀ rest, lex (spell ts ++ rest) = (lex rest).map (ts ++ ·)

theorem map_map_append (x : Except DecodeError (List Token)) (ts us : List Token) :
    (x.map (us ++ ·)).map (ts ++ ·) = x.map (ts ++ us ++ ·) := by
  cases x with
  | error e => rfl
  | ok vs => exact congrArg Except.ok (List.append_assoc ts us vs).symm

theorem spellsBack_nil : SpellsBack [] := fun rest => by
  cases h : lex rest <;> simp [spell, h, Except.map]

theorem SpellsBack.append {ts us : List Token} (ht : SpellsBack ts) (hu : SpellsBack us) : SpellsBack (ts ++ us) :=
  fun rest => by rw [spell_append, List.append_assoc, ht, hu, map_map_append]

theorem SpellsBack.singleton {t : Token} (h : ∀ rest, lex (t.spelling ++ 0x20 :: rest) = (lex rest).map (List.cons t)) :
    SpellsBack [t] := fun rest => by simpa [spell] using h rest

theorem spellsBack_comment {text : List Byte} (h : noCloser text = true) : SpellsBack [.comment text] :=
  .singleton fun rest => by rw [lex_comment h, lex_space]

theorem SpellsBack.plain {ts : List Token} (h : ts.all Token.isPlain = true) : SpellsBack ts := by
  induction ts with
  | nil => exact spellsBack_nil
  | cons t ts ih =>
    rw [List.all_cons, Bool.and_eq_true] at h
    exact (SpellsBack.singleton (lex_spelling h.1)).append (ih h.2)

/-- Tokens between two sequences of plain tokens. -/
theorem SpellsBack.between {ts before after : List Token} (h : SpellsBack ts)
    (hb : before.all Token.isPlain = true) (ha : after.all Token.isPlain = true) :
    SpellsBack (before ++ ts ++ after) := ((SpellsBack.plain hb).append h).append (.plain ha)

theorem spellsBack_pop : SpellsBack [.fn .pop, .lpar] := fun rest => by
  have hpop : lex (spell [.fn .pop, .lpar] ++ rest) = (lex (spell [.lpar] ++ rest)).map (List.cons (.fn .pop)) := by
    rw [← lex_space (spell [.lpar] ++ rest)]
    exact lex_of_lexToken rfl rfl rfl
  rw [hpop, SpellsBack.plain (ts := [_]) rfl]
  exact map_map_append _ [.fn .pop] [.lpar]

theorem spellsBack_tss : SpellsBack [.tss, .plus] := fun rest => by
  have htss : lex (spell [.tss, .plus] ++ rest) = (lex (spell [.plus] ++ rest)).map (List.cons .tss) := by
    rw [← lex_space (spell [.plus] ++ rest)]
    exact lex_of_lexToken rfl rfl rfl
  rw [htss, SpellsBack.plain (ts := [_]) rfl]
  exact map_map_append _ [.tss] [.plus]

theorem SpellsBack.lex_spell {ts : List Token} (h : SpellsBack ts) : lex (spell ts) = .ok ts := by
  have hlex := h []
  rw [List.append_nil] at hlex
  rw [hlex]
  exact congrArg Except.ok (List.append_nil ts)

end Sys2Proof
end

section
/-! PROOF. The canonical spelling of a well-formed term is read back as its tokens (R54 to R66). -/

namespace Sys2Proof

/-! ## Instructions in which no statements stand -/

/-- Whether statements stand in the instruction. -/
def Instr.hasBody : Instr → Bool
  | .ifThen _ _ _ => true
  | .doLoop _ => true
  | .caseOf _ _ => true
  | _ => false

theorem Instr.bodyless_cases {motive : (i : Instr) → i.hasBody = false → Prop}
    (comment : ∀ text, motive (.comment text) rfl) (endRun : motive .endRun rfl) (ret : ∀ e, motive (.ret e) rfl)
    (assign : ∀ d e, motive (.assign d e) rfl) (push : ∀ e, motive (.push e) rfl)
    (expr : ∀ i e h, i.toExpr = some e → motive i h) (i : Instr) (h : i.hasBody = false) : motive i h := by
  cases he : i.toExpr with
  | some e => exact expr i e h he
  | none =>
    cases i
    case comment text => exact comment text
    case endRun => exact endRun
    case ret e => exact ret e
    case assign d e => exact assign d e
    case push e => exact push e
    case ifThen | doLoop | caseOf => cases h
    all_goals cases he

/-- The spelling of an instruction that is an expression: with the `;` of R57 where it is a call. -/
theorem tokens_of_toExpr {i : Instr} {e : Expr} (h : i.toExpr = some e) :
    i.tokens = if i.isForm then e.tokens else callTokens e := by
  cases i <;> cases h <;> rfl

theorem wf_of_toExpr {i : Instr} {e : Expr} (h : i.toExpr = some e) : i.wf = e.wf := by
  cases i
  case bit base off => cases base <;> cases h <;> simp [Instr.wf, BitBase.wf, BitBase.bit, Expr.wf]
  all_goals cases h <;> rfl

theorem toInstr_of_toExpr {i : Instr} {e : Expr} (h : i.toExpr = some e) : e.toInstr = some i := by
  cases i
  case bit base off => cases base <;> cases h <;> rfl
  all_goals cases h <;> rfl

/-- The spelling of an IF whose ELSE arm is not empty, by the arm. -/
theorem tokens_ifThen_of_ne_nil (c : Expr) (t : Block) {e : Block} (he : e ≠ .nil) :
    (Instr.ifThen c t e).tokens =
      [.kw .if_] ++ c.tokens ++ [.kw .then_] ++ t.tokens ++ [.kw .else_] ++ e.tokens ++ [.kw .fi, .semi] := by
  cases e with
  | nil => exact absurd rfl he
  | cons i e => simp only [Instr.tokens, Block.tokens]

/-! ## The spelling of a term is read back -/

theorem numTokens_isPlain (n : Int) : (numTokens n).all Token.isPlain = true := by
  unfold numTokens
  split <;> rfl

theorem addrArg_isPlain (a : AddrArg) : a.tokens.all Token.isPlain = true := by
  cases a with
  | operand o => rfl
  | reg r => cases r <;> rfl
  | num n => exact numTokens_isPlain n

theorem infixToken_isPlain {op : BinOp} {t : Token} (h : op.infixToken = some t) : t.isPlain = true := by
  cases op <;> cases h <;> rfl

/-- The tokens of an expression are plain ones but for `Pop` and `TSS`, each with the token that always follows it. -/
theorem expr_tokens_induction {P : List Token → Prop} (append : ∀ {ts us}, P ts → P us → P (ts ++ us))
    (plain : ∀ {ts : List Token}, ts.all Token.isPlain = true → P ts) (pop : P [.fn .pop, .lpar]) (tss : P [.tss, .plus])
    (e : Expr) : P e.tokens := by
  have between {before ts after : List Token} (h : P ts) (hb : before.all Token.isPlain = true)
      (ha : after.all Token.isPlain = true) : P (before ++ ts ++ after) := append (append (plain hb) h) (plain ha)
  have bracket (e : Expr) {ts : List Token} (h : P ts) : P (e.bracket ts) := by
    unfold Expr.bracket
    split
    · split
      · exact between h rfl rfl
      · exact h
    · exact h
  induction e with
  | num n => exact plain (numTokens_isPlain n)
  | bin op a b iha ihb =>
    unfold Expr.tokens
    split
    next t ht => exact append (append (bracket a iha) (plain (by simp [infixToken_isPlain ht]))) (bracket b ihb)
    next => exact append (append (between iha (by cases op <;> rfl) rfl) ihb) (plain rfl)
  | addr a => exact between (plain (addrArg_isPlain a)) rfl rfl
  | truncate16 e ih | zeroExtend e ih | signExtend e ih => exact between ih rfl rfl
  | pop => exact append pop (plain (ts := [.rpar]) rfl)
  | bitReg r off ih => exact between ih (by cases r <;> rfl) rfl
  | bitOperand o off ih => exact between ih rfl rfl
  | bitMem g base off ihb iho => exact append (append (between ihb rfl rfl) iho) (plain rfl)
  | ioPermission a w iha ihw => exact append (append (between iha rfl rfl) ihw) (plain rfl)
  | memSegReg g r => exact plain (by cases r <;> rfl)
  | tssPointer => exact between (before := [.lbrk]) (after := [.num 66, .rbrk]) tss rfl rfl
  | _ => exact plain rfl

/-- The expression that a destination is (R78). -/
def Dest.toExpr : Dest → Expr
  | .reg r => .reg r
  | .eSP => .eSP
  | .memReg r => .memReg r
  | .memSegReg g r => .memSegReg g r
  | .memOperand o => .memOperand o
  | .dest => .operand .dest
  | .loc l => .loc l
  | .operandSize => .operandSize
  | .tssPointer => .tssPointer
  | .bitString => .bitString

theorem dest_tokens (d : Dest) : d.tokens = d.toExpr.tokens := by cases d <;> rfl

theorem expr_spellsBack (e : Expr) : SpellsBack e.tokens :=
  expr_tokens_induction .append .plain spellsBack_pop spellsBack_tss e

theorem dest_spellsBack (d : Dest) : SpellsBack d.tokens := dest_tokens d ▸ expr_spellsBack d.toExpr

theorem instr_spellsBack_of_hasBody {i : Instr} (hb : i.hasBody = false) (h : i.wf = true) : SpellsBack i.tokens := by
  cases i, hb using Instr.bodyless_cases with
  | comment text => exact spellsBack_comment h
  | endRun => exact .plain rfl
  | ret e => exact (expr_spellsBack e).between rfl rfl
  | assign d e =>
    exact (((dest_spellsBack d).append (.plain rfl)).append (expr_spellsBack e)).append (.plain rfl)
  | push e => exact (expr_spellsBack e).between rfl rfl
  | expr i e hb he =>
    rw [tokens_of_toExpr he]
    split
    · exact expr_spellsBack e
    · exact (expr_spellsBack e).append (.plain rfl)

mutual

theorem instr_spellsBack (i : Instr) (h : i.wf = true) : SpellsBack i.tokens := by
  cases i
  case ifThen c t e =>
    simp only [Instr.wf, Bool.and_eq_true] at h
    obtain ⟨⟨-, ht⟩, he⟩ := h
    have hthen := ((expr_spellsBack c).between (before := [.kw .if_]) (after := [.kw .then_]) rfl rfl).append
      (block_spellsBack t ht)
    have helse := block_spellsBack e he
    by_cases hnil : e = .nil
    · subst hnil
      exact hthen.append (.plain rfl)
    · rw [tokens_ifThen_of_ne_nil c t hnil]
      exact ((hthen.append (.plain rfl)).append helse).append (.plain rfl)
  case doLoop b => exact (block_spellsBack b h).between rfl rfl
  case caseOf e arms =>
    simp only [Instr.wf, Bool.and_eq_true] at h
    obtain ⟨-, harms⟩ := h
    exact (((expr_spellsBack e).between rfl rfl).append (arms_spellsBack arms harms)).append (.plain rfl)
  all_goals exact instr_spellsBack_of_hasBody rfl h

theorem block_spellsBack (b : Block) (h : b.wf = true) : SpellsBack b.tokens := by
  cases b with
  | nil => exact spellsBack_nil
  | cons i rest =>
    simp only [Block.wf, Bool.and_eq_true] at h
    obtain ⟨⟨-, hi⟩, hrest⟩ := h
    exact (instr_spellsBack i hi).append (block_spellsBack rest hrest)

theorem arms_spellsBack (arms : Arms) (h : arms.wf = true) : SpellsBack arms.tokens := by
  cases arms with
  | nil => exact spellsBack_nil
  | cons l b rest =>
    simp only [Arms.wf, Bool.and_eq_true] at h
    obtain ⟨⟨-, hb⟩, hrest⟩ := h
    exact ((SpellsBack.plain (by cases l <;> rfl)).append (block_spellsBack b hb)).append (arms_spellsBack rest hrest)

end

end Sys2Proof
end

section
/-! PROOF. No comment among the tokens of a well-formed term stands inside a statement (R55, R67), so none is dropped. -/

namespace Sys2Proof

/-- No comment of the tokens is dropped, whatever stands before them. -/
def Kept (ts : List Token) : Prop := ∀ prev2 prev, dropInner prev2 prev ts = ts

/-- No comment of the tokens is dropped where a statement can start before them. -/
def KeptAtStart (ts : List Token) : Prop :=
  ∀ prev2 prev, statementStart prev2 prev = true → dropInner prev2 prev ts = ts

theorem dropInner_cons {t : Token} (h : t.isComment = false) (prev2 prev : Option Token) (ts : List Token) :
    dropInner prev2 prev (t :: ts) = t :: dropInner prev (some t) ts := by
  cases t with
  | comment text => cases h
  | _ => rfl

section
variable {ts us : List Token}

theorem kept_nil : Kept [] := fun _ _ => rfl

theorem Kept.atStart (h : Kept ts) : KeptAtStart ts := fun prev2 prev _ => h prev2 prev

theorem Kept.cons {t : Token} (h : Kept ts) (ht : t.isComment = false) : Kept (t :: ts) := fun prev2 prev => by
  rw [dropInner_cons ht, h]

theorem Kept.append (h : Kept us) (hts : ts.all (fun t => !t.isComment) = true) : Kept (ts ++ us) := by
  induction ts with
  | nil => exact h
  | cons t ts ih =>
    simp only [List.all_cons, Bool.and_eq_true, Bool.not_eq_true'] at hts
    obtain ⟨ht, hts⟩ := hts
    exact (ih hts).cons ht

theorem KeptAtStart.comment (h : KeptAtStart ts) (text : List Byte) : KeptAtStart (.comment text :: ts) :=
  fun prev2 prev hs => by rw [dropInner, if_pos hs, h _ _ rfl]

/-- After a token that a statement can follow. -/
theorem KeptAtStart.after {t : Token} (h : KeptAtStart ts) (ht : t.isComment = false)
    (hs : ∀ prev2, statementStart prev2 (some t) = true) : Kept (t :: ts) := fun prev2 prev => by
  rw [dropInner_cons ht, h _ _ (hs prev)]

/-- After the label of a CASE arm. -/
theorem KeptAtStart.afterLabel (h : KeptAtStart ts) (l : Label) : Kept (l.token :: .colon :: ts) := fun prev2 prev => by
  have hl : l.token.isComment = false := by cases l <;> rfl
  have hs : statementStart (some l.token) (some .colon) = true := by
    cases l with
    | num n => rfl
    | truth b => cases b <;> rfl
    | ioWidth w => cases w <;> rfl
  rw [dropInner_cons hl, dropInner_cons rfl, h _ _ hs]

end

/-! ## Terms -/

theorem expr_no_comment (e : Expr) : e.tokens.all (fun t => !t.isComment) = true := by
  have hplain {t : Token} (h : t.isPlain = true) : (!t.isComment) = true := by
    cases t with
    | comment text => cases h
    | _ => rfl
  refine expr_tokens_induction (P := fun ts => ts.all (fun t => !t.isComment) = true) ?append ?plain rfl rfl e
  case append =>
    intro ts us hts hus
    rw [List.all_append, hts, hus]
    rfl
  case plain =>
    intro ts hts
    exact List.all_eq_true.mpr fun t ht => hplain (List.all_eq_true.mp hts t ht)

theorem dest_no_comment (d : Dest) : d.tokens.all (fun t => !t.isComment) = true :=
  dest_tokens d ▸ expr_no_comment d.toExpr

theorem instr_kept_of_hasBody {i : Instr} (hb : i.hasBody = false) (hform : i.isForm = false) {us : List Token}
    (h : KeptAtStart us) : KeptAtStart (i.tokens ++ us) := by
  have hsemi : Kept (.semi :: us) := h.after rfl fun _ => rfl
  have hexpr (e : Expr) : Kept (e.tokens ++ .semi :: us) := hsemi.append (expr_no_comment e)
  cases i, hb using Instr.bodyless_cases with
  | comment text => exact h.comment text
  | endRun => exact (hsemi.cons rfl).atStart
  | ret e => simpa [Instr.tokens] using ((hexpr e).cons (t := .kw .return_) rfl).atStart
  | assign d e => simpa [Instr.tokens] using (((hexpr e).cons (t := .assign) rfl).append (dest_no_comment d)).atStart
  | push e =>
    simpa [Instr.tokens] using (((hsemi.cons (t := .rpar) rfl).append (expr_no_comment e)).append
      (ts := [.fn .push, .lpar]) rfl).atStart
  | expr i e hb he => simpa [tokens_of_toExpr he, hform, callTokens] using (hexpr e).atStart

mutual

theorem instr_kept (i : Instr) (hwf : i.wf = true) (hform : i.isForm = false) {us : List Token} (h : KeptAtStart us) :
    KeptAtStart (i.tokens ++ us) := by
  have hsemi : Kept (.semi :: us) := h.after rfl fun _ => rfl
  cases i
  case ifThen c t e =>
    simp only [Instr.wf, Bool.and_eq_true] at hwf
    obtain ⟨⟨-, ht⟩, he⟩ := hwf
    have hthen {us : List Token} (h : Kept us) : Kept ([.kw .if_] ++ (c.tokens ++ (.kw .then_ :: (t.tokens ++ us)))) :=
      (((block_kept t ht h.atStart).after rfl fun _ => rfl).append (expr_no_comment c)).append rfl
    have hfi : Kept (.kw .fi :: .semi :: us) := hsemi.cons rfl
    by_cases hnil : e = .nil
    · subst hnil
      simpa [Instr.tokens] using (hthen hfi).atStart
    · have helse : Kept (.kw .else_ :: (e.tokens ++ .kw .fi :: .semi :: us)) :=
        (block_kept e he hfi.atStart).after rfl fun _ => rfl
      simpa [tokens_ifThen_of_ne_nil c t hnil] using (hthen helse).atStart
  case doLoop b =>
    have hbody : KeptAtStart (b.tokens ++ .kw .od :: .semi :: us) := block_kept b hwf (hsemi.cons rfl).atStart
    simpa [Instr.tokens] using (hbody.after (t := .kw .do_) rfl fun _ => rfl).atStart
  case caseOf e arms =>
    simp only [Instr.wf, Bool.and_eq_true] at hwf
    obtain ⟨-, harms⟩ := hwf
    have harms : Kept (arms.tokens ++ .kw .esac :: .semi :: us) := arms_kept arms harms (hsemi.cons rfl)
    have hof : Kept ([.kw .of, .colon] ++ (arms.tokens ++ .kw .esac :: .semi :: us)) := harms.append rfl
    simpa [Instr.tokens] using ((hof.append (expr_no_comment e)).cons (t := .kw .case) rfl).atStart
  all_goals exact instr_kept_of_hasBody rfl hform h

theorem block_kept (b : Block) (hwf : b.wf = true) {us : List Token} (h : KeptAtStart us) :
    KeptAtStart (b.tokens ++ us) := by
  cases b with
  | nil => exact h
  | cons i rest =>
    simp only [Block.wf, Bool.and_eq_true, Bool.not_eq_true'] at hwf
    obtain ⟨⟨hform, hi⟩, hrest⟩ := hwf
    simpa [Block.tokens] using instr_kept i hi hform (block_kept rest hrest h)

theorem arms_kept (arms : Arms) (hwf : arms.wf = true) {us : List Token} (h : Kept us) : Kept (arms.tokens ++ us) := by
  cases arms with
  | nil => exact h
  | cons l b rest =>
    simp only [Arms.wf, Bool.and_eq_true] at hwf
    obtain ⟨⟨-, hb⟩, hrest⟩ := hwf
    simpa [Arms.tokens] using (block_kept b hb (arms_kept rest hrest h).atStart).afterLabel l

end

end Sys2Proof
end

section
/-! PROOF. The parser reads an expression back from its tokens (R58 to R62, R75 to R87). A reading needs fuel in proportion to the
number of tokens: at most five calls lead from an expression to an operand. -/

namespace Sys2Proof

@[simp] theorem readOk_bind {α β : Type} (a : α) (f : α → Except DecodeError β) : (Except.ok a >>= f) = f a := rfl

@[simp] theorem expect_self (t : Token) (rest : List Token) : expect t (t :: rest) = .ok rest := if_pos rfl

/-! ## Where an expression ends -/

/-- The first token, if there is one, is none of the operators that `op?` knows. -/
def NoOperator (op? : Token → Option BinOp) (ts : List Token) : Prop := ∀ t ∈ ts.head?, op? t = none

/-- No operator stands at the head of the tokens. -/
structure EndsExpr (ts : List Token) : Prop where
  rel : NoOperator relOp? ts
  sum : NoOperator sumOp? ts
  term : NoOperator termOp? ts

theorem noOperator_cons {op? : Token → Option BinOp} {t : Token} (h : op? t = none) (ts : List Token) :
    NoOperator op? (t :: ts) := fun u hu => by
  obtain rfl : t = u := Option.some.inj hu
  exact h

theorem endsExpr_nil : EndsExpr [] := ⟨nofun, nofun, nofun⟩

theorem endsExpr_cons {t : Token} (hrel : relOp? t = none) (hsum : sumOp? t = none) (hterm : termOp? t = none)
    (ts : List Token) : EndsExpr (t :: ts) :=
  ⟨noOperator_cons hrel ts, noOperator_cons hsum ts, noOperator_cons hterm ts⟩

/-- The operator is read at one of the three strengths (log entry 10). -/
theorem infixToken_strength {op : BinOp} {t : Token} (h : op.infixToken = some t) :
    (relOp? t = some op ∧ sumOp? t = none ∧ termOp? t = none) ∨ (sumOp? t = some op ∧ termOp? t = none) ∨
      termOp? t = some op := by
  cases op <;> cases h <;> simp [relOp?, sumOp?, termOp?]

/-! ## Readings -/

/-- The tokens `ts` are read as the factor `e`, whatever follows them, with the fuel `n` or more. -/
def ReadsFactor (e : Expr) (ts : List Token) (n : Nat) : Prop :=
  ∀ fuel rest, n ≤ fuel → parseFactor fuel (ts ++ rest) = .ok (e, rest)

/-- The tokens `ts` are read as the expression `e`, where no operator follows them, with the fuel `n` or more. -/
def ReadsExpr (e : Expr) (ts : List Token) (n : Nat) : Prop :=
  ∀ fuel rest, n ≤ fuel → EndsExpr rest → parseExpr fuel (ts ++ rest) = .ok (e, rest)

theorem ReadsFactor.mono {e : Expr} {ts : List Token} {n m : Nat} (h : ReadsFactor e ts n) (hnm : n ≤ m) :
    ReadsFactor e ts m := fun fuel rest hfuel => h fuel rest (hnm.trans hfuel)

theorem ReadsExpr.mono {e : Expr} {ts : List Token} {n m : Nat} (h : ReadsExpr e ts n) (hnm : n ≤ m) :
    ReadsExpr e ts m := fun fuel rest hfuel => h fuel rest (hnm.trans hfuel)

section
variable {fuel : Nat} {a : Expr} {ts rest : List Token}

theorem termTail_of_noOperator (h : NoOperator termOp? rest) : termTail (fuel + 1) a rest = .ok (a, rest) := by
  cases rest with
  | nil => rfl
  | cons t rest => simp [termTail, h t rfl]

theorem sumTail_of_noOperator (h : NoOperator sumOp? rest) : sumTail (fuel + 1) a rest = .ok (a, rest) := by
  cases rest with
  | nil => rfl
  | cons t rest => simp [sumTail, h t rfl]

theorem parseTerm_of_factor (hf : parseFactor (fuel + 1) ts = .ok (a, rest)) (hterm : NoOperator termOp? rest) :
    parseTerm (fuel + 2) ts = .ok (a, rest) := by
  simp [parseTerm, hf, termTail_of_noOperator hterm]

theorem parseSum_of_term (ht : parseTerm (fuel + 1) ts = .ok (a, rest)) (hsum : NoOperator sumOp? rest) :
    parseSum (fuel + 2) ts = .ok (a, rest) := by
  simp [parseSum, ht, sumTail_of_noOperator hsum]

theorem parseExpr_of_sum (hs : parseSum fuel ts = .ok (a, rest)) (hrel : NoOperator relOp? rest) :
    parseExpr (fuel + 1) ts = .ok (a, rest) := by
  cases rest with
  | nil => simp [parseExpr, hs]
  | cons t rest => simp [parseExpr, hs, hrel t rfl]

end

/-! ## Operators between their operands -/

theorem ReadsFactor.readsExpr {e : Expr} {ts : List Token} {n : Nat} (h : ReadsFactor e ts (n + 1)) :
    ReadsExpr e ts (n + 4) := fun fuel rest hfuel hrest => by
  obtain ⟨fuel, rfl⟩ : ∃ k, fuel = k + 4 := ⟨fuel - 4, by omega⟩
  have hterm := parseTerm_of_factor (h (fuel + 1) rest (by omega)) hrest.term
  exact parseExpr_of_sum (parseSum_of_term hterm hrest.sum) hrest.rel

theorem readsExpr_infix {op : BinOp} {t : Token} {a b : Expr} {ts us : List Token} {n : Nat}
    (ht : op.infixToken = some t) (ha : ReadsFactor a ts (n + 1)) (hb : ReadsFactor b us (n + 1)) :
    ReadsExpr (.bin op a b) (ts ++ [t] ++ us) (n + 5) := fun fuel rest hfuel hrest => by
  obtain ⟨fuel, rfl⟩ : ∃ k, fuel = k + 5 := ⟨fuel - 5, by omega⟩
  have ha := ha (fuel + 2) (t :: (us ++ rest)) (by omega)
  have hb (k : Nat) (hk : fuel + 1 ≤ k) := hb k rest (by omega)
  have htokens : ts ++ [t] ++ us ++ rest = ts ++ t :: (us ++ rest) := by simp
  rw [htokens]
  obtain ⟨hrel, hsum, hterm⟩ | ⟨hsum, hterm⟩ | hterm := infixToken_strength ht
  · have hsumA := parseSum_of_term (parseTerm_of_factor ha (noOperator_cons hterm _)) (noOperator_cons hsum _)
    have hsumB := parseSum_of_term (parseTerm_of_factor (hb (fuel + 2) (by omega)) hrest.term) hrest.sum
    simp [parseExpr, hsumA, hrel, hsumB]
  · have htermA := parseTerm_of_factor ha (noOperator_cons hterm _)
    have htermB := parseTerm_of_factor (hb (fuel + 1) (by omega)) hrest.term
    refine parseExpr_of_sum ?_ hrest.rel
    simp [parseSum, htermA, sumTail, hsum, htermB, sumTail_of_noOperator hrest.sum]
  · have htermAB : parseTerm (fuel + 3) (ts ++ t :: (us ++ rest)) = .ok (.bin op a b, rest) := by
      simp [parseTerm, ha, termTail, hterm, hb (fuel + 1) (by omega), termTail_of_noOperator hrest.term]
    exact parseExpr_of_sum (parseSum_of_term htermAB hrest.sum) hrest.rel

/-! ## Factors -/

theorem endsExpr_rpar (ts : List Token) : EndsExpr (.rpar :: ts) := endsExpr_cons rfl rfl rfl ts

theorem endsExpr_rbrk (ts : List Token) : EndsExpr (.rbrk :: ts) := endsExpr_cons rfl rfl rfl ts

theorem endsExpr_comma (ts : List Token) : EndsExpr (.comma :: ts) := endsExpr_cons rfl rfl rfl ts

section
variable {e a b : Expr} {ts us : List Token} {n : Nat}

theorem ReadsFactor.of_succ
    (h : ∀ fuel rest, n ≤ fuel → parseFactor (fuel + 1) (ts ++ rest) = .ok (e, rest)) : ReadsFactor e ts (n + 1)
  | 0, _, hfuel => absurd hfuel (by omega)
  | fuel + 1, rest, hfuel => h fuel rest (by omega)

theorem ReadsExpr.parens (h : ReadsExpr e ts n) : ReadsFactor e ([Token.lpar] ++ ts ++ [Token.rpar]) (n + 1) :=
  .of_succ fun fuel rest hfuel => by simp [parseFactor, h fuel (.rpar :: rest) hfuel (endsExpr_rpar rest)]

theorem ReadsExpr.unary {f : FnName} {mk : Expr → Expr} (hf : unaryFn? f = some mk) (h : ReadsExpr e ts n) :
    ReadsFactor (mk e) ([Token.fn f, .lpar] ++ ts ++ [Token.rpar]) (n + 1) :=
  .of_succ fun fuel rest hfuel => by simp [parseFactor, hf, h fuel (.rpar :: rest) hfuel (endsExpr_rpar rest)]

theorem ReadsExpr.binary {f : FnName} {mk : Expr → Expr → Expr} (hunary : unaryFn? f = none)
    (hf : binaryFn? f = some mk) (ha : ReadsExpr a ts n) (hb : ReadsExpr b us n) :
    ReadsFactor (mk a b) ([Token.fn f, .lpar] ++ ts ++ [Token.comma] ++ us ++ [Token.rpar]) (n + 1) :=
  .of_succ fun fuel rest hfuel => by
    have ha := ha fuel (.comma :: (us ++ .rpar :: rest)) hfuel (endsExpr_comma _)
    have hb := hb fuel (.rpar :: rest) hfuel (endsExpr_rpar rest)
    simp [parseFactor, hunary, hf, ha, hb]

theorem ReadsExpr.bitReg (r : RegName) (h : ReadsExpr e ts n) :
    ReadsFactor (.bitReg r e) ([Token.fn .bit, .lbrk, r.token, .comma] ++ ts ++ [Token.rbrk]) (n + 1) :=
  .of_succ fun fuel rest hfuel => by
    have he := h fuel (.rbrk :: rest) hfuel (endsExpr_rbrk rest)
    cases r <;> simp [parseFactor, RegName.token, he]

theorem ReadsExpr.bitOperand (o : OperandName) (h : ReadsExpr e ts n) :
    ReadsFactor (.bitOperand o e) ([Token.fn .bit, .lbrk, .operand o, .comma] ++ ts ++ [Token.rbrk]) (n + 1) :=
  .of_succ fun fuel rest hfuel => by simp [parseFactor, h fuel (.rbrk :: rest) hfuel (endsExpr_rbrk rest)]

theorem ReadsExpr.bitMem (g : SegReg) (ha : ReadsExpr a ts n) (hb : ReadsExpr b us n) :
    ReadsFactor (.bitMem g a b) ([Token.fn .bit, .lbrk, .seg g, .colon] ++ ts ++ [Token.comma] ++ us ++ [Token.rbrk])
      (n + 1) :=
  .of_succ fun fuel rest hfuel => by
    have ha := ha fuel (.comma :: (us ++ .rbrk :: rest)) hfuel (endsExpr_comma _)
    have hb := hb fuel (.rbrk :: rest) hfuel (endsExpr_rbrk rest)
    simp [parseFactor, ha, hb]

end

/-! ## Factors in which no expression stands -/

theorem numTokens_cases (n : Int) :
    (∃ m : Nat, n = m ∧ numTokens n = [.num m]) ∨ ∃ m : Nat, n = -m ∧ numTokens n = [.minus, .num m] := by
  unfold numTokens
  split
  · exact .inr ⟨n.natAbs, by omega, rfl⟩
  · exact .inl ⟨n.natAbs, by omega, rfl⟩

theorem readsFactor_num (n : Int) : ReadsFactor (.num n) (numTokens n) 1 := .of_succ fun fuel rest _ => by
  obtain ⟨m, rfl, htokens⟩ | ⟨m, rfl, htokens⟩ := numTokens_cases n
  all_goals
    rw [htokens]
    rfl

theorem parseAddrArg_tokens (a : AddrArg) (rest : List Token) : parseAddrArg (a.tokens ++ rest) = .ok (a, rest) := by
  cases a with
  | operand o => rfl
  | reg r => cases r <;> rfl
  | num n =>
    obtain ⟨m, rfl, htokens⟩ | ⟨m, rfl, htokens⟩ := numTokens_cases n
    all_goals
      rw [AddrArg.tokens, htokens]
      rfl

theorem readsFactor_addr (a : AddrArg) : ReadsFactor (.addr a) (Expr.addr a).tokens 1 := .of_succ fun fuel rest _ => by
  simp [Expr.tokens, parseFactor, unaryFn?, binaryFn?, parseAtom, Token.atom?, parseAddrArg_tokens]

theorem readsFactor_memReg {r : Reg} (h : r.hasDefaultSegment = true) : ReadsFactor (.memReg r) (Expr.memReg r).tokens 1 :=
  .of_succ fun fuel rest _ => by
    change parseBracket (.reg r :: .rbrk :: rest) = _
    simp [parseBracket, h]

theorem readsFactor_memSegReg (g : SegReg) (r : RegName) :
    ReadsFactor (.memSegReg g r) (Expr.memSegReg g r).tokens 1 := .of_succ fun fuel rest _ => by
  change parseSegBracket g (.colon :: .lbrk :: r.token :: .rbrk :: rest) = _
  have hr : r.token.regName? = some r := by cases r <;> rfl
  simp [parseSegBracket, hr]

theorem readsFactor_memOperand (o : OperandName) : ReadsFactor (.memOperand o) (Expr.memOperand o).tokens 1 :=
  .of_succ fun fuel rest _ => by
    change parseBracket (.operand o :: .rbrk :: rest) = _
    simp [parseBracket]

/-! ## Expressions -/

/-- The expression is read back from its tokens, as an operand of an operator and by itself. -/
structure ReadBack (e : Expr) : Prop where
  operand : ReadsFactor e (e.bracket e.tokens) (5 * (e.bracket e.tokens).length - 3)
  expr : ReadsExpr e e.tokens (5 * e.tokens.length)

/-- A factor of more than `n` tokens whose arguments are read with the fuel for `n` tokens. -/
theorem ReadBack.of_factor {e : Expr} {n : Nat} (hb : e.bracket e.tokens = e.tokens)
    (h : ReadsFactor e e.tokens (5 * n + 1)) (hn : n < e.tokens.length) : ReadBack e where
  operand := by
    rw [hb]
    exact h.mono (by omega)
  expr := h.readsExpr.mono (by omega)

theorem ReadBack.bin_infix {op : BinOp} {t : Token} {a b : Expr} (ht : op.infixToken = some t) (ha : ReadBack a)
    (hb : ReadBack b) : ReadBack (.bin op a b) := by
  have htokens : (Expr.bin op a b).tokens = a.bracket a.tokens ++ [t] ++ b.bracket b.tokens := by
    simp only [Expr.tokens, ht]
  have hbracket (ts : List Token) : (Expr.bin op a b).bracket ts = [Token.lpar] ++ ts ++ [Token.rpar] := by
    simp only [Expr.bracket, ht, Option.isSome_some, if_true]
  have hexpr : ReadsExpr (.bin op a b) (Expr.bin op a b).tokens (5 * (Expr.bin op a b).tokens.length) := by
    rw [htokens]
    refine (readsExpr_infix (n := 5 * ((a.bracket a.tokens).length + (b.bracket b.tokens).length)) ht
      (ha.operand.mono (by omega)) (hb.operand.mono (by omega))).mono ?_
    simp
    omega
  refine ⟨?_, hexpr⟩
  rw [hbracket]
  refine hexpr.parens.mono ?_
  simp
  omega

theorem ReadBack.bin_call {op : BinOp} {a b : Expr} (hop : op.infixToken = none) (ha : ReadBack a) (hb : ReadBack b) :
    ReadBack (.bin op a b) := by
  have htokens : (Expr.bin op a b).tokens =
      [Token.fn op.callName, .lpar] ++ a.tokens ++ [Token.comma] ++ b.tokens ++ [Token.rpar] := by
    simp only [Expr.tokens, hop]
  have hf : unaryFn? op.callName = none ∧ binaryFn? op.callName = some (.bin op) := by
    cases op
    case shr | shl => exact ⟨rfl, rfl⟩
    all_goals cases hop
  refine ReadBack.of_factor (n := a.tokens.length + b.tokens.length) (by simp [Expr.bracket, hop]) ?_
    (by simp [htokens]; omega)
  rw [htokens]
  exact ReadsExpr.binary hf.1 hf.2 (ha.expr.mono (by omega)) (hb.expr.mono (by omega))

theorem expr_readBack (e : Expr) (h : e.wf = true) : ReadBack e := by
  induction e with
  | num n => exact .of_factor (n := 0) rfl (readsFactor_num n) (by unfold Expr.tokens numTokens; split <;> simp)
  | memReg r => exact .of_factor (n := 0) rfl (readsFactor_memReg h) (by simp [Expr.tokens])
  | memSegReg g r => exact .of_factor (n := 0) rfl (readsFactor_memSegReg g r) (by simp [Expr.tokens])
  | memOperand o => exact .of_factor (n := 0) rfl (readsFactor_memOperand o) (by simp [Expr.tokens])
  | addr a => exact .of_factor (n := 0) rfl (readsFactor_addr a) (by simp [Expr.tokens])
  | bin op a b iha ihb =>
    simp only [Expr.wf, Bool.and_eq_true] at h
    obtain ⟨ha, hb⟩ := h
    cases hop : op.infixToken with
    | some t => exact ReadBack.bin_infix hop (iha ha) (ihb hb)
    | none => exact ReadBack.bin_call hop (iha ha) (ihb hb)
  | truncate16 e ih => exact .of_factor rfl (ReadsExpr.unary rfl (ih h).expr) (by simp [Expr.tokens]; omega)
  | zeroExtend e ih => exact .of_factor rfl (ReadsExpr.unary rfl (ih h).expr) (by simp [Expr.tokens]; omega)
  | signExtend e ih => exact .of_factor rfl (ReadsExpr.unary rfl (ih h).expr) (by simp [Expr.tokens]; omega)
  | bitReg r off ih => exact .of_factor rfl (ReadsExpr.bitReg r (ih h).expr) (by simp [Expr.tokens]; omega)
  | bitOperand o off ih => exact .of_factor rfl (ReadsExpr.bitOperand o (ih h).expr) (by simp [Expr.tokens]; omega)
  | bitMem g base off ihb iho =>
    simp only [Expr.wf, Bool.and_eq_true] at h
    obtain ⟨hbase, hoff⟩ := h
    exact .of_factor (n := base.tokens.length + off.tokens.length) rfl
      (ReadsExpr.bitMem g ((ihb hbase).expr.mono (by omega)) ((iho hoff).expr.mono (by omega))) (by simp [Expr.tokens]; omega)
  | ioPermission a w iha ihw =>
    simp only [Expr.wf, Bool.and_eq_true] at h
    obtain ⟨ha, hw⟩ := h
    exact .of_factor (n := a.tokens.length + w.tokens.length) rfl
      (ReadsExpr.binary rfl rfl ((iha ha).expr.mono (by omega)) ((ihw hw).expr.mono (by omega)))
      (by simp [Expr.tokens]; omega)
  | truth b => cases b <;> exact .of_factor (n := 0) rfl (.of_succ fun fuel rest _ => rfl) (by simp [Expr.tokens])
  | ioWidth w => cases w <;> exact .of_factor (n := 0) rfl (.of_succ fun fuel rest _ => rfl) (by simp [Expr.tokens])
  | _ => exact .of_factor (n := 0) rfl (.of_succ fun fuel rest _ => rfl) (by simp [Expr.tokens])

/-- The fuel that the parser gives an expression is enough for its tokens. -/
theorem parseExpr_tokens {e : Expr} (h : e.wf = true) {rest : List Token} (hrest : EndsExpr rest) :
    parseExpr (exprFuel (e.tokens ++ rest)) (e.tokens ++ rest) = .ok (e, rest) := by
  refine (expr_readBack e h).expr _ rest ?_ hrest
  simp only [exprFuel, List.length_append]
  omega

end Sys2Proof
end

section
/-! PROOF. Decoding the canonical spelling (R54 to R87): the parser reads statements back from their tokens, so an algorithm
decodes to itself from its spelling, and a form is refused as an algorithm and decodes as a form. -/

namespace Sys2Proof

/-! ## How an expression begins -/

/-- Whether an expression can begin with the token. -/
def Token.beginsExpr : Token → Bool
  | .comment _ => false
  | .fn .push => false
  | .kw .true_ => true
  | .kw .false_ => true
  | .kw .byte => true
  | .kw .word => true
  | .kw .dword => true
  | .kw _ => false
  | _ => true

/-- The tokens begin as an expression does: with such a token, and not with the label of a CASE arm. -/
def BeginsExpr (ts : List Token) : Prop := (∃ t us, ts = t :: us ∧ t.beginsExpr = true) ∧ label? ts = none

theorem beginsExpr_of_not_constant {t : Token} {us : List Token} (ht : t.beginsExpr = true)
    (hc : t.isConstant = false) : BeginsExpr (t :: us) := by
  refine ⟨⟨t, us, rfl, ht⟩, ?_⟩
  unfold label?
  split
  case h_8 => rfl
  all_goals
    rename_i heq
    cases heq
    cases hc

theorem beginsExpr_of_not_colon {t : Token} {us : List Token} (ht : t.beginsExpr = true)
    (hc : us.head? ≠ some .colon) : BeginsExpr (t :: us) := by
  refine ⟨⟨t, us, rfl, ht⟩, ?_⟩
  unfold label?
  split
  case h_8 => rfl
  all_goals
    rename_i heq
    cases heq
    exact absurd rfl hc

theorem expr_beginsExpr (e : Expr) {rest : List Token} (hrest : rest.head? ≠ some .colon) :
    BeginsExpr (e.tokens ++ rest) := by
  induction e generalizing rest with
  | num n =>
    obtain ⟨m, -, htokens⟩ | ⟨m, -, htokens⟩ := numTokens_cases n
    · rw [Expr.tokens, htokens]
      exact beginsExpr_of_not_colon rfl hrest
    · rw [Expr.tokens, htokens]
      exact beginsExpr_of_not_constant rfl rfl
  | bin op a b iha ihb =>
    unfold Expr.tokens
    split
    next t ht =>
      have hop : t ≠ .colon := by
        rintro rfl
        cases op <;> cases ht
      rw [List.append_assoc, List.append_assoc]
      unfold Expr.bracket
      split
      · split
        · exact beginsExpr_of_not_constant rfl rfl
        · exact iha (by simpa using hop)
      · exact iha (by simpa using hop)
    next => exact beginsExpr_of_not_constant (by cases op <;> rfl) rfl
  | truth b => cases b <;> exact beginsExpr_of_not_colon rfl hrest
  | ioWidth w => cases w <;> exact beginsExpr_of_not_colon rfl hrest
  | _ => exact beginsExpr_of_not_constant rfl rfl

/-- Where an expression begins there is no statement but an assignment or a call. -/
theorem parseInstr_of_beginsExpr {ts : List Token} (h : BeginsExpr ts) (fuel : Nat) :
    parseInstr (fuel + 1) ts = parseSimple ts := by
  obtain ⟨⟨t, us, rfl, ht⟩, -⟩ := h
  unfold parseInstr
  split
  case h_9 => rfl
  all_goals
    rename_i heq
    cases heq
    cases ht

theorem atBlockEnd_of_beginsExpr {ts : List Token} (h : BeginsExpr ts) : atBlockEnd ts = false := by
  obtain ⟨⟨t, us, rfl, ht⟩, hlabel⟩ := h
  unfold atBlockEnd
  rw [hlabel]
  split
  case h_6 => rfl
  case h_1 heq => cases heq
  all_goals
    rename_i heq
    cases heq
    cases ht

/-! ## Statements in which no statements stand -/

theorem endsExpr_semi (ts : List Token) : EndsExpr (.semi :: ts) := endsExpr_cons rfl rfl rfl ts

theorem endsExpr_assign (ts : List Token) : EndsExpr (.assign :: ts) := endsExpr_cons rfl rfl rfl ts

theorem wf_toExpr (d : Dest) : d.toExpr.wf = d.wf := by cases d <;> rfl

theorem toDest_toExpr (d : Dest) : d.toExpr.toDest = .ok d := by cases d <;> rfl

theorem toExpr_not_startsBracket (d : Dest) (rest : List Token) : startsBracket (d.toExpr.tokens ++ rest) = false := by
  cases d <;> rfl

theorem parseSimple_assign {d : Dest} {e : Expr} (hd : d.wf = true) (he : e.wf = true) (rest : List Token) :
    parseSimple (d.toExpr.tokens ++ .assign :: (e.tokens ++ .semi :: rest)) = .ok (.assign d e, rest) := by
  have hdest := parseExpr_tokens (e := d.toExpr) ((wf_toExpr d).trans hd) (endsExpr_assign (e.tokens ++ .semi :: rest))
  simp [parseSimple, hdest, toExpr_not_startsBracket, toDest_toExpr, parseExpr_tokens he (endsExpr_semi rest)]

theorem parseSimple_call {i : Instr} {e : Expr} (h : i.toExpr = some e) (hform : i.isForm = false) (he : e.wf = true)
    (rest : List Token) : parseSimple (e.tokens ++ .semi :: rest) = .ok (i, rest) := by
  have hbracket : startsBracket (e.tokens ++ .semi :: rest) = false := by
    cases i
    case bit base off => cases base <;> cases h <;> rfl
    all_goals cases h <;> cases hform <;> rfl
  simp [parseSimple, parseExpr_tokens he (endsExpr_semi rest), hbracket, toInstr_of_toExpr h, hform]

/-- A form is no statement (R66). -/
theorem parseSimple_form {i : Instr} {e : Expr} (h : i.toExpr = some e) (hform : i.isForm = true) (he : e.wf = true) :
    parseSimple e.tokens = .error .notInGrammar := by
  have hexpr : parseExpr (exprFuel e.tokens) e.tokens = .ok (e, []) := by
    simpa using parseExpr_tokens he endsExpr_nil
  simp [parseSimple, hexpr, toInstr_of_toExpr h, hform]

/-! ## Statements -/

/-- The tokens of the instruction are read as it, with fuel for twice their number, and no statement sequence ends before
them. -/
structure ReadsInstr (i : Instr) : Prop where
  parse (fuel : Nat) (rest : List Token) (h : 2 * i.tokens.length ≤ fuel + 1) :
    parseInstr (fuel + 1) (i.tokens ++ rest) = .ok (i, rest)
  starts (rest : List Token) : atBlockEnd (i.tokens ++ rest) = false

/-- The tokens of the statements are read as they, up to where a statement sequence ends. -/
def ReadsBlock (b : Block) : Prop :=
  ∀ fuel rest, 2 * b.tokens.length ≤ fuel → atBlockEnd rest = true → parseBlock (fuel + 1) (b.tokens ++ rest) = .ok (b, rest)

/-- The tokens of the arms are read as they, up to ESAC. -/
def ReadsArms (arms : Arms) : Prop :=
  ∀ fuel rest, 2 * arms.tokens.length ≤ fuel →
    parseArms (fuel + 1) (arms.tokens ++ .kw .esac :: rest) = .ok (arms, .kw .esac :: rest)

/-- An assignment or a call, read where an expression begins. -/
theorem readsInstr_of_beginsExpr {i : Instr} (hb : ∀ rest, BeginsExpr (i.tokens ++ rest))
    (h : ∀ rest, parseSimple (i.tokens ++ rest) = .ok (i, rest)) : ReadsInstr i where
  parse fuel rest _ := (parseInstr_of_beginsExpr (hb rest) fuel).trans (h rest)
  starts rest := atBlockEnd_of_beginsExpr (hb rest)

theorem readsInstr_assign {d : Dest} {e : Expr} (hd : d.wf = true) (he : e.wf = true) : ReadsInstr (.assign d e) := by
  have htokens (rest : List Token) :
      (Instr.assign d e).tokens ++ rest = d.toExpr.tokens ++ .assign :: (e.tokens ++ .semi :: rest) := by
    simp [Instr.tokens, dest_tokens]
  refine readsInstr_of_beginsExpr (fun rest => ?_) fun rest => ?_
  · exact htokens rest ▸ expr_beginsExpr d.toExpr (by simp)
  · exact htokens rest ▸ parseSimple_assign hd he rest

theorem readsInstr_call {i : Instr} {e : Expr} (h : i.toExpr = some e) (hform : i.isForm = false) (he : e.wf = true) :
    ReadsInstr i := by
  have htokens (rest : List Token) : i.tokens ++ rest = e.tokens ++ .semi :: rest := by
    simp [tokens_of_toExpr h, hform, callTokens]
  refine readsInstr_of_beginsExpr (fun rest => ?_) fun rest => ?_
  · exact htokens rest ▸ expr_beginsExpr e (by simp)
  · exact htokens rest ▸ parseSimple_call h hform he rest

theorem readsInstr_of_hasBody {i : Instr} (hb : i.hasBody = false) (hform : i.isForm = false) (h : i.wf = true) :
    ReadsInstr i := by
  cases i, hb using Instr.bodyless_cases with
  | comment text => exact ⟨fun _ _ _ => rfl, fun _ => rfl⟩
  | endRun => exact ⟨fun _ _ _ => rfl, fun _ => rfl⟩
  | ret e =>
    refine ⟨fun fuel rest _ => ?_, fun _ => rfl⟩
    simp [Instr.tokens, parseInstr, parseExpr_tokens h (endsExpr_semi rest)]
  | assign d e =>
    simp only [Instr.wf, Bool.and_eq_true] at h
    obtain ⟨hd, he⟩ := h
    exact readsInstr_assign hd he
  | push e =>
    refine ⟨fun fuel rest _ => ?_, fun _ => rfl⟩
    simp [Instr.tokens, parseInstr, parseExpr_tokens h (endsExpr_rpar (.semi :: rest))]
  | expr i e hb he => exact readsInstr_call he hform ((wf_of_toExpr he).symm.trans h)

theorem readsInstr_ifThen {c : Expr} {t e : Block} (hc : c.wf = true) (ht : ReadsBlock t) (he : ReadsBlock e) :
    ReadsInstr (.ifThen c t e) := by
  by_cases hnil : e = .nil
  · subst hnil
    refine ⟨fun fuel rest hfuel => ?_, fun _ => rfl⟩
    have hcond := parseExpr_tokens hc (endsExpr_cons (t := .kw .then_) rfl rfl rfl (t.tokens ++ .kw .fi :: .semi :: rest))
    simp only [Instr.tokens, List.length_append, List.length_cons, List.length_nil] at hfuel
    obtain ⟨fuel, rfl⟩ : ∃ k, fuel = k + 1 := ⟨fuel - 1, by omega⟩
    have hthen := ht fuel (.kw .fi :: .semi :: rest) (by omega) rfl
    simp [Instr.tokens, parseInstr, hcond, hthen]
  · have htokens := tokens_ifThen_of_ne_nil c t hnil
    refine ⟨fun fuel rest hfuel => ?_, fun rest => by rw [htokens]; rfl⟩
    have hcond := parseExpr_tokens hc (endsExpr_cons (t := .kw .then_) rfl rfl rfl
      (t.tokens ++ .kw .else_ :: (e.tokens ++ .kw .fi :: .semi :: rest)))
    simp only [htokens, List.length_append, List.length_cons, List.length_nil] at hfuel
    obtain ⟨fuel, rfl⟩ : ∃ k, fuel = k + 1 := ⟨fuel - 1, by omega⟩
    have hthen := ht fuel (.kw .else_ :: (e.tokens ++ .kw .fi :: .semi :: rest)) (by omega) rfl
    have helse := he fuel (.kw .fi :: .semi :: rest) (by omega) rfl
    simp [htokens, parseInstr, hcond, hthen, helse]

theorem readsInstr_doLoop {b : Block} (hb : ReadsBlock b) : ReadsInstr (.doLoop b) := by
  refine ⟨fun fuel rest hfuel => ?_, fun _ => rfl⟩
  simp only [Instr.tokens, List.length_append, List.length_cons, List.length_nil] at hfuel
  obtain ⟨fuel, rfl⟩ : ∃ k, fuel = k + 1 := ⟨fuel - 1, by omega⟩
  have hbody := hb fuel (.kw .od :: .semi :: rest) (by omega) rfl
  simp [Instr.tokens, parseInstr, hbody]

theorem readsInstr_caseOf {e : Expr} {arms : Arms} (he : e.wf = true) (hne : arms ≠ .nil) (harms : ReadsArms arms) :
    ReadsInstr (.caseOf e arms) := by
  refine ⟨fun fuel rest hfuel => ?_, fun _ => rfl⟩
  have hsel := parseExpr_tokens he (endsExpr_cons (t := .kw .of) rfl rfl rfl
    (.colon :: (arms.tokens ++ .kw .esac :: .semi :: rest)))
  simp only [Instr.tokens, List.length_append, List.length_cons, List.length_nil] at hfuel
  obtain ⟨fuel, rfl⟩ : ∃ k, fuel = k + 1 := ⟨fuel - 1, by omega⟩
  have harms := harms fuel (.semi :: rest) (by omega)
  simp [Instr.tokens, parseInstr, hsel, harms, hne]

theorem label?_token (l : Label) (rest : List Token) : label? (l.token :: .colon :: rest) = some (l, rest) := by
  cases l with
  | num n => rfl
  | truth b => cases b <;> rfl
  | ioWidth w => cases w <;> rfl

theorem tokens_cons_append (l : Label) (b : Block) (arms : Arms) (rest : List Token) :
    (Arms.cons l b arms).tokens ++ rest = l.token :: .colon :: (b.tokens ++ (arms.tokens ++ rest)) := by
  simp [Arms.tokens]

/-- The statements of a CASE arm end at the label of the next one and at ESAC (R72). -/
theorem atBlockEnd_arms (arms : Arms) (rest : List Token) : atBlockEnd (arms.tokens ++ .kw .esac :: rest) = true := by
  cases arms with
  | nil => rfl
  | cons l b more =>
    rw [tokens_cons_append]
    unfold atBlockEnd
    rw [label?_token]
    split <;> rfl

theorem readsBlock_cons {i : Instr} {b : Block} (hi : ReadsInstr i) (hb : ReadsBlock b) : ReadsBlock (.cons i b) := by
  intro fuel rest hfuel hrest
  simp only [Block.tokens, List.length_append] at hfuel
  have hne : i.tokens ≠ [] := by
    intro hnil
    have hstarts := hi.starts []
    rw [hnil] at hstarts
    cases hstarts
  have hlen := List.length_pos_of_ne_nil hne
  obtain ⟨fuel, rfl⟩ : ∃ k, fuel = k + 1 := ⟨fuel - 1, by omega⟩
  have hinstr := hi.parse fuel (b.tokens ++ rest) (by omega)
  have hblock := hb fuel rest (by omega) hrest
  rw [Block.tokens, List.append_assoc, parseBlock, hi.starts]
  simp [hinstr, hblock]

theorem readsArms_cons {l : Label} {b : Block} {arms : Arms} (hl : arms.hasLabel l = false) (hb : ReadsBlock b)
    (harms : ReadsArms arms) : ReadsArms (.cons l b arms) := by
  intro fuel rest hfuel
  simp only [Arms.tokens, List.length_append, List.length_cons, List.length_nil] at hfuel
  obtain ⟨fuel, rfl⟩ : ∃ k, fuel = k + 1 := ⟨fuel - 1, by omega⟩
  have hbody := hb fuel (arms.tokens ++ .kw .esac :: rest) (by omega) (atBlockEnd_arms arms rest)
  have harms := harms fuel rest (by omega)
  rw [tokens_cons_append, parseArms, label?_token]
  simp [hbody, harms, hl]

mutual

theorem instr_readBack (i : Instr) (hwf : i.wf = true) (hform : i.isForm = false) : ReadsInstr i := by
  cases i
  case ifThen c t e =>
    simp only [Instr.wf, Bool.and_eq_true] at hwf
    obtain ⟨⟨hc, ht⟩, he⟩ := hwf
    exact readsInstr_ifThen hc (block_readBack t ht) (block_readBack e he)
  case doLoop b => exact readsInstr_doLoop (block_readBack b hwf)
  case caseOf e arms =>
    simp only [Instr.wf, Bool.and_eq_true, decide_eq_true_eq] at hwf
    obtain ⟨⟨he, hne⟩, harms⟩ := hwf
    exact readsInstr_caseOf he hne (arms_readBack arms harms)
  all_goals exact readsInstr_of_hasBody rfl hform hwf

theorem block_readBack (b : Block) (hwf : b.wf = true) : ReadsBlock b := by
  cases b with
  | nil =>
    intro fuel rest _ hrest
    simp [Block.tokens, parseBlock, hrest]
  | cons i rest =>
    simp only [Block.wf, Bool.and_eq_true, Bool.not_eq_true'] at hwf
    obtain ⟨⟨hform, hi⟩, hrest⟩ := hwf
    exact readsBlock_cons (instr_readBack i hi hform) (block_readBack rest hrest)

theorem arms_readBack (arms : Arms) (hwf : arms.wf = true) : ReadsArms arms := by
  cases arms with
  | nil => exact fun _ _ _ => rfl
  | cons l b rest =>
    simp only [Arms.wf, Bool.and_eq_true, Bool.not_eq_true'] at hwf
    obtain ⟨⟨hl, hb⟩, hrest⟩ := hwf
    exact readsArms_cons hl (block_readBack b hb) (arms_readBack rest hrest)

end

/-! ## Texts -/

theorem parseTokens_tokens {b : Block} (h : b.wf = true) : parseTokens b.tokens = .ok b := by
  have hblock := block_readBack b h (2 * b.tokens.length + 1) [] (by omega) rfl
  rw [List.append_nil] at hblock
  simp [parseTokens, hblock]

/-- An algorithm decodes to itself from its canonical spelling. -/
theorem decodeAlgorithm_encodeAlgorithm {b : Block} (h : b.wf = true) : decodeAlgorithm (encodeAlgorithm b) = .ok b := by
  have hlex : lex (encodeAlgorithm b) = .ok b.tokens := (block_spellsBack b h).lex_spell
  have hkept : dropInner none none b.tokens = b.tokens := by
    simpa using block_kept b h kept_nil.atStart none none rfl
  simp [decodeAlgorithm, hlex, hkept, parseTokens_tokens h]

theorem decode_encode_statement {i : Instr} (hform : i.isForm = false) (h : i.wf = true) : decode (encode i) = .ok i := by
  have hwf : (Block.cons i .nil).wf = true := by simp [Block.wf, hform, h]
  have htokens : encode i = encodeAlgorithm (.cons i .nil) := by simp [encode, encodeAlgorithm, Block.tokens]
  simp [decode, htokens, decodeAlgorithm_encodeAlgorithm hwf]

section
variable {i : Instr} {e : Expr} (hi : i.toExpr = some e) (hform : i.isForm = true)
include hi hform

theorem lex_encode_form : lex (encode i) = .ok e.tokens := by
  have htokens : encode i = spell e.tokens := by simp [encode, tokens_of_toExpr hi, hform]
  rw [htokens, (expr_spellsBack e).lex_spell]

variable (he : e.wf = true)
include he

theorem decodeAlgorithm_encode_form : decodeAlgorithm (encode i) = .error .notInGrammar := by
  have hkept : dropInner none none e.tokens = e.tokens := by
    simpa using kept_nil.append (expr_no_comment e) none none
  have hbegins : BeginsExpr e.tokens := by simpa using expr_beginsExpr e (rest := []) (by simp)
  have hparse : parseTokens e.tokens = .error .notInGrammar := by
    simp only [parseTokens, parseBlock, atBlockEnd_of_beginsExpr hbegins, parseInstr_of_beginsExpr hbegins,
      parseSimple_form hi hform he]
    rfl
  simp [decodeAlgorithm, lex_encode_form hi hform, hkept, hparse]

theorem decodeForm_encode_form : decodeForm (encode i) = .ok i := by
  have hfilter : e.tokens.filter (fun t => !t.isComment) = e.tokens :=
    List.filter_eq_self.mpr (List.all_eq_true.mp (expr_no_comment e))
  have hexpr : parseExpr (exprFuel e.tokens) e.tokens = .ok (e, []) := by simpa using parseExpr_tokens he endsExpr_nil
  obtain ⟨⟨t, us, htokens, ht⟩, -⟩ : BeginsExpr e.tokens := by simpa using expr_beginsExpr e (rest := []) (by simp)
  have hparse : parseForm e.tokens = .ok i := by
    unfold parseForm
    split
    next heq =>
      rw [heq] at htokens
      cases htokens
      cases ht
    next => simp [hexpr, toInstr_of_toExpr hi]
  simp [decodeForm, lex_encode_form hi hform, hfilter, hparse]

end

/-- Settles O4: the spelling is read back token by token, and the parser reads the tokens back by induction on the term; a form
is refused as an algorithm first. -/
theorem wellFormedInstructionsDecodeBack : Obligations.WellFormedInstructionsDecodeBack := by
  intro i h
  cases hform : i.isForm with
  | false => exact decode_encode_statement hform h
  | true =>
    obtain ⟨e, hi⟩ : ∃ e, i.toExpr = some e := by cases i <;> cases hform <;> exact ⟨_, rfl⟩
    have he : e.wf = true := (wf_of_toExpr hi).symm.trans h
    simp [decode, decodeAlgorithm_encode_form hi hform he, decodeForm_encode_form hi hform he]

end Sys2Proof
end

section
/-! PROOF. A comment put among the tokens of a canonical spelling (R55): it is read as a comment, also after `Pop` and `TSS`,
whose longer namesakes `Pop ST` and `TSS type is 16-bit` look behind it, and it is dropped where no statement can start. -/

namespace Sys2Proof

/-! ## Comments in a text -/

theorem lexToken_comment_spelling {text : List Byte} (h : noCloser text = true) (rest : List Byte) :
    lexToken (ascii "(*" ++ text ++ ascii "*)" ++ rest) = .ok (.comment text, rest) := by
  have hopen : ascii "(*" = [0x28, 0x2A] := rfl
  have hclose : ascii "*)" = [0x2A, 0x29] := rfl
  simp only [hopen, hclose, List.cons_append, List.nil_append, List.append_assoc, lexToken, List.head?_cons,
    List.tail_cons, beq_self_eq_true, Bool.and_self, if_true, findCloser_append h]

theorem findCloser_of_noCloser {text : List Byte} (h : noCloser text = true) : findCloser text = none := by
  fun_induction noCloser text with
  | case1 | case2 => rfl
  | case3 a b text ih =>
    obtain ⟨hab, h⟩ := noCloser_cons.mp h
    simp only [findCloser, hab, Bool.false_eq_true, if_false, ih h, Option.map_none]

/-- A comment that is not closed is no text of the grammar (R55). -/
theorem lexToken_open_comment {text : List Byte} (h : noCloser text = true) :
    lexToken (ascii "(*" ++ text) = .error .notInGrammar := by
  have hopen : ascii "(*" = [0x28, 0x2A] := rfl
  simp [lexToken, hopen, findCloser_of_noCloser h]

theorem skipGap_in_comment {text : List Byte} (h : noCloser text = true) (rest : List Byte) :
    skipGap true (text ++ 0x2A :: 0x29 :: rest) = skipGap false rest := by
  fun_induction noCloser text with
  | case1 => simp [skipGap]
  | case2 a => simp [skipGap]
  | case3 a b text ih =>
    obtain ⟨hab, h⟩ := noCloser_cons.mp h
    have ih := ih h
    simp only [List.cons_append] at ih ⊢
    simp only [skipGap, hab, Bool.false_eq_true, if_false, ih]

/-! ## A comment after a name -/

theorem comment_spelling (text rest : List Byte) :
    (Token.comment text).spelling ++ rest = 0x28 :: 0x2A :: (text ++ 0x2A :: 0x29 :: rest) := by
  have hopen : ascii "(*" = [0x28, 0x2A] := rfl
  have hclose : ascii "*)" = [0x2A, 0x29] := rfl
  simp [Token.spelling, hopen, hclose]

/-- A comment and the spaces around it are one gap. -/
theorem skipGap_comment {text : List Byte} (h : noCloser text = true) (rest : List Byte) :
    skipGap false (0x20 :: ((Token.comment text).spelling ++ rest)) = skipGap false rest := by
  rw [comment_spelling, ← skipGap_in_comment h rest]
  rfl

theorem findSpelling_append {l₁ l₂ : List (List Byte × Token)} {text : List Byte} (h : findSpelling l₁ text = none) :
    findSpelling (l₁ ++ l₂) text = findSpelling l₂ text := by
  fun_induction findSpelling l₁ text with
  | case1 => rfl
  | case2 => cases h
  | case3 pat t more text rest hr hb ih => simp only [List.cons_append, findSpelling, hr, hb, Bool.false_eq_true, if_false, ih h]
  | case4 pat t more text hr ih => simp only [List.cons_append, findSpelling, hr, ih h]

/-- A name that a space and a comment follow is read, and not the longer one `pat` which begins with it and a space, where what
follows the comment does not continue the longer one. -/
theorem findSpelling_before_comment {before after : List (List Byte × Token)} {name pat more text next : List Byte}
    {t u : Token} (htext : noCloser text = true) (hbefore : ∀ gap, findSpelling before (name ++ 0x20 :: gap) = none)
    (hpat : ∀ gap, stripSpelling pat (name ++ 0x20 :: gap) = stripSpelling more (skipGap false (0x20 :: gap)))
    (hmore : stripSpelling more (skipGap false next) = none)
    (hafter : ∀ gap, findSpelling after (name ++ 0x20 :: gap) = some (t, 0x20 :: gap)) :
    findSpelling (before ++ (pat, u) :: after) (name ++ 0x20 :: ((Token.comment text).spelling ++ next)) =
      some (t, 0x20 :: ((Token.comment text).spelling ++ next)) := by
  rw [findSpelling_append (hbefore _), findSpelling, hpat, skipGap_comment htext, hmore]
  exact hafter _

/-- A name is the first token of a text that holds it as a whole word. -/
theorem lex_of_findSpelling {c : Byte} {text rest : List Byte} {t : Token} (hc : isWordChar c = true)
    (hspace : isSpace c = false) (hround : c ≠ 0x28) (h : findSpelling wordSpellings (c :: text) = some (t, rest))
    (hf : hasForeign false (c :: text) = hasForeign false rest) : lex (c :: text) = (lex rest).map (List.cons t) := by
  refine lex_of_lexToken hspace ?_ hf
  simp only [lexToken, beq_false_of_ne hround, Bool.false_and, Bool.false_eq_true, if_false, hc, if_true, h]

/-- The tokens of a name, a comment after it and a token that is read whatever follows. -/
theorem spellsBack_name_comment {name next : Token} {text : List Byte} (htext : noCloser text = true)
    (hnext : next.isPlain = true)
    (h : ∀ rest, lex (name.spelling ++ 0x20 :: ((Token.comment text).spelling ++ 0x20 :: (next.spelling ++ 0x20 :: rest))) =
      (lex (0x20 :: ((Token.comment text).spelling ++ 0x20 :: (next.spelling ++ 0x20 :: rest)))).map (List.cons name)) :
    SpellsBack [name, .comment text, next] := fun rest => by
  have hrest : SpellsBack [.comment text, next] :=
    (spellsBack_comment htext).append (.plain (ts := [next]) (by simp [hnext]))
  have hname := h rest
  rw [lex_space] at hname
  have hlex := hrest rest
  simp only [spell, List.append_assoc, List.cons_append, List.nil_append] at hlex ⊢
  rw [hname, hlex]
  exact map_map_append _ [name] [.comment text, next]

theorem spellsBack_pop_comment {text : List Byte} (h : noCloser text = true) :
    SpellsBack [.fn .pop, .comment text, .lpar] := by
  have hlist : wordSpellings = wordSpellings.take 18 ++ (ascii "Pop ST", .fn .popSt) :: wordSpellings.drop 19 := rfl
  refine spellsBack_name_comment h rfl fun rest => lex_of_findSpelling rfl rfl (by decide) ?_ rfl
  rw [hlist]
  exact findSpelling_before_comment (name := ascii "Pop") (more := ascii "ST") h (fun _ => rfl) (fun _ => rfl) rfl fun _ => rfl

theorem spellsBack_tss_comment {text : List Byte} (h : noCloser text = true) :
    SpellsBack [.tss, .comment text, .plus] := by
  have hlist : wordSpellings =
      wordSpellings.take 1 ++ (ascii "TSS type is 16-bit", .tssIs16) :: wordSpellings.drop 2 := rfl
  refine spellsBack_name_comment h rfl fun rest => lex_of_findSpelling rfl rfl (by decide) ?_ rfl
  rw [hlist]
  exact findSpelling_before_comment (name := ascii "TSS") (more := ascii "type is 16-bit") h (fun _ => rfl) (fun _ => rfl) rfl
    fun _ => rfl

/-! ## A comment among the tokens of a term -/

/-- What the tokens of a well-formed term are: plain ones, comments, and `Pop` and `TSS` with the token that follows each. -/
inductive Spelled : List Token → Prop where
  | nil : Spelled []
  | plain {t : Token} {ts : List Token} (ht : t.isPlain = true) (h : Spelled ts) : Spelled (t :: ts)
  | comment {text : List Byte} {ts : List Token} (ht : noCloser text = true) (h : Spelled ts) : Spelled (.comment text :: ts)
  | pop {ts : List Token} (h : Spelled ts) : Spelled (.fn .pop :: .lpar :: ts)
  | tss {ts : List Token} (h : Spelled ts) : Spelled (.tss :: .plus :: ts)

theorem Spelled.append {ts us : List Token} (ht : Spelled ts) (hu : Spelled us) : Spelled (ts ++ us) := by
  induction ht with
  | nil => exact hu
  | plain ht _ ih => exact ih.plain ht
  | comment ht _ ih => exact ih.comment ht
  | pop _ ih => exact ih.pop
  | tss _ ih => exact ih.tss

theorem spelled_of_plain {ts : List Token} (h : ts.all Token.isPlain = true) : Spelled ts := by
  induction ts with
  | nil => exact .nil
  | cons t ts ih =>
    rw [List.all_cons, Bool.and_eq_true] at h
    exact (ih h.2).plain h.1

theorem Spelled.spellsBack {ts : List Token} (h : Spelled ts) : SpellsBack ts := by
  induction h with
  | nil => exact spellsBack_nil
  | plain ht _ ih => exact (SpellsBack.plain (ts := [_]) (by simp [ht])).append ih
  | comment ht _ ih => exact (spellsBack_comment ht).append ih
  | pop _ ih => exact spellsBack_pop.append ih
  | tss _ ih => exact spellsBack_tss.append ih

theorem Spelled.between {ts before after : List Token} (h : Spelled ts) (hb : before.all Token.isPlain = true)
    (ha : after.all Token.isPlain = true) : Spelled (before ++ ts ++ after) :=
  ((spelled_of_plain hb).append h).append (spelled_of_plain ha)

/-- Wherever a comment is put among the tokens, they are read back with it. -/
theorem Spelled.spellsBack_insert {ts : List Token} (h : Spelled ts) {text : List Byte} (htext : noCloser text = true)
    {before after : List Token} (hts : ts = before ++ after) : SpellsBack (before ++ .comment text :: after) := by
  have hcomment := spellsBack_comment htext
  induction h generalizing before with
  | nil =>
    obtain ⟨rfl, rfl⟩ := List.nil_eq_append_iff.mp hts
    exact hcomment
  | plain ht h ih =>
    obtain ⟨rfl, rfl⟩ | ⟨before, rfl, hb⟩ := List.cons_eq_append_iff.mp hts
    · exact hcomment.append (h.plain ht).spellsBack
    · exact (SpellsBack.plain (ts := [_]) (by simp [ht])).append (ih hb)
  | comment ht h ih =>
    obtain ⟨rfl, rfl⟩ | ⟨before, rfl, hb⟩ := List.cons_eq_append_iff.mp hts
    · exact hcomment.append (h.comment ht).spellsBack
    · exact (spellsBack_comment ht).append (ih hb)
  | pop h ih =>
    obtain ⟨rfl, rfl⟩ | ⟨before, rfl, hb⟩ := List.cons_eq_append_iff.mp hts
    · exact hcomment.append h.pop.spellsBack
    · obtain ⟨rfl, rfl⟩ | ⟨before, rfl, hb'⟩ := List.cons_eq_append_iff.mp hb
      · exact (spellsBack_pop_comment htext).append h.spellsBack
      · exact spellsBack_pop.append (ih hb')
  | tss h ih =>
    obtain ⟨rfl, rfl⟩ | ⟨before, rfl, hb⟩ := List.cons_eq_append_iff.mp hts
    · exact hcomment.append h.tss.spellsBack
    · obtain ⟨rfl, rfl⟩ | ⟨before, rfl, hb'⟩ := List.cons_eq_append_iff.mp hb
      · exact (spellsBack_tss_comment htext).append h.spellsBack
      · exact spellsBack_tss.append (ih hb')

theorem expr_spelled (e : Expr) : Spelled e.tokens :=
  expr_tokens_induction .append spelled_of_plain (.pop .nil) (.tss .nil) e

theorem instr_spelled_of_hasBody {i : Instr} (hb : i.hasBody = false) (h : i.wf = true) : Spelled i.tokens := by
  cases i, hb using Instr.bodyless_cases with
  | comment text => exact .comment h .nil
  | endRun => exact spelled_of_plain rfl
  | ret e | push e => exact (expr_spelled e).between rfl rfl
  | assign d e =>
    have hdest : Spelled d.tokens := dest_tokens d ▸ expr_spelled d.toExpr
    exact ((hdest.append (spelled_of_plain rfl)).append (expr_spelled e)).append (spelled_of_plain rfl)
  | expr i e hb he =>
    rw [tokens_of_toExpr he]
    split
    · exact expr_spelled e
    · exact (expr_spelled e).append (spelled_of_plain rfl)

mutual

theorem instr_spelled (i : Instr) (h : i.wf = true) : Spelled i.tokens := by
  cases i
  case ifThen c t e =>
    simp only [Instr.wf, Bool.and_eq_true] at h
    obtain ⟨⟨-, ht⟩, he⟩ := h
    have hthen := ((expr_spelled c).between (before := [.kw .if_]) (after := [.kw .then_]) rfl rfl).append
      (block_spelled t ht)
    by_cases hnil : e = .nil
    · subst hnil
      exact hthen.append (spelled_of_plain rfl)
    · rw [tokens_ifThen_of_ne_nil c t hnil, List.append_assoc, List.append_assoc, ← List.append_assoc [_]]
      exact hthen.append ((block_spelled e he).between rfl rfl)
  case doLoop b => exact (block_spelled b h).between rfl rfl
  case caseOf e arms =>
    simp only [Instr.wf, Bool.and_eq_true] at h
    obtain ⟨-, harms⟩ := h
    exact (((expr_spelled e).between rfl rfl).append (arms_spelled arms harms)).append (spelled_of_plain rfl)
  all_goals exact instr_spelled_of_hasBody rfl h

theorem block_spelled (b : Block) (h : b.wf = true) : Spelled b.tokens := by
  cases b with
  | nil => exact .nil
  | cons i rest =>
    simp only [Block.wf, Bool.and_eq_true] at h
    obtain ⟨⟨-, hi⟩, hrest⟩ := h
    exact (instr_spelled i hi).append (block_spelled rest hrest)

theorem arms_spelled (arms : Arms) (h : arms.wf = true) : Spelled arms.tokens := by
  cases arms with
  | nil => exact .nil
  | cons l b rest =>
    simp only [Arms.wf, Bool.and_eq_true] at h
    obtain ⟨⟨-, hb⟩, hrest⟩ := h
    have hlabel : Spelled [l.token, .colon] := spelled_of_plain (by cases l <;> rfl)
    exact (hlabel.append (block_spelled b hb)).append (arms_spelled rest hrest)

end

/-! ## Where a comment is dropped -/

/-- The last two tokens, where `prev2` and `prev` stand before the first: what `dropInner` has seen after them. -/
def lastTwo (prev2 prev : Option Token) : List Token → Option Token × Option Token
  | [] => (prev2, prev)
  | t :: ts => lastTwo prev (some t) ts

theorem lastTwo_concat (prev2 prev : Option Token) (ts : List Token) (t : Token) :
    lastTwo prev2 prev (ts ++ [t]) = ((lastTwo prev2 prev ts).2, some t) := by
  induction ts generalizing prev2 prev with
  | nil => rfl
  | cons u ts ih => exact ih prev (some u)

theorem lastTwo_none (ts : List Token) : lastTwo none none ts = (ts.dropLast.getLast?, ts.getLast?) := by
  have hlast (ts : List Token) : (lastTwo none none ts).2 = ts.getLast? := by
    induction ts using List.reverseRecOn with
    | nil => rfl
    | append_singleton ts t _ => rw [lastTwo_concat, List.getLast?_concat]
  cases ts using List.reverseRecOn with
  | nil => rfl
  | append_singleton ts t => rw [lastTwo_concat, hlast, List.dropLast_concat, List.getLast?_concat]

theorem dropInner_length (prev2 prev : Option Token) (ts : List Token) : (dropInner prev2 prev ts).length ≤ ts.length := by
  fun_induction dropInner prev2 prev ts with
  | case1 => exact le_rfl
  | case2 _ _ t rest _ ih | case4 _ _ t rest _ ih => exact Nat.succ_le_succ ih
  | case3 _ _ t rest _ ih => exact ih.trans (Nat.le_succ _)

/-- A comment put where no statement can start, among tokens of which none is dropped, is dropped (R55). -/
theorem dropInner_insert {before after : List Token} {prev2 prev : Option Token} (text : List Byte)
    (hkept : dropInner prev2 prev (before ++ after) = before ++ after)
    (hs : statementStart (lastTwo prev2 prev before).1 (lastTwo prev2 prev before).2 = false) :
    dropInner prev2 prev (before ++ .comment text :: after) = before ++ after := by
  induction before generalizing prev2 prev with
  | nil =>
    obtain hs : statementStart prev2 prev = false := hs
    simpa [dropInner, hs] using hkept
  | cons t before ih =>
    have hcons : dropInner prev2 prev (t :: (before ++ after)) = t :: dropInner prev (some t) (before ++ after) ∧
        dropInner prev2 prev (t :: (before ++ .comment text :: after)) =
          t :: dropInner prev (some t) (before ++ .comment text :: after) := by
      cases ht : t.isComment with
      | false => exact ⟨dropInner_cons ht _ _ _, dropInner_cons ht _ _ _⟩
      | true =>
        obtain ⟨c, rfl⟩ : ∃ c, t = .comment c := by
          cases t <;> cases ht
          exact ⟨_, rfl⟩
        have hstart : statementStart prev2 prev = true := by
          by_contra hno
          have hlen := dropInner_length prev2 prev (before ++ after)
          rw [List.cons_append, dropInner, if_neg hno] at hkept
          rw [hkept, List.length_cons] at hlen
          omega
        simp only [dropInner, hstart, if_true, and_self]
    rw [List.cons_append, hcons.1, List.cons.injEq] at hkept
    rw [List.cons_append, hcons.2, ih hkept.2 hs, List.cons_append]

theorem dropInner_none_insert {before after : List Token} (text : List Byte)
    (hkept : dropInner none none (before ++ after) = before ++ after)
    (hs : statementStart before.dropLast.getLast? before.getLast? = false) :
    dropInner none none (before ++ .comment text :: after) = before ++ after :=
  dropInner_insert text hkept (by rw [lastTwo_none]; exact hs)

/-- No comment of a well-formed instruction's own tokens is dropped. -/
theorem dropInner_tokens {i : Instr} (hwf : i.wf = true) : dropInner none none i.tokens = i.tokens := by
  cases hform : i.isForm with
  | false => simpa using instr_kept i hwf hform kept_nil.atStart none none rfl
  | true =>
    obtain ⟨e, he⟩ : ∃ e, i.toExpr = some e := by cases i <;> cases hform <;> exact ⟨_, rfl⟩
    simpa [tokens_of_toExpr he, hform] using kept_nil.append (expr_no_comment e) none none

/-- Wherever a comment is put inside the spelling of an instruction, where no statement can start, the text is read, as an
algorithm and as a form, as the spelling is (R55). -/
theorem decode_insert_comment {i : Instr} {text : List Byte} {before after : List Token} (hwf : i.wf = true)
    (htext : noCloser text = true) (htokens : i.tokens = before ++ after)
    (hs : statementStart before.dropLast.getLast? before.getLast? = false) :
    decode (spell (before ++ .comment text :: after)) = decode (encode i) := by
  have hlex : lex (spell (before ++ .comment text :: after)) = .ok (before ++ .comment text :: after) :=
    ((instr_spelled i hwf).spellsBack_insert htext htokens).lex_spell
  have hlex' : lex (encode i) = .ok (before ++ after) := htokens ▸ (instr_spellsBack i hwf).lex_spell
  have hkept : dropInner none none (before ++ after) = before ++ after := htokens ▸ dropInner_tokens hwf
  have halg : decodeAlgorithm (spell (before ++ .comment text :: after)) = decodeAlgorithm (encode i) := by
    simp [decodeAlgorithm, hlex, hlex', hkept, dropInner_none_insert text hkept hs]
  have hform : decodeForm (spell (before ++ .comment text :: after)) = decodeForm (encode i) := by
    simp [decodeForm, hlex, hlex', Token.isComment]
  simp only [decode, halg, hform]

end Sys2Proof
end

section
/-! PROOF. Runs shorten (R68, R130): each step leaves fewer statements than there were. -/

namespace Sys2Proof

theorem Block.count_append (a b : Block) : (a.append b).count = a.count + b.count := by
  induction a, b using Block.append.induct with
  | case1 b => simp [Block.append, Block.count]
  | case2 i a b ih => simp only [Block.append, Block.count, ih, Nat.add_assoc]

theorem Instr.count_pos (i : Instr) : 0 < i.count := by
  cases i
  case ifThen | doLoop | caseOf =>
    rw [Instr.count]
    omega
  all_goals exact Nat.one_pos

theorem Arms.count_of_has {l : Label} {b : Block} {arms : Arms} (h : arms.Has l b) : b.count ≤ arms.count := by
  induction arms using Arms.Has.induct with
  | case1 => exact h.elim
  | case2 l' b' rest ih =>
    rw [Arms.count]
    obtain ⟨-, rfl⟩ | h := h
    · exact Nat.le_add_right _ _
    · exact (ih h).trans (Nat.le_add_left _ _)

end Sys2Proof

namespace Sys2Proof.Machine

/-- A step leaves fewer statements than there were: of an IF or a CASE one arm at most, and of any other none. -/
theorem step_count_lt {s t : State} {b : Block} (hpc : s.pc = .at b) (h : step s = .next t) :
    ∃ c, t.pc = .at c ∧ c.count < b.count := by
  cases b with
  | nil => simp [step, State.remaining_at hpc, runFirst] at h
  | cons i rest =>
    have hpos := Instr.count_pos i
    obtain ⟨hif, hcase, hend, hret, hsimple⟩ := eachStatementMovesThePositionAsItsFormSays i s t rest hpc h
    rw [Block.count]
    cases i with
    | ifThen c thn els =>
      rw [Instr.count]
      obtain ht | ht := hif c thn els rfl
      · exact ⟨_, ht, by rw [Block.count_append]; omega⟩
      · exact ⟨_, ht, by rw [Block.count_append]; omega⟩
    | caseOf e arms =>
      rw [Instr.count]
      obtain ⟨l, a, ha, ht⟩ := hcase e arms rfl
      have hle := Arms.count_of_has ha
      exact ⟨_, ht, by rw [Block.count_append]; omega⟩
    | endRun => exact ⟨_, hend rfl, by rw [Block.count]; omega⟩
    | ret e => exact ⟨_, hret e rfl, by rw [Block.count]; omega⟩
    | _ => exact ⟨rest, hsimple nofun nofun nofun nofun, by omega⟩

theorem not_runsTo_of_count_lt {k : Nat} {s t : State} {b : Block} (hpc : s.pc = .at b) (hk : b.count < k) :
    ¬ RunsTo k s t := by
  induction k generalizing s b with
  | zero => omega
  | succ k ih =>
    intro h
    obtain ⟨m, hstep, hrun⟩ := runsTo_succ.mp h
    obtain ⟨c, hc, hlt⟩ := step_count_lt hpc hstep
    exact ih hc (by omega) hrun

/-- The first step of a run is the step from the place that the statements read are put at. -/
theorem step_of_remaining {s s' : State} {b : Block} (h : s.remaining = .ok (b, s')) : step s = step (s'.setPc (.at b)) := by
  rw [step, h, step, State.remaining_at rfl]
  cases b <;> rfl

/-- Settles O11: each step leaves fewer statements, by induction on the number of steps. -/
theorem everyRunEndsWithinItsStatements : Obligations.EveryRunEndsWithinItsStatements := by
  unfold Obligations.EveryRunEndsWithinItsStatements
  intro s s' t b hrem hrun
  rw [runsTo_succ, step_of_remaining hrem, ← runsTo_succ] at hrun
  exact not_runsTo_of_count_lt rfl (Nat.lt_succ_self _) hrun

end Sys2Proof.Machine
end

section
/-! PROOF. Comments among the statements (R67, log entry 3): removing them commutes with evaluating, with every statement and so
with every step, but that a comment has a step of its own. -/

namespace Sys2Proof

/-- Whether the instruction is a comment. -/
def Instr.isComment : Instr → Bool
  | .comment _ => true
  | _ => false

theorem Instr.eq_comment {i : Instr} (h : i.isComment = true) : ∃ text, i = .comment text := by
  cases i <;> cases h
  exact ⟨_, rfl⟩

theorem Block.strip_comment (text : List Byte) (rest : Block) : (Block.cons (.comment text) rest).strip = rest.strip := by
  simp only [Block.strip]

theorem Block.strip_cons {i : Instr} (h : i.isComment = false) (rest : Block) :
    (Block.cons i rest).strip = .cons i.strip rest.strip := by
  cases i
  case comment => cases h
  all_goals simp only [Block.strip]

theorem Block.strip_append (a b : Block) : (a.append b).strip = a.strip.append b.strip := by
  induction a, b using Block.append.induct with
  | case1 b => simp only [Block.append, Block.strip]
  | case2 i a b ih =>
    cases hi : i.isComment with
    | false => simp only [Block.append, Block.strip_cons hi, ih]
    | true =>
      obtain ⟨text, rfl⟩ := Instr.eq_comment hi
      simp only [Block.append, Block.strip_comment, ih]

theorem Instr.strip_of_toExpr {i : Instr} {e : Expr} (h : i.toExpr = some e) : i.strip = i := by
  cases i <;> cases h <;> rfl

end Sys2Proof

namespace Sys2Proof.Machine

/-- The statement position without the comments among the statements that remain. -/
def Position.strip : Position → Position
  | .start => .start
  | .at b => .at b.strip

/-- The state without the comments among the statements that remain. -/
def State.strip (s : State) : State := s.setPc s.pc.strip

/-- The outcome with `f` applied to the next state. -/
def mapNext (f : State → State) : Host.Outcome State Fault Refusal → Host.Outcome State Fault Refusal
  | .next s => .next (f s)
  | .fault r => .fault r
  | .refused r => .refused r

theorem Position.strip_enter (p : Position) (b : Block) : (p.enter b).strip = p.strip.enter b.strip := by
  match p with
  | .start => rfl
  | .at rest => simp only [Position.enter, Position.strip, Block.strip_append]

theorem outcome_map (f : State → State) (x : Except Stop State) : outcome (x.map f) = mapNext f (outcome x) := by
  rcases x with (r | r) | s <;> rfl

/-! ## Evaluation and the shared operations -/

/-- Two chains that start with one operation and go on alike end alike. -/
theorem bind_comm {α β : Type} {h : β → β} {f f' : α → Except Stop β} (hf : ∀ a, f' a = (f a).map h) (x : Except Stop α) :
    (x >>= f') = (x >>= f).map h := by
  cases x with
  | error e => rfl
  | ok a => exact hf a

theorem State.moveStack_strip (s : State) (n : Int) : s.strip.moveStack n = (s.moveStack n).strip := by
  have hsize : s.strip.stackAddrSize = s.stackAddrSize := rfl
  unfold State.moveStack
  rw [hsize]
  cases s.stackAddrSize <;> rfl

/-- The value and the state without comments. -/
def stripResult (r : Value × State) : Value × State := (r.1, r.2.strip)

/-- Evaluating the expression does not depend on the comments among the statements that remain. -/
def EvalStrips (e : Expr) : Prop := ∀ s, eval e s.strip = (eval e s).map stripResult

section
variable {β : Type} {h : β → β} {a b : Expr}

theorem EvalStrips.bind (ha : EvalStrips a) {f f' : Value × State → Except Stop β}
    (hf : ∀ x s, f' (x, s.strip) = (f (x, s)).map h) (s : State) : (eval a s.strip >>= f') = (eval a s >>= f).map h := by
  rw [ha]
  cases eval a s with
  | error e => rfl
  | ok r => exact hf r.1 r.2

theorem EvalStrips.bind₂ (ha : EvalStrips a) (hb : EvalStrips b) {f : Value × State → Value × State → Except Stop β}
    (hf : ∀ x y s₁ s₂, f (x, s₁.strip) (y, s₂.strip) = (f (x, s₁) (y, s₂)).map h) (s : State) :
    (eval a s.strip >>= fun r => eval b r.2 >>= f r) = (eval a s >>= fun r => eval b r.2 >>= f r).map h :=
  ha.bind (fun x s₁ => hb.bind (fun y s₂ => hf x y s₁ s₂) s₁) s

end

/-- What an expression reads does not depend on the statements that remain. -/
theorem eval_strip (e : Expr) : EvalStrips e := by
  intro s
  induction e generalizing s with
  | num | truth | ioWidth | tssIs16 | reg | operandSize | addressSize | stackAddrSize | instruction | eSP | cmpsw | cmpsd | popSt
    | switchTasks => rfl
  | loc | tssPointer | memSegReg | operand | addr =>
    simp only [eval]
    exact bind_comm (fun _ => by rfl) _
  | bitString | memReg | memOperand =>
    simp only [eval]
    exact bind_comm (fun _ => bind_comm (fun _ => by rfl) _) _
  | pop =>
    refine bind_comm (fun v => ?_) (s.readPlace s.stackTop)
    exact congrArg (fun t => Except.ok (v, t)) (s.moveStack_strip _)
  | bin op a b iha ihb =>
    simp only [eval]
    split
    · rfl
    · exact EvalStrips.bind₂ iha ihb (fun x y _ _ => bind_comm (fun _ => by rfl) _) s
  | ioPermission a w iha ihw =>
    simp only [eval]
    exact EvalStrips.bind₂ iha ihw (fun x y _ s => bind_comm (fun _ => by rfl) _) s
  | bitMem g base off ihb iho =>
    simp only [eval]
    refine EvalStrips.bind₂ ihb iho (fun _ _ _ _ => ?_) s
    exact bind_comm (fun _ => bind_comm (fun _ => bind_comm (fun _ => by rfl) _) _) _
  | bitReg _ off ih | bitOperand _ off ih =>
    simp only [eval]
    exact EvalStrips.bind ih (fun _ _ => bind_comm (fun _ => bind_comm (fun _ => by rfl) _) _) s
  | truncate16 e ih | zeroExtend e ih | signExtend e ih =>
    simp only [eval]
    exact EvalStrips.bind ih (fun _ _ => bind_comm (fun _ => by rfl) _) s

theorem State.assignPlace_strip (s : State) (p : Place) (v : Value) :
    s.strip.assignPlace p v = (s.assignPlace p v).map State.strip := by
  refine bind_comm (fun b => ?_) (v.toWidth p.size.bits)
  have hadmits : s.strip.admits p .write = s.admits p .write := rfl
  simp only [State.memWrite, hadmits]
  split <;> rfl

theorem State.push_strip (s : State) (v : Value) : s.strip.push v = (s.push v).map State.strip := by
  refine bind_comm (fun b => ?_) (v.toWidth s.operandSize.bits)
  exact (s.moveStack_strip _).symm ▸ State.assignPlace_strip _ _ _

theorem State.assignReg_strip (s : State) (r : Reg) (v : Value) :
    s.strip.assignReg r v = (s.assignReg r v).map State.strip :=
  bind_comm (fun b => by cases r <;> rfl) _

theorem State.assignName_strip (s : State) (d : Dest) (v : Value) :
    s.strip.assignName d v = (s.assignName d v).map State.strip := by
  cases d with
  | reg r => exact s.assignReg_strip r v
  | eSP => exact s.assignReg_strip _ v
  | dest =>
    have hlaunch : s.strip.launch = s.launch := rfl
    simp only [State.assignName, hlaunch]
    split
    · exact s.assignReg_strip _ v
    · rfl
    · rfl
  | loc l => exact bind_comm (fun _ => by rfl) v.toLocal
  | operandSize => exact bind_comm (fun x => bind_comm (fun _ => by rfl) (attrOfInt x)) v.int
  | _ => rfl

theorem State.assign_strip (s : State) (d : Dest) (v : Value) : s.strip.assign d v = (s.assign d v).map State.strip := by
  refine bind_comm (fun place => ?_) (s.destPlace d)
  cases place with
  | none => exact s.assignName_strip d v
  | some p => exact s.assignPlace_strip p v

/-! ## Statements -/

theorem selectArm_strip (v : Value) (arms : Arms) : selectArm v arms.strip = (selectArm v arms).map Block.strip := by
  induction arms using selectArm.induct v with
  | case1 => simp [Arms.strip, selectArm]
  | case2 l b rest hm => simp [Arms.strip, selectArm, hm]
  | case3 l b rest hm ih => simp [Arms.strip, selectArm, hm, ih]

theorem strip_setPc_enter (s : State) (b : Block) :
    s.strip.setPc (s.strip.pc.enter b.strip) = (s.setPc (s.pc.enter b)).strip :=
  congrArg s.setPc (s.pc.strip_enter b).symm

/-- A statement without the comments in its arms does what the statement does. -/
theorem exec_strip (i : Instr) (s : State) : exec i.strip s.strip = mapNext State.strip (exec i s) := by
  cases hx : i.toExpr with
  | some e =>
    rw [Instr.strip_of_toExpr hx, exec_of_toExpr hx, exec_of_toExpr hx, evalForm, evalForm, ← outcome_map]
    exact congrArg outcome ((eval_strip e).bind (fun _ _ => by rfl) s)
  | none =>
    cases i with
    | comment text | doLoop body | endRun => rfl
    | ifThen c t e =>
      simp only [Instr.strip, exec, execIfThen, ← outcome_map]
      refine congrArg outcome ((eval_strip c).bind (fun v s => bind_comm (fun b => ?_) v.truthValue) s)
      cases b with
      | true => exact congrArg Except.ok (strip_setPc_enter s t)
      | false => exact congrArg Except.ok (strip_setPc_enter s e)
    | caseOf sel arms =>
      simp only [Instr.strip, exec, execCaseOf, ← outcome_map, selectArm_strip]
      refine congrArg outcome ((eval_strip sel).bind (fun v s => ?_) s)
      dsimp only
      split
      · rfl
      · cases selectArm v arms with
        | none => rfl
        | some b => exact congrArg Except.ok (strip_setPc_enter s b)
    | ret e =>
      have hbody : s.strip.launch.body = s.launch.body := rfl
      simp only [Instr.strip, exec, execRet, hbody]
      cases s.launch.body with
      | algorithm | form => rfl
      | functionBody =>
        simp only [← outcome_map]
        exact congrArg outcome ((eval_strip e).bind (fun v s => by rfl) s)
    | assign d e =>
      simp only [Instr.strip, exec, execAssign, ← outcome_map]
      exact congrArg outcome ((eval_strip e).bind (fun v s => s.assign_strip d v) s)
    | push e =>
      simp only [Instr.strip, exec, execPush, ← outcome_map]
      exact congrArg outcome ((eval_strip e).bind (fun v s => s.push_strip v) s)
    | _ => cases hx

/-! ## The end of a function's body -/

theorem State.leave_of_pc_ne {s : State} (h : s.pc ≠ .at .nil) : s.leave = s := by
  unfold State.leave
  split
  · rfl
  · rfl
  · exact if_neg h

theorem State.leave_of_body_ne {s : State} (h : s.launch.body ≠ .functionBody) : s.leave = s := by
  unfold State.leave
  split
  · rfl
  · rfl
  · exact absurd (by assumption) h

theorem State.leave_functionBody {s : State} (hbody : s.launch.body = .functionBody) (hpc : s.pc = .at .nil) :
    s.leave = s.setLocals .none := by
  simp only [State.leave, hbody, hpc, if_true]

/-- The local variables end once (R26). -/
theorem State.leave_leave (s : State) : s.leave.leave = s.leave := by
  by_cases hbody : s.launch.body = .functionBody
  · by_cases hpc : s.pc = .at .nil
    · rw [State.leave_functionBody hbody hpc]
      exact State.leave_functionBody hbody hpc
    · rw [State.leave_of_pc_ne hpc, State.leave_of_pc_ne hpc]
  · rw [State.leave_of_body_ne hbody, State.leave_of_body_ne hbody]

theorem State.strip_of_pc_nil {s : State} (h : s.pc = .at .nil) : s.strip = s := by
  have hstrip : s.pc.strip = s.pc := by simp only [h, Position.strip, Block.strip]
  rw [State.strip, hstrip, State.setPc_self]

/-- The end of a body is met without the comments where it is met with them, or sooner. -/
theorem State.leave_strip_leave (s : State) : s.leave.strip.leave = s.strip.leave := by
  by_cases hpc : s.pc = .at .nil
  · rw [State.strip_of_pc_nil (s.leave_pc.trans hpc), State.strip_of_pc_nil hpc, State.leave_leave]
  · rw [State.leave_of_pc_ne hpc]

/-! ## Steps and runs -/

theorem step_comment {text : List Byte} {rest : Block} {s : State} (hpc : s.pc = .at (.cons (.comment text) rest)) :
    step s = .next (s.setPc (.at rest)).leave := by
  rw [step, State.remaining_at hpc]
  rfl

theorem State.strip_pc {s : State} {b : Block} (hpc : s.pc = .at b) : s.strip.pc = .at b.strip := by
  simp only [State.strip, State.setPc_pc, hpc, Position.strip]

/-- A step of a statement that is no comment is the step without the comments after it. -/
theorem step_strip {i : Instr} {rest : Block} {s : State} (hpc : s.pc = .at (.cons i rest)) (hi : i.isComment = false) :
    step s.strip.leave = mapNext (fun m => m.strip.leave) (step s) := by
  have hpc' : s.strip.pc = .at (.cons i.strip rest.strip) := by rw [State.strip_pc hpc, Block.strip_cons hi]
  have hexec : exec i.strip (s.strip.setPc (.at rest.strip)) = mapNext State.strip (exec i (s.setPc (.at rest))) :=
    exec_strip i (s.setPc (.at rest))
  rw [State.leave_of_pc_ne (by simp [hpc']), step, State.remaining_at hpc', step, State.remaining_at hpc]
  simp only [runFirst, hexec]
  cases exec i (s.setPc (.at rest)) with
  | next m => simp only [mapNext, leaveBody, State.leave_strip_leave]
  | fault r => rfl
  | refused r => rfl

theorem exists_runsTo_iff {s t : State} (h : s.pc ≠ t.pc) :
    (∃ k, RunsTo k s t) ↔ ∃ m, step s = .next m ∧ ∃ k, RunsTo k m t := by
  constructor
  · rintro ⟨k, hk⟩
    cases k with
    | zero => exact absurd (congrArg State.pc (runsTo_zero.mp hk).symm) h
    | succ k =>
      obtain ⟨m, hstep, hrun⟩ := runsTo_succ.mp hk
      exact ⟨m, hstep, k, hrun⟩
  · rintro ⟨m, hstep, k, hrun⟩
    exact ⟨k + 1, runsTo_succ.mpr ⟨m, hstep, hrun⟩⟩

/-- A run to the end and the run without the comments end alike: a comment has a step that changes nothing, and every other
statement has the same step in both. -/
theorem exists_runsTo_strip {s t : State} {b : Block} (hpc : s.pc = .at b) (hs : s.leave = s) (ht : t.pc = .at .nil) :
    (∃ k, RunsTo k s t) ↔ ∃ k, RunsTo k s.strip.leave t := by
  induction hn : b.count using Nat.strongRecOn generalizing s b with
  | ind n ih =>
    subst hn
    cases b with
    | nil => rw [State.strip_of_pc_nil hpc, hs]
    | cons i rest =>
      have hne : s.pc ≠ t.pc := by simp [hpc, ht]
      have hrest {m : State} (hm : step s = .next m) : (∃ k, RunsTo k m t) ↔ ∃ k, RunsTo k m.strip.leave t := by
        obtain ⟨c, hc, hlt⟩ := step_count_lt hpc hm
        obtain ⟨s₁, -, rfl⟩ := (step_at_eq_next hpc).mp hm
        exact ih c.count hlt hc s₁.leave_leave rfl
      rw [exists_runsTo_iff hne]
      cases hi : i.isComment with
      | true =>
        obtain ⟨text, rfl⟩ := Instr.eq_comment hi
        have hstep := step_comment hpc
        have hstrip : (s.setPc (.at rest)).strip = s.strip := by
          simp only [State.strip, State.setPc_pc, hpc, Position.strip, Block.strip_comment]
          rfl
        rw [← hstrip, ← State.leave_strip_leave, ← hrest hstep, hstep]
        simp
      | false =>
        have hne' : s.strip.leave.pc ≠ t.pc := by simp [State.strip_pc hpc, Block.strip_cons hi, ht]
        rw [exists_runsTo_iff hne', step_strip hpc hi]
        cases hstep : step s with
        | next m => simpa [mapNext] using hrest hstep
        | fault r => simp [mapNext]
        | refused r => simp [mapNext]

/-- Where only comments remain, the run changes nothing but the local variables of a function's body, which end (R26, R67). -/
theorem runsTo_of_strip_nil (b : Block) {s : State} (hpc : s.pc = .at b) (hb : b.strip = .nil) (hne : b ≠ .nil) :
    RunsTo b.count s (s.setPc (.at .nil)).leave := by
  cases b with
  | nil => exact absurd rfl hne
  | cons i rest =>
    cases hi : i.isComment with
    | false =>
      rw [Block.strip_cons hi] at hb
      cases hb
    | true =>
      obtain ⟨text, rfl⟩ := Instr.eq_comment hi
      rw [Block.count, Nat.add_comm]
      refine runsTo_succ.mpr ⟨_, step_comment hpc, ?_⟩
      by_cases hrest : rest = .nil
      · subst hrest
        exact runsTo_zero.mpr rfl
      · rw [State.leave_of_pc_ne (by simpa using hrest)]
        exact runsTo_of_strip_nil rest rfl (Block.strip_comment text rest ▸ hb) hrest

/-- Settles O13: a comment is read up to its closing symbol, dropped inside a statement, and has a step that changes nothing
among statements. -/
theorem commentsHaveNoEffect : Obligations.CommentsHaveNoEffect := by
  unfold Obligations.CommentsHaveNoEffect
  refine ⟨fun _ _ => rfl, fun text rest h => lexToken_comment_spelling h rest, fun text h => lexToken_open_comment h,
    ?inside, ?removed, fun s b hpc hb hne => runsTo_of_strip_nil b hpc hb hne⟩
  case inside =>
    intro i text before after hwf htext htokens hs
    rw [decode_insert_comment hwf htext htokens hs, wellFormedInstructionsDecodeBack i hwf]
  case removed =>
    intro s t b hpc hb ht
    have hstrip : s.strip = s.setPc (.at b.strip) := by rw [State.strip, hpc, Position.strip]
    have hb' : b ≠ .nil := by
      rintro rfl
      exact hb rfl
    rw [exists_runsTo_strip hpc (State.leave_of_pc_ne (by simpa [hpc] using hb')) ht,
      State.leave_of_pc_ne (by simpa [hstrip] using hb), hstrip]

end Sys2Proof.Machine
end

section
/-! PROOF. The start of a run and the statements that direct it (R68 to R73): what a step is at the start and at a statement,
and what IF, CASE, END and RETURN do with the value they evaluate. -/

namespace Sys2Proof

theorem Arms.hasLabel_of_has {l : Label} {b : Block} {arms : Arms} (h : arms.Has l b) : arms.hasLabel l = true := by
  induction arms using Arms.Has.induct with
  | case1 => exact h.elim
  | case2 l' b' rest ih =>
    obtain ⟨rfl, -⟩ | h := h
    · simp [Arms.hasLabel]
    · simp [Arms.hasLabel, ih h]

end Sys2Proof

namespace Sys2Proof.Machine

/-! ## The start of a run -/

theorem step_of_start_ok {s t : State} {b : Block} (hpc : s.pc = .start) (h : s.start = .ok (b, t)) :
    step s = runFirst b t := by
  simp only [step, State.remaining, hpc, h]

theorem step_of_start_refused {s : State} {r : Refusal} (hpc : s.pc = .start) (h : s.start = refuse r) :
    step s = .refused r := by
  simp only [step, State.remaining, hpc, h, refuse, outcome]

theorem State.start_of_read_refused {s : State} {r : Refusal} (h : s.launch.read = refuse r) : s.start = refuse r := by
  simp only [State.start, h, refuse, error_bind]

theorem State.start_of_read_ok {s : State} {b : Block} {o a : AttrSize} (h : s.launch.read = .ok b)
    (ho : s.launch.operandSize = o.bits) (ha : s.launch.addressSize = a.bits) :
    s.start = .ok (b, (s.setOperandSize o).setAddressSize a) :=
  State.start_eq_ok.mpr ⟨h, o, a, ho, ha, rfl⟩

/-- An input other than 16 and 32 is refused, OperandSize or AddressSize (R88, R89). -/
theorem State.start_of_bad_input {s : State} {b : Block} (h : s.launch.read = .ok b)
    (hbad : (s.launch.operandSize ≠ 16 ∧ s.launch.operandSize ≠ 32) ∨
      (s.launch.addressSize ≠ 16 ∧ s.launch.addressSize ≠ 32)) : s.start = refuse .badAttribute := by
  simp only [State.start, h, ok_bind]
  by_cases ho : s.launch.operandSize ≠ 16 ∧ s.launch.operandSize ≠ 32
  · rw [attrOfInt_bad ho.1 ho.2]
    rfl
  · obtain ⟨ha16, ha32⟩ := hbad.resolve_left ho
    rw [attrOfInt_bad ha16 ha32]
    unfold attrOfInt
    split
    · rfl
    · split <;> rfl

section
variable {l : Launch} {b : Block} {e : DecodeError}

theorem Launch.read_functionBody (hl : l.body = .functionBody) (h : decodeAlgorithm l.text = .ok b) : l.read = .ok b := by
  simp only [Launch.read, hl, h, readAs]

theorem Launch.read_algorithm (hl : l.body = .algorithm) (h : decodeAlgorithm l.text = .ok b) :
    l.read = if b.hasReturn then refuse .notInGrammar else .ok b := by
  simp only [Launch.read, hl, h, readAs, ok_bind]

theorem Launch.read_form {i : Instr} (hl : l.body = .form) (h : decodeForm l.text = .ok i) : l.read = .ok (.cons i .nil) := by
  simp only [Launch.read, hl, h, readAs, ok_bind]

theorem Launch.read_refused (hl : l.body ≠ .form) (h : decodeAlgorithm l.text = .error e) :
    l.read = refuse (refusalOf e) := by
  unfold Launch.read
  rw [h]
  split
  · rfl
  · rfl
  next hform => exact absurd hform hl

theorem Launch.read_form_refused (hl : l.body = .form) (h : decodeForm l.text = .error e) : l.read = refuse (refusalOf e) := by
  simp only [Launch.read, hl, h, readAs, refuse, error_bind]

end

/-- Settles O6: the step at the start by what reading and judging the inputs give, and the step at a statement. -/
theorem stepRunsTheStatementAtThePosition : Obligations.StepRunsTheStatementAtThePosition := by
  unfold Obligations.StepRunsTheStatementAtThePosition
  refine ⟨?first, ?later, fun s => ⟨fun hbody hpc => ?_, fun h => ?_⟩, ?refused, ?refusedForm, ?badInput, ?empty, ?ended⟩
  case first =>
    intro s i rest o a hpc ho ha hread
    have hread : s.launch.read = .ok (.cons i rest) := by
      obtain ⟨h, hbody | ⟨hbody, hret⟩⟩ | ⟨h, rfl, hbody⟩ := hread
      · exact Launch.read_functionBody hbody h
      · rw [Launch.read_algorithm hbody h, hret]
        rfl
      · exact Launch.read_form hbody h
    rw [step_of_start_ok hpc (State.start_of_read_ok hread ho ha), runFirst]
  case later =>
    intro s i rest hpc
    rw [step, State.remaining_at hpc]
    rfl
  · exact congrArg Host.Outcome.next (State.leave_functionBody hbody hpc)
  · exact congrArg Host.Outcome.next (h.elim State.leave_of_body_ne State.leave_of_pc_ne)
  case refused =>
    intro s e hpc hbody h
    exact step_of_start_refused hpc (State.start_of_read_refused (Launch.read_refused hbody h))
  case refusedForm =>
    intro s e hpc hbody h
    exact step_of_start_refused hpc (State.start_of_read_refused (Launch.read_form_refused hbody h))
  case badInput =>
    intro s b hpc hread hbad
    exact step_of_start_refused hpc (State.start_of_bad_input hread hbad)
  case empty =>
    intro s o a hpc hread ho ha
    rw [step_of_start_ok hpc (State.start_of_read_ok hread ho ha), runFirst]
  case ended =>
    intro s hpc
    rw [step, State.remaining_at hpc]
    rfl

/-! ## IF and CASE -/

section
variable {e : Expr} {s s' : State} {v : Value} {x : Stop}

theorem exec_ifThen_of_eval (thn els : Block) (h : eval e s = .ok (v, s')) :
    exec (.ifThen e thn els) s =
      outcome (v.truthValue >>= fun b => .ok (s'.setPc (s'.pc.enter (if b then thn else els)))) := by
  simp only [exec, execIfThen, h, ok_bind]

theorem Value.truthValue_of_ne_truth (h : ∀ b, v ≠ .truth b) : v.truthValue = refuse .notInGrammar := by
  cases v with
  | truth b => exact absurd rfl (h b)
  | sized | unsized | ioWidth | name => rfl

theorem exec_caseOf_of_eval (arms : Arms) (hv : ∀ n, v ≠ .name n) (h : eval e s = .ok (v, s')) :
    exec (.caseOf e arms) s = match selectArm v arms with
      | some b => .next (s'.setPc (s'.pc.enter b))
      | none => .fault (.caseNoArm v) := by
  simp only [exec, execCaseOf, h, ok_bind]
  cases v with
  | name n => exact absurd rfl (hv n)
  | _ => cases selectArm _ arms <;> rfl

/-- A value equals one label at most. -/
theorem Label.eq_of_equals {l l' : Label} (h : l.Equals v) (h' : l'.Equals v) : l = l' := by
  cases l with
  | num n =>
    cases l' with
    | num m =>
      have hnm : some (n : Int) = some (m : Int) := h.symm.trans h'
      simpa using hnm
    | truth b | ioWidth w =>
      cases h'
      cases h
  | truth b | ioWidth w =>
    cases h
    cases l' with
    | num | truth | ioWidth => cases h' <;> rfl

theorem labelMatches_iff {l : Label} : labelMatches l v = true ↔ l.Equals v := by
  cases l <;> simp [labelMatches, Label.Equals]

/-- Of arms with different labels the one whose label equals the selector is selected (R72). -/
theorem selectArm_of_has {arms : Arms} {l : Label} {b : Block} (hwf : arms.wf = true) (hb : arms.Has l b)
    (hl : l.Equals v) : selectArm v arms = some b := by
  induction arms using selectArm.induct v with
  | case1 => exact hb.elim
  | case2 l' b' rest hm =>
    obtain rfl := Label.eq_of_equals (labelMatches_iff.mp hm) hl
    simp only [Arms.wf, Bool.and_eq_true, Bool.not_eq_true'] at hwf
    obtain ⟨-, rfl⟩ | hrest := hb
    · simp only [selectArm, hm, if_true]
    · rw [Arms.hasLabel_of_has hrest] at hwf
      exact absurd hwf.1.1 (by decide)
  | case3 l' b' rest hm ih =>
    simp only [Arms.wf, Bool.and_eq_true] at hwf
    obtain ⟨rfl, -⟩ | hrest := hb
    · exact absurd (labelMatches_iff.mpr hl) hm
    · simpa [selectArm, hm] using ih hwf.2 hrest

theorem selectArm_eq_none {arms : Arms} (h : ∀ l b, arms.Has l b → ¬ l.Equals v) : selectArm v arms = none := by
  induction arms using selectArm.induct v with
  | case1 => rfl
  | case2 l b rest hm => exact absurd (labelMatches_iff.mp hm) (h l b (.inl ⟨rfl, rfl⟩))
  | case3 l b rest hm ih => simpa [selectArm, hm] using ih fun l' b' hb => h l' b' (.inr hb)

end

/-- Settles O14: the truth value of the condition selects the arm. -/
theorem ifRunsTheSelectedArm : Obligations.IfRunsTheSelectedArm := by
  unfold Obligations.IfRunsTheSelectedArm
  refine fun c thn els s => ⟨fun s' rest hpc h => ?_, fun s' rest hpc h => ?_, fun v s' h hv => ?_, fun x h => ?_⟩
  · rw [exec_ifThen_of_eval thn els h, hpc]
    rfl
  · rw [exec_ifThen_of_eval thn els h, hpc]
    rfl
  · rw [exec_ifThen_of_eval thn els h, Value.truthValue_of_ne_truth hv]
    rfl
  · simp only [exec, execIfThen, h, error_bind]

/-- Settles O15: the labels of the arms are different, so the one that equals the selector is the one that is selected. -/
theorem caseRunsTheArmWithTheLabel : Obligations.CaseRunsTheArmWithTheLabel := by
  unfold Obligations.CaseRunsTheArmWithTheLabel
  refine fun sel arms s => ⟨?arm, fun s' v h hno hv => ?_, fun s' n h => ?_, fun x h => ?_⟩
  case arm =>
    intro s' v l b rest hwf h hb hl hpc
    have hv : ∀ n, v ≠ .name n := by
      rintro n rfl
      cases l <;> cases hl
    rw [exec_caseOf_of_eval arms hv h, selectArm_of_has hwf hb hl, hpc]
    rfl
  · rw [exec_caseOf_of_eval arms hv h, selectArm_eq_none hno]
  · simp only [exec, execCaseOf, h, ok_bind]
    rfl
  · simp only [exec, execCaseOf, h, error_bind]

/-! ## END and RETURN -/

/-- Settles O16: END moves to the place from which no statement remains, where a function's body ends. -/
theorem endEndsTheRun : Obligations.EndEndsTheRun := by
  unfold Obligations.EndEndsTheRun
  have hstep {s : State} {rest : Block} (hpc : s.pc = .at (.cons .endRun rest)) :
      step s = .next (s.setPc (.at .nil)).leave := by
    rw [step, State.remaining_at hpc]
    rfl
  refine fun s => ⟨rfl, rfl, fun rest hpc hbody => ?_, fun rest hpc hbody => ?_⟩
  · rw [hstep hpc, State.leave_of_body_ne (by simp [hbody])]
  · have hleave : (s.setPc (.at .nil)).leave = (s.setPc (.at .nil)).setLocals .none := State.leave_functionBody hbody rfl
    rw [hstep hpc, hleave]

theorem exec_ret_of_functionBody {s : State} (e : Expr) (hbody : s.launch.body = .functionBody) :
    exec (.ret e) s =
      outcome (eval e s >>= fun r => .ok (((r.2.setResult r.1).setLocals .none).setPc (.at .nil))) := by
  simp only [exec, execRet, hbody]

/-- Settles O17: RETURN by the kind of body, and the reading of an algorithm that holds one. -/
theorem returnEndsTheFunctionBody : Obligations.ReturnEndsTheFunctionBody := by
  unfold Obligations.ReturnEndsTheFunctionBody
  refine ⟨fun e s s' v hbody h => ?_, fun e s x hbody h => ?_, fun e s hbody => ?_, fun s b hpc hbody h hret => ?_⟩
  · rw [exec_ret_of_functionBody e hbody, h]
    rfl
  · rw [exec_ret_of_functionBody e hbody, h]
    rfl
  · simp only [exec, execRet]
    split
    · rfl
    · rfl
    next hf => exact absurd hf hbody
  · have hread : s.launch.read = refuse .notInGrammar := by rw [Launch.read_algorithm hbody h, if_pos hret]
    exact step_of_start_refused hpc (State.start_of_read_refused hread)

/-- Settles O55: the arms of the five forms. -/
theorem formsWithoutMeaningAreRefused : Obligations.FormsWithoutMeaningAreRefused :=
  fun _ => ⟨fun _ => rfl, rfl, rfl, rfl, rfl⟩

end Sys2Proof.Machine
end

section
/-! PROOF. Assignments (R78, R40): what a place of some width receives, and what a register, a local variable and a place in
memory hold afterwards. -/

namespace Sys2Proof.Machine

/-! ## Values and widths -/

section
variable {v : Value} {m w : Nat}

theorem Value.toWidth_of_fits {b : BitVec w} (h : Fits v w b) : v.toWidth w = .ok b := by
  obtain ⟨signed, rfl⟩ | ⟨x, rfl, rfl⟩ := h
  · simp [Value.toWidth]
  · rfl

theorem Value.toWidth_of_other (h : CarriesOtherWidth v m w) : v.toWidth w = raise (.widthMismatch (some m) w) := by
  obtain ⟨hne, b, signed, rfl⟩ := h
  exact if_neg hne

theorem Value.toWidth_of_symbolic (h : Symbolic v) : v.toWidth w = refuse .notInGrammar := by
  cases v with
  | sized w b signed => exact absurd h (not_symbolic_sized w b signed)
  | unsized x => exact absurd h (not_symbolic_unsized x)
  | truth | ioWidth | name => rfl

theorem Value.int_of_symbolic (h : Symbolic v) : v.int = refuse .notInGrammar := by
  unfold Value.int
  rw [h]

theorem Value.int_of_int? {x : Int} (h : v.int? = some x) : v.int = .ok x := by
  unfold Value.int
  rw [h]

/-- What a local variable receives, as a value: the integer without a width, or the symbolic constant (R78). -/
theorem Value.toLocal_of_localReceives {r : Value} (h : LocalReceives v r) : ∃ x, v.toLocal = .ok x ∧ x.value = r := by
  obtain ⟨m, b, signed, rfl, rfl⟩ | ⟨hsized, hname, rfl⟩ := h
  · exact ⟨_, rfl, rfl⟩
  · cases r with
    | sized m b signed => exact absurd rfl (hsized m b signed)
    | name n => exact absurd rfl (hname n)
    | unsized | truth | ioWidth => exact ⟨_, rfl, rfl⟩

end

/-! ## Assignments of an evaluated value -/

section
variable {e : Expr} {s s' : State} {v : Value}

theorem exec_assign_of_eval (d : Dest) (h : eval e s = .ok (v, s')) : exec (.assign d e) s = outcome (s'.assign d v) := by
  simp only [exec, execAssign, h, ok_bind]

theorem State.assign_of_destPlace {d : Dest} {p : Place} (h : s.destPlace d = .ok (some p)) (v : Value) :
    s.assign d v = (v.toWidth p.size.bits >>= s.memWrite p) := by
  simp only [State.assign, h, ok_bind, State.assignPlace]

theorem State.assign_reg (s : State) (r : Reg) (v : Value) :
    s.assign (.reg r) v = (v.toWidth (Reg.width r) >>= fun b => .ok (s.setReg r b)) := rfl

theorem State.assign_loc (s : State) (l : LocalName) (v : Value) :
    s.assign (.loc l) v = (v.toLocal >>= fun x => .ok (s.setLocals (s.locals.set x l))) := rfl

end

/-- Settles O18: what the register receives from each kind of value, and the frame of a write to a register. -/
theorem assignmentToARegister : Obligations.AssignmentToARegister := by
  unfold Obligations.AssignmentToARegister
  intro r e s s' v h
  rw [exec_assign_of_eval _ h, State.assign_reg]
  refine ⟨fun b hb => ⟨s'.setReg r b, ?_, s'.getReg_setReg r b, fun r' hr => s'.getReg_setReg_disjoint r r' b hr, ?_,
    s'.setReg_launch r b, s'.setReg_operandSize r b, s'.setReg_addressSize r b, s'.setReg_mem r b, s'.setReg_locals r b,
    s'.setReg_pc r b, s'.setReg_result r b⟩, fun m hm => ?_, fun hv => ?_⟩
  · rw [Value.toWidth_of_fits hb]
    rfl
  · rintro rfl
    exact s'.setSp_high b
  · rw [Value.toWidth_of_other hm]
    rfl
  · rw [Value.toWidth_of_symbolic hv]
    rfl

/-- Settles O20: the variable holds what it receives, and the others what they held. -/
theorem assignmentToALocalVariable : Obligations.AssignmentToALocalVariable := by
  unfold Obligations.AssignmentToALocalVariable
  intro l e s s' v h
  rw [exec_assign_of_eval _ h, State.assign_loc]
  refine ⟨fun r hr => ?_, ?_⟩
  · obtain ⟨x, hx, rfl⟩ := Value.toLocal_of_localReceives hr
    rw [hx]
    exact ⟨_, rfl, s'.locals.get_set x l, fun l' hne => s'.locals.get_set_of_ne x hne, rfl⟩
  · rintro n rfl
    rfl

/-! ## Admission -/

theorem Denial.covers_iff {d : Denial} {p : Place} {kind : AccessKind} (h : 0 ≤ p.off) :
    d.covers p.seg p.off.toNat p.size kind = true ↔
      d.seg = p.seg ∧ d.kind = kind ∧ d.size = p.size ∧ (d.first : Int) ≤ p.off ∧ p.off ≤ d.last := by
  simp only [Denial.covers, Bool.and_eq_true, decide_eq_true_eq, and_assoc, Int.le_toNat h, Int.toNat_le]

/-- An access is admitted where its bytes lie in the offset range and no entry denies it (R37, R38). -/
theorem State.admits_iff (s : State) (p : Place) (kind : AccessKind) :
    s.admits p kind = true ↔ Within p ∧ ¬ Denied s p kind := by
  simp only [State.admits, Bool.and_eq_true, decide_eq_true_eq, Bool.not_eq_true', List.any_eq_false, Within, Denied,
    not_exists, not_and]
  refine and_congr_right fun ⟨hoff, _⟩ => ?_
  simp only [Denial.covers_iff hoff, not_and]

/-- A store that is admitted writes the bytes of its place and nothing else (R40). -/
theorem State.memWrite_stores {s : State} {p : Place} (b : BitVec p.size.bits) (hm : s.mem.wf = true)
    (ha : s.admits p .write = true) :
    ∃ t, s.memWrite p b = .ok t ∧ HoldsBytes t.mem (s.linear p) p.size.bytes b.toNat ∧
      SameOutside s.mem t.mem (s.linear p) p.size.bytes ∧ t.setMem s.mem = s :=
  ⟨_, State.memWrite_of_admits b ha, fun i hi => Memory.read_writeBytes_inside _ _ _ _ i hm hi,
    fun k hk => Memory.read_writeBytes_outside _ _ _ _ k hm hk, rfl⟩

/-! ## Places -/

theorem State.bitStringPlace_of_get {s : State} {v : Value} (h : s.locals.get .bitStringAddr = some v) :
    s.bitStringPlace = (v.int >>= fun a => .ok (State.tssPlace a Config.iomapReadSize)) := by
  simp only [State.bitStringPlace, State.readLocal, h, ok_bind]

theorem State.destPlace_bitString (s : State) : s.destPlace .bitString = (s.bitStringPlace >>= fun p => .ok (some p)) := rfl

/-- Settles O22: what the place receives from each kind of value, the bytes that a store writes and leaves, and the places of the
two address expressions. -/
theorem assignmentToMemory : Obligations.AssignmentToMemory := by
  unfold Obligations.AssignmentToMemory
  refine ⟨State.admits_iff, fun d e s s' v h => ⟨fun p hp => ?place, fun x hx => ?stop⟩, fun s => ⟨rfl, ?_, ?_, ?_⟩⟩
  case place =>
    rw [exec_assign_of_eval d h, State.assign_of_destPlace hp]
    refine ⟨fun b hb hm ha => ?_, fun m hm => ?_, fun b hb ha => ?_, fun hv => ?_⟩
    · obtain ⟨t, ht, hstored⟩ := State.memWrite_stores b hm ha
      refine ⟨t, ?_, hstored⟩
      rw [Value.toWidth_of_fits hb, ok_bind, ht]
      rfl
    · rw [Value.toWidth_of_other hm]
      rfl
    · rw [Value.toWidth_of_fits hb, ok_bind, State.memWrite_stuck b ha]
      rfl
    · rw [Value.toWidth_of_symbolic hv]
      rfl
  case stop =>
    rw [exec_assign_of_eval d h, State.assign, hx]
    rfl
  · intro a ha
    rw [State.destPlace_bitString, State.bitStringPlace_of_get ha]
    rfl
  · intro hnone
    rw [State.destPlace_bitString, State.bitStringPlace, State.readLocal, hnone]
    rfl
  · intro v hv hs
    rw [State.destPlace_bitString, State.bitStringPlace_of_get hv, Value.int_of_symbolic hs]
    rfl

end Sys2Proof.Machine
end

section
/-! PROOF. The operand forms (R74 to R77): a register reads as its contents, and a bracketed form as the bytes of its place, which
is its destination too. -/

namespace Sys2Proof.Machine

/-! ## Bytes -/

theorem Memory.read_toNat (m : Memory) (a n : Nat) (hn : 0 < n) : (m.read a).toNat = m.readBytes a n % 256 := by
  cases n with
  | zero => omega
  | succ n =>
    rw [Memory.readBytes]
    have := (m.read a).isLt
    omega

/-- The bytes that are read hold the number that they read as (R32, R34). -/
theorem Memory.holdsBytes_readBytes (m : Memory) (a n : Nat) : HoldsBytes m a n (m.readBytes a n) := by
  induction n generalizing a with
  | zero => exact fun i hi => absurd hi (Nat.not_lt_zero i)
  | succ n ih =>
    intro i hi
    cases i with
    | zero =>
      apply BitVec.eq_of_toNat_eq
      rw [pow_zero, Nat.div_one, BitVec.toNat_ofNat]
      exact Memory.read_toNat m a (n + 1) (Nat.succ_pos n)
    | succ i =>
      have hlt : (m.read a).toNat < 256 := (m.read a).isLt
      have hdiv : m.readBytes a (n + 1) / 256 = m.readBytes (a + 1) n := by
        rw [Memory.readBytes]
        omega
      rw [pow_succ', ← Nat.div_div_eq_div_mul, hdiv, ← ih (a + 1) i (by omega), Nat.add_right_comm, Nat.add_assoc]

/-- Bytes that hold a number are read as it, modulo what they can hold. -/
theorem Memory.readBytes_of_holdsBytes {m : Memory} {a n v : Nat} (h : HoldsBytes m a n v) : m.readBytes a n = v % 256 ^ n := by
  induction n generalizing a v with
  | zero => simp [Memory.readBytes, Nat.mod_one]
  | succ n ih =>
    have hfirst : m.read a = BitVec.ofNat 8 v := by simpa using h 0 (Nat.succ_pos n)
    have hrest : HoldsBytes m (a + 1) n (v / 256) := fun i hi => by
      rw [Nat.div_div_eq_div_mul, ← pow_succ', ← h (i + 1) (by omega), Nat.add_right_comm, Nat.add_assoc]
    rw [Memory.readBytes, hfirst, ih hrest, BitVec.toNat_ofNat, show (256 : Nat) ^ (n + 1) = 256 * 256 ^ n from pow_succ' 256 n,
      Nat.mod_mul]

theorem Size.two_pow_bits (z : Size) : 2 ^ z.bits = 256 ^ z.bytes := by cases z <;> rfl

/-! ## Reading a place -/

/-- The value that the bytes of a place read as. -/
def State.bitsAt (s : State) (p : Place) : BitVec p.size.bits := BitVec.ofNat _ (s.mem.readBytes (s.linear p) p.size.bytes)

theorem State.holdsBytes_bitsAt (s : State) (p : Place) :
    HoldsBytes s.mem (s.linear p) p.size.bytes (s.bitsAt p).toNat := by
  have hlt := s.mem.readBytes_lt (s.linear p) p.size.bytes
  rw [State.bitsAt, BitVec.toNat_ofNat, Size.two_pow_bits, Nat.mod_eq_of_lt hlt]
  exact Memory.holdsBytes_readBytes _ _ _

theorem State.bitsAt_of_holdsBytes {s : State} {p : Place} {a : BitVec p.size.bits}
    (h : HoldsBytes s.mem (s.linear p) p.size.bytes a.toNat) : s.bitsAt p = a := by
  apply BitVec.eq_of_toNat_eq
  rw [State.bitsAt, Memory.readBytes_of_holdsBytes h, BitVec.toNat_ofNat, Size.two_pow_bits, Nat.mod_mod,
    ← Size.two_pow_bits, Nat.mod_eq_of_lt a.isLt]

section
variable {s : State} {p : Place} {e : Expr}

theorem State.readPlace_of_admits (h : s.admits p .read = true) : s.readPlace p = .ok (.ofBits (s.bitsAt p)) := by
  rw [State.readPlace, State.memRead_of_admits h]
  rfl

theorem State.readPlace_stuck (h : s.admits p .read = false) :
    s.readPlace p = raise (.notAdmitted p.seg p.off p.size .read) := by
  rw [State.readPlace, State.memRead_stuck h]
  rfl

/-- A form whose value is that of a place reads the bytes of the place, where that is admitted (R39, R116). -/
theorem evalForm_of_readPlace (he : eval e s = (s.readPlace p >>= fun v => .ok (v, s))) :
    (s.admits p .read = true → ∃ v : BitVec p.size.bits,
      evalForm e s = .next (s.setResult (.sized p.size.bits v false)) ∧
        HoldsBytes s.mem (s.linear p) p.size.bytes v.toNat) ∧
    (s.admits p .read = false → evalForm e s = .fault (.notAdmitted p.seg p.off p.size .read)) := by
  refine ⟨fun h => ⟨s.bitsAt p, ?_, s.holdsBytes_bitsAt p⟩, fun h => ?_⟩
  · rw [evalForm, he, State.readPlace_of_admits h]
    rfl
  · rw [evalForm, he, State.readPlace_stuck h]
    rfl

end

/-! ## Registers -/

theorem exec_reg (s : State) (r : Reg) :
    exec (.reg r) s = .next (s.setResult (.sized (Reg.width r) (s.getReg r) false)) := rfl

theorem exec_eSP (s : State) : exec .eSP s = exec (.reg (s.regOf .eSP)) s := rfl

/-- SP is the low half of ESP (R15). -/
theorem State.sp_eq_ofNat (s : State) : s.sp = BitVec.ofNat 16 (s.esp.toNat % 65536) := by
  apply BitVec.eq_of_toNat_eq
  simp [State.sp]

/-- Settles O23: the contents of each register, and the register that eSP stands for. -/
theorem registerNamesReadAsTheirContents : Obligations.RegisterNamesReadAsTheirContents := by
  unfold Obligations.RegisterNamesReadAsTheirContents
  intro s
  rw [← State.sp_eq_ofNat]
  refine ⟨exec_reg s .eax, exec_reg s .esp, exec_reg s .sp, exec_reg s .si, exec_reg s .di, fun hb => ?_, fun hb => ?_⟩
  · rw [exec_eSP, State.regOf_eSP, if_pos hb]
    exact exec_reg s .esp
  · rw [exec_eSP, State.regOf_eSP, if_neg (by simp [hb])]
    exact exec_reg s .sp

/-! ## Bracketed registers -/

theorem eval_memReg (r : Reg) (s : State) :
    eval (.memReg r) s = (s.memRegPlace r >>= fun p => s.readPlace p >>= fun v => .ok (v, s)) := rfl

theorem State.destPlace_memReg (s : State) (r : Reg) :
    s.destPlace (.memReg r) = (s.memRegPlace r >>= fun p => .ok (some p)) := rfl

theorem State.memRegPlace_refused (s : State) {r : Reg} (h : r ≠ .si) : s.memRegPlace r = refuse .noDefaultSegment := by
  simp [State.memRegPlace, Reg.hasDefaultSegment, h]

/-- Settles O24: the place of `[SI]`, read and as a destination. -/
theorem bracketedSIIsInTheDefaultOrOverridingSegment : Obligations.BracketedSIIsInTheDefaultOrOverridingSegment := by
  unfold Obligations.BracketedSIIsInTheDefaultOrOverridingSegment
  intro s p hp
  have hplace : s.memRegPlace .si = .ok p := hp ▸ rfl
  obtain ⟨hread, hstuck⟩ := evalForm_of_readPlace (s := s) (p := p) (e := .memReg .si) (by rw [eval_memReg, hplace, ok_bind])
  refine ⟨hread, hstuck, ?_, fun r hr => ?_⟩
  · rw [State.destPlace_memReg, hplace, ok_bind]
  · change evalForm (.memReg r) s = _
    rw [evalForm, eval_memReg, State.memRegPlace_refused s hr]
    rfl

theorem State.regOf_of_names {s : State} {n : RegName} {r : Reg} (h : Names s n r) : s.regOf n = r := by
  obtain rfl | ⟨rfl, rfl⟩ := h
  · rfl
  · exact s.regOf_eSP

theorem State.memSegRegSize_eq (s : State) (g : SegReg) (r : Reg) :
    s.memSegRegSize g r = if g = .ss ∧ (r = .sp ∨ r = .esp) then s.operandSize.size
      else (if g = .es then s.launch.esSizes else if g = .ds then s.launch.dsSizes else s.launch.ssSizes).get r := by
  simp only [State.memSegRegSize, isStackForm, Bool.and_eq_true, Bool.or_eq_true, decide_eq_true_eq]
  cases g <;> rfl

/-- Settles O25: the place of `seg:[r]`, read and as a destination. -/
theorem segmentQualifiedBracketsAreInTheirSegment : Obligations.SegmentQualifiedBracketsAreInTheirSegment := by
  unfold Obligations.SegmentQualifiedBracketsAreInTheirSegment
  intro g n r s p hn hseg hbits hoff hsize
  have hplace : s.memSegRegPlace g (s.regOf n) = p := by
    rw [State.regOf_of_names hn]
    cases p
    simp only [State.memSegRegPlace, State.memSegRegSize_eq, Place.mk.injEq]
    exact ⟨hseg.symm, hbits.symm, hoff.symm, hsize.symm⟩
  obtain ⟨hread, hstuck⟩ := evalForm_of_readPlace (s := s) (p := p) (e := .memSegReg g n) (by rw [← hplace]; rfl)
  exact ⟨hread, hstuck, by rw [← hplace]; rfl⟩

/-! ## Bracketed operands -/

theorem eval_memOperand (o : OperandName) (s : State) :
    eval (.memOperand o) s = (s.memOperandPlace o >>= fun p => s.readPlace p >>= fun v => .ok (v, s)) := rfl

theorem State.destPlace_memOperand (s : State) (o : OperandName) :
    s.destPlace (.memOperand o) = (s.memOperandPlace o >>= fun p => .ok (some p)) := rfl

theorem State.operandPlace_eq (s : State) (g : SegReg) (off : BitVec 32) (size : Size) :
    s.operandPlace g off size =
      { seg := .reg g, offBits := s.addressSize.bits,
        off := ((off.toNat % 2 ^ s.addressSize.bits : Nat) : Int), size := size } := by
  simp only [State.operandPlace, State.effectiveAddress, BitVec.toNat_setWidth]

section
variable {s : State} {o : OperandName}

theorem State.memOperandPlace_mem {g : SegReg} {off : BitVec 32} {n : Size} (h : (s.operandOf o).kind = .mem g off n) :
    s.memOperandPlace o = (s.memRead (s.operandPlace g off (s.operandOf o).storedSize) >>= fun stored =>
      .ok { seg := .reg (s.operandOf o).targetSeg, offBits := (s.operandOf o).storedSize.bits, off := stored.toNat,
            size := (s.operandOf o).targetSize }) := by
  simp only [State.memOperandPlace, h]

theorem State.memOperandPlace_reg {r : Reg} (h : (s.operandOf o).kind = .reg r) : s.memOperandPlace o = s.memRegPlace r := by
  simp only [State.memOperandPlace, h]

theorem State.memOperandPlace_imm {n : Size} {c : BitVec 32} (h : (s.operandOf o).kind = .imm n c) :
    s.memOperandPlace o = refuse .addrOfNonMemory := by
  simp only [State.memOperandPlace, h]

end

/-- Settles O26: the place that the operand designates, by the kind of the operand. -/
theorem bracketedOperandsAreIndirect : Obligations.BracketedOperandsAreIndirect := by
  unfold Obligations.BracketedOperandsAreIndirect
  refine fun o s => ⟨?mem, ?stuck, fun r hr => ?_, fun n c hk => ?_⟩
  case mem =>
    intro g off n q p a hk hq ha hbytes hp
    have hstored : s.memRead q = .ok a := by rw [State.memRead_of_admits ha, ← State.bitsAt, State.bitsAt_of_holdsBytes hbytes]
    have hplace : s.memOperandPlace o = .ok p := by
      subst hq
      rw [State.memOperandPlace_mem hk, State.operandPlace_eq, hstored, hp]
      rfl
    obtain ⟨hread, hstuck⟩ :=
      evalForm_of_readPlace (s := s) (p := p) (e := .memOperand o) (by rw [eval_memOperand, hplace, ok_bind])
    exact ⟨hread, hstuck, by rw [State.destPlace_memOperand, hplace, ok_bind]⟩
  case stuck =>
    intro g off n q hk hq ha
    have hplace : s.memOperandPlace o = raise (.notAdmitted q.seg q.off q.size .read) := by
      rw [State.memOperandPlace_mem hk, State.operandPlace_eq, ← hq, State.memRead_stuck ha]
      rfl
    refine ⟨?_, ?_⟩
    · change evalForm (.memOperand o) s = _
      rw [evalForm, eval_memOperand, hplace]
      rfl
    · rw [State.destPlace_memOperand, hplace]
      rfl
  · have hplace := State.memOperandPlace_reg hr
    refine ⟨?_, ?_⟩
    · change evalForm (.memOperand o) s = evalForm (.memReg r) s
      rw [evalForm, evalForm, eval_memOperand, eval_memReg, hplace]
    · rw [State.destPlace_memOperand, State.destPlace_memReg, hplace]
  · have hplace := State.memOperandPlace_imm hk
    refine ⟨?_, ?_⟩
    · change evalForm (.memOperand o) s = _
      rw [evalForm, eval_memOperand, hplace]
      rfl
    · rw [State.destPlace_memOperand, hplace]
      rfl

end Sys2Proof.Machine
end

section
/-! PROOF. Operators and forms that stand on their own (R79 to R87): an operator is its operands' values read as integers or as
bit patterns, and a form leaves its value in `result`. -/

namespace Sys2Proof.Machine

/-! ## Values read as integers -/

section
variable {read : Value → Except Stop Int} {v w : Value}

/-- The reading answers an integer for every value but the symbolic ones, which it refuses. -/
structure ReadsIntegers (read : Value → Except Stop Int) : Prop where
  symbolic : ∀ v, Symbolic v → read v = refuse .notInGrammar
  integer : ∀ v, ¬ Symbolic v → ∃ x, read v = .ok x

theorem int_readsIntegers : ReadsIntegers Value.int where
  symbolic _ h := Value.int_of_symbolic h
  integer _ h := by
    obtain ⟨x, hx⟩ := Option.ne_none_iff_exists'.mp h
    exact ⟨x, Value.int_of_int? hx⟩

theorem bitsInt_readsIntegers : ReadsIntegers Value.bitsInt where
  symbolic _ h := Value.bitsInt_of_symbolic h
  integer v h := by
    cases v with
    | sized | unsized => exact ⟨_, rfl⟩
    | truth | ioWidth | name => exact absurd rfl h

/-- Of two operands one that stands for no integer is refused, whichever it is. -/
theorem ReadsIntegers.refuses (hr : ReadsIntegers read) (h : Symbolic v ∨ Symbolic w) {f : Int → Int → Except Stop Value} :
    (read v >>= fun x => read w >>= f x) = refuse .notInGrammar := by
  by_cases hv : Symbolic v
  · rw [hr.symbolic v hv]
    rfl
  · obtain ⟨x, hx⟩ := hr.integer v hv
    rw [hx, hr.symbolic w (h.resolve_left hv)]
    rfl

end

/-! ## Operators on evaluated operands -/

section
variable {a b : Expr} {s s₁ s₂ : State} {va vb v : Value} {op : BinOp} {r : Refusal}

/-- No test of R96 has a second operand with a value (R90, R91). -/
theorem nameTest_of_eval {p : Value × State} (h : eval b s = .ok p) : nameTest op a b = none := by
  unfold nameTest
  split
  · cases h
  · cases h
  · rfl

theorem eval_bin (ha : eval a s = .ok (va, s₁)) (hb : eval b s₁ = .ok (vb, s₂)) :
    eval (.bin op a b) s = (applyOp op va vb >>= fun v => .ok (v, s₂)) := by
  simp only [eval, nameTest_of_eval hb, ha, hb, ok_bind]

theorem evalForm_of_eval {e : Expr} (h : eval e s = .ok (v, s₁)) : evalForm e s = .next (s₁.setResult v) := by
  rw [evalForm, h]
  rfl

theorem evalForm_of_error {e : Expr} {x : Stop} (h : eval e s = .error x) : evalForm e s = outcome (.error x) := by
  rw [evalForm, h]
  rfl

theorem evalForm_bin_ok (ha : eval a s = .ok (va, s₁)) (hb : eval b s₁ = .ok (vb, s₂)) (h : applyOp op va vb = .ok v) :
    evalForm (.bin op a b) s = .next (s₂.setResult v) :=
  evalForm_of_eval (by rw [eval_bin ha hb, h, ok_bind])

theorem evalForm_bin_refused (ha : eval a s = .ok (va, s₁)) (hb : eval b s₁ = .ok (vb, s₂))
    (h : applyOp op va vb = refuse r) : evalForm (.bin op a b) s = .refused r := by
  rw [evalForm, eval_bin ha hb, h]
  rfl

end

/-! ## Relational operators -/

section
variable {va vb : Value} {x y : Int}

theorem valuesEqual_of_int? (ha : va.int? = some x) (hb : vb.int? = some y) :
    valuesEqual va vb = .ok (decide (x = y)) := by
  unfold valuesEqual
  rw [ha, hb]

theorem valuesEqual_of_symbolic (ha : Symbolic va) (hb : Symbolic vb) (hna : ∀ n, va ≠ .name n)
    (hnb : ∀ n, vb ≠ .name n) : valuesEqual va vb = .ok (decide (va = vb)) := by
  unfold valuesEqual
  rw [ha, hb]
  dsimp only
  split
  · exact absurd rfl (hna _)
  · exact absurd rfl (hnb _)
  · rfl

/-- An integer beside a symbolic constant is refused, and so is an instruction's name (R79, R96). -/
theorem valuesEqual_refused (h : (Symbolic va ∧ ¬ Symbolic vb) ∨ (¬ Symbolic va ∧ Symbolic vb) ∨ (∃ n, va = .name n) ∨
    ∃ n, vb = .name n) : valuesEqual va vb = refuse .notInGrammar := by
  obtain ⟨ha, hb⟩ | ⟨ha, hb⟩ | ⟨n, rfl⟩ | ⟨n, rfl⟩ := h
  · obtain ⟨y, hy⟩ := Option.ne_none_iff_exists'.mp hb
    unfold valuesEqual
    rw [ha, hy]
  · obtain ⟨x, hx⟩ := Option.ne_none_iff_exists'.mp ha
    unfold valuesEqual
    rw [hx, hb]
  · cases vb <;> rfl
  · cases va <;> rfl

end

/-- Settles O31: the relational operators on the integers that the operands stand for. -/
theorem relationalOperatorsCompareIntegers : Obligations.RelationalOperatorsCompareIntegers := by
  unfold Obligations.RelationalOperatorsCompareIntegers
  intro a b s s₁ s₂ va vb ha hb
  refine ⟨fun x y hx hy => ?_, fun h => ⟨?_, ?_⟩⟩
  · have heq := valuesEqual_of_int? hx hy
    have hix := Value.int_of_int? hx
    have hiy := Value.int_of_int? hy
    refine ⟨evalForm_bin_ok ha hb ?_, evalForm_bin_ok ha hb ?_, evalForm_bin_ok ha hb ?_, evalForm_bin_ok ha hb ?_⟩
    · rw [applyOp, opEq, heq, ok_bind]
    · rw [applyOp, opNe, heq, ok_bind, ← decide_not]
    · rw [applyOp, opGe, hix, hiy, ok_bind, ok_bind]
    · rw [applyOp, opLe, hix, hiy, ok_bind, ok_bind]
  · exact evalForm_bin_refused ha hb (int_readsIntegers.refuses h)
  · exact evalForm_bin_refused ha hb (int_readsIntegers.refuses h)

/-- Settles O32: two symbolic constants are compared as values, and every other pair with a symbolic value is refused. -/
theorem symbolicConstantsCompareByName : Obligations.SymbolicConstantsCompareByName := by
  unfold Obligations.SymbolicConstantsCompareByName
  intro a b s s₁ s₂ va vb _ ha hb
  refine ⟨fun hsa hsb hna hnb => ?_, fun h => ?_⟩
  · have heq := valuesEqual_of_symbolic hsa hsb hna hnb
    refine ⟨evalForm_bin_ok ha hb ?_, evalForm_bin_ok ha hb ?_⟩
    · rw [applyOp, opEq, heq, ok_bind]
    · rw [applyOp, opNe, heq, ok_bind, ← decide_not]
  · have href := valuesEqual_refused h
    refine ⟨evalForm_bin_refused ha hb ?_, evalForm_bin_refused ha hb ?_⟩
    · rw [applyOp, opEq, href]
      rfl
    · rw [applyOp, opNe, href]
      rfl

/-! ## Arithmetic -/

/-- Settles O33: the operators on the integers that the operands stand for. -/
theorem arithmeticIsExact : Obligations.ArithmeticIsExact := by
  unfold Obligations.ArithmeticIsExact
  intro a b s s₁ s₂ va vb ha hb
  refine ⟨fun x y hx hy => ?_, fun h => ?_⟩
  · have hix := Value.int_of_int? hx
    have hiy := Value.int_of_int? hy
    refine ⟨evalForm_bin_ok ha hb ?_, evalForm_bin_ok ha hb ?_, evalForm_bin_ok ha hb ?_⟩
    · rw [applyOp, opMul, hix, hiy, ok_bind, ok_bind]
    · rw [applyOp, opAdd, hix, hiy, ok_bind, ok_bind]
    · rw [applyOp, opSub, hix, hiy, ok_bind, ok_bind]
  · have href {f : Int → Int → Except Stop Value} := int_readsIntegers.refuses h (f := f)
    exact ⟨evalForm_bin_refused ha hb href, evalForm_bin_refused ha hb href, evalForm_bin_refused ha hb href⟩

section
variable {va vb : Value} {x y : Int}

theorem opAnd_of_bitsInt (hx : va.bitsInt = .ok x) (hy : vb.bitsInt = .ok y) :
    opAnd va vb = .ok (.unsized (bitwiseAnd x y)) := by
  rw [opAnd, hx, hy, ok_bind, ok_bind]

theorem bitwiseAnd_natCast (x y : Nat) : bitwiseAnd x y = ((x &&& y : Nat) : Int) := by
  simp [bitwiseAnd]

end

/-- Settles O35: the bits of the conjunction of two natural numbers. -/
theorem andIsBitwise : Obligations.AndIsBitwise := by
  unfold Obligations.AndIsBitwise
  intro a b s s₁ s₂ va vb ha hb
  refine ⟨fun x y hx hy => ⟨x &&& y, evalForm_bin_ok ha hb ?_, Nat.testBit_and x y⟩, fun h => ?_⟩
  · rw [applyOp, opAnd_of_bitsInt hx hy, bitwiseAnd_natCast]
  · exact evalForm_bin_refused ha hb (bitsInt_readsIntegers.refuses h)

/-- Settles O36: the free value of the two integers is an integer. -/
theorem andOfANegativeIntegerRuns : Obligations.AndOfANegativeIntegerRuns := by
  unfold Obligations.AndOfANegativeIntegerRuns
  intro a b s s₁ s₂ va vb x y ha hb hx hy _
  exact ⟨bitwiseAnd x y, evalForm_bin_ok ha hb (opAnd_of_bitsInt hx hy)⟩

/-- Settles O37: floor division and multiplication by a power of two. -/
theorem shiftsDivideAndMultiplyByPowersOfTwo : Obligations.ShiftsDivideAndMultiplyByPowersOfTwo := by
  unfold Obligations.ShiftsDivideAndMultiplyByPowersOfTwo
  intro a b s s₁ s₂ va vb ha hb
  refine ⟨fun v c hv hc => ?_, fun v c hv hc hneg => ?_, fun h => ?_⟩
  · have hpos : 0 ≤ (v : Int) ∧ 0 ≤ (c : Int) := ⟨Int.natCast_nonneg v, Int.natCast_nonneg c⟩
    refine ⟨evalForm_bin_ok ha hb ?_, evalForm_bin_ok ha hb ?_⟩
    · rw [applyOp, opShr, hv, hc, ok_bind, ok_bind, if_pos hpos, Int.toNat_natCast,
        Int.fdiv_eq_ediv_of_nonneg _ (by positivity)]
      norm_cast
    · rw [applyOp, opShl, hv, hc, ok_bind, ok_bind, if_pos hpos, Int.toNat_natCast]
      norm_cast
  · have hno : ¬ (0 ≤ v ∧ 0 ≤ c) := by omega
    refine ⟨evalForm_bin_refused ha hb ?_, evalForm_bin_refused ha hb ?_⟩
    · rw [applyOp, opShr, hv, hc, ok_bind, ok_bind, if_neg hno]
    · rw [applyOp, opShl, hv, hc, ok_bind, ok_bind, if_neg hno]
  · have href {f : Int → Int → Except Stop Value} := bitsInt_readsIntegers.refuses h (f := f)
    exact ⟨evalForm_bin_refused ha hb href, evalForm_bin_refused ha hb href⟩

/-! ## DIV and MOD -/

/-- Floor division: the remainder lies between 0 and the divisor, on the divisor's side (R87). -/
theorem fdiv_remainder (x : Int) {y : Int} :
    (0 < y → 0 ≤ x - y * x.fdiv y ∧ x - y * x.fdiv y < y) ∧ (y < 0 → y < x - y * x.fdiv y ∧ x - y * x.fdiv y ≤ 0) := by
  rw [← Int.fmod_def]
  refine ⟨fun h => ⟨Int.fmod_nonneg_of_pos x h, Int.fmod_lt_of_pos x h⟩, fun h => ?_⟩
  have hnonneg := Int.fmod_nonneg_of_pos (-x) (Int.neg_pos_of_neg h)
  have hlt := Int.fmod_lt_of_pos (-x) (Int.neg_pos_of_neg h)
  rw [Int.neg_fmod_neg] at hnonneg hlt
  omega

section
variable {va vb : Value} {x y : Int}

theorem opDiv_of_int? (hx : va.int? = some x) (hy : vb.int? = some y) :
    opDiv va vb = if y = 0 then refuse .notInGrammar else .ok (.unsized (x.fdiv y)) := by
  rw [opDiv, Value.int_of_int? hx, Value.int_of_int? hy, ok_bind, ok_bind]

theorem opMod_of_int? (hx : va.int? = some x) (hy : vb.int? = some y) :
    opMod va vb = if y = 0 then refuse .notInGrammar else .ok (.unsized (x - y * x.fdiv y)) := by
  rw [opMod, Value.int_of_int? hx, Value.int_of_int? hy, ok_bind, ok_bind]

end

/-- Settles O38: the quotient and the remainder of floor division. -/
theorem divRoundsDownAndModIsNonNegative : Obligations.DivRoundsDownAndModIsNonNegative := by
  unfold Obligations.DivRoundsDownAndModIsNonNegative
  intro a b s s₁ s₂ va vb x y ha hb hx hy
  refine ⟨fun hne => ⟨x.fdiv y, x - y * x.fdiv y, ?_, ?_, by omega, fdiv_remainder x⟩, fun h => ⟨?_, ?_⟩⟩
  · rw [eval_bin ha hb, applyOp, opDiv_of_int? hx hy, if_neg hne, ok_bind]
  · rw [eval_bin ha hb, applyOp, opMod_of_int? hx hy, if_neg hne, ok_bind]
  · rw [eval_bin ha hb, applyOp, opDiv_of_int? hx hy, if_pos h]
    rfl
  · rw [eval_bin ha hb, applyOp, opMod_of_int? hx hy, if_pos h]
    rfl

theorem truncate16_of_bitsInt {v : Value} {x : Int} (h : v.bitsInt = .ok x) :
    truncate16 v = .ok (.sized 16 (BitVec.ofInt 16 x) false) := by
  cases v with
  | sized w b signed =>
    cases h
    rw [BitVec.ofInt_natCast, BitVec.ofNat_toNat]
    rfl
  | unsized y =>
    cases h
    rfl
  | truth | ioWidth | name => cases h

theorem truncate16_of_symbolic {v : Value} (h : Symbolic v) : truncate16 v = refuse .notInGrammar := by
  cases v with
  | sized w b signed => exact absurd h (not_symbolic_sized w b signed)
  | unsized x => exact absurd h (not_symbolic_unsized x)
  | truth | ioWidth | name => rfl

theorem evalForm_truncate16 {e : Expr} {s s' : State} {v : Value} (h : eval e s = .ok (v, s')) :
    evalForm (.truncate16 e) s = outcome (truncate16 v >>= fun w => .ok (s'.setResult w)) := by
  simp only [evalForm, eval, h, ok_bind]
  cases truncate16 v <;> rfl

/-- Settles O41: the values of O38 stand in `result`, and so does the value modulo 2^16. -/
theorem divModAndTruncateStandOnTheirOwn : Obligations.DivModAndTruncateStandOnTheirOwn := by
  unfold Obligations.DivModAndTruncateStandOnTheirOwn
  refine ⟨fun a b s s₁ s₂ va vb ha hb => ⟨fun x y hx hy => ?_, fun h => ?_⟩,
    fun e s s' v h => ⟨fun x hx => ?_, fun hv => ?_⟩⟩
  · obtain ⟨hdivides, hzero⟩ := divRoundsDownAndModIsNonNegative a b s s₁ s₂ va vb x y ha hb hx hy
    refine ⟨fun hne => ?_, fun h => ?_⟩
    · obtain ⟨q, m, hq, hm, hrest⟩ := hdivides hne
      exact ⟨q, m, evalForm_of_eval hq, evalForm_of_eval hm, hrest⟩
    · obtain ⟨hdiv, hmod⟩ := hzero h
      exact ⟨evalForm_of_error hdiv, evalForm_of_error hmod⟩
  · have href {f : Int → Int → Except Stop Value} := int_readsIntegers.refuses h (f := f)
    exact ⟨evalForm_bin_refused ha hb href, evalForm_bin_refused ha hb href⟩
  · change evalForm (.truncate16 e) s = _
    rw [evalForm_truncate16 h, truncate16_of_bitsInt hx]
    rfl
  · change evalForm (.truncate16 e) s = _
    rw [evalForm_truncate16 h, truncate16_of_symbolic hv]
    rfl

/-! ## Forms on their own -/

/-- Settles O57: a form is evaluated, which changes the stack pointer at most, and its value is kept. -/
theorem formsKeepTheirValueInResult : Obligations.FormsKeepTheirValueInResult := by
  unfold Obligations.FormsKeepTheirValueInResult
  intro i e s hi
  rw [exec_of_toExpr hi]
  refine ⟨fun v t h => evalForm_of_eval h, fun x h => evalForm_of_error h, fun t ht => ?_⟩
  obtain ⟨v, s', he, rfl⟩ := evalForm_eq_next.mp ht
  obtain ⟨hrest, hmem⟩ := eval_sameRest he
  have hesp : e.callsPop = false → s'.esp = s.esp := fun hpop => congrArg State.esp (eval_of_not_callsPop hpop he)
  have hhigh : s.launch.bBit = false → s'.esp.extractLsb' 16 16 = s.esp.extractLsb' 16 16 := fun hb => eval_esp_high hb he
  exact ⟨hrest, hmem, (eval_movesTo he).pc, hesp, hhigh⟩

end Sys2Proof.Machine
end

section
/-! PROOF. The identifiers (R88 to R97): what eSP, OperandSize and DEST receive, and what each identifier reads as. -/

namespace Sys2Proof.Machine

/-! ## Assignments to identifiers -/

section
variable {e : Expr} {s : State} {r : Reg}

/-- Two destinations that receive alike wherever the launch components are the run's are assigned alike, whatever the source
does: evaluating it writes no launch component (R119). -/
theorem exec_assign_congr {d d' : Dest} (h : ∀ (t : State) (v : Value), t.launch = s.launch → t.assign d v = t.assign d' v) :
    exec (.assign d e) s = exec (.assign d' e) s := by
  cases he : eval e s with
  | error x => rw [exec_assign_of_eval_error he, exec_assign_of_eval_error he]
  | ok p =>
    obtain ⟨v, t⟩ := p
    rw [exec_assign_of_eval d he, exec_assign_of_eval d' he, h t v (eval_movesTo he).launch]

theorem State.assign_eSP (s : State) (v : Value) : s.assign .eSP v = s.assign (.reg (s.regOf .eSP)) v := rfl

theorem State.assign_operandSize (s : State) (v : Value) :
    s.assign .operandSize v = (v.int >>= fun x => attrOfInt x >>= fun a => .ok (s.setOperandSize a)) := rfl

theorem State.assign_dest_reg (h : s.launch.dest.kind = .reg r) (v : Value) : s.assign .dest v = s.assign (.reg r) v := by
  simp only [State.assign, State.destPlace, State.assignName, h]

theorem State.assign_dest_imm {n : Size} {c : BitVec 32} (h : s.launch.dest.kind = .imm n c) (v : Value) :
    s.assign .dest v = refuse .notInGrammar := by
  simp only [State.assign, State.destPlace, State.assignName, h, ok_bind]

theorem State.destPlace_dest_mem {g : SegReg} {off : BitVec 32} {n : Size} (h : s.launch.dest.kind = .mem g off n) :
    s.destPlace .dest = .ok (some (s.operandPlace g off n)) := by
  simp only [State.destPlace, h]

theorem exec_assign_eSP (h : s.regOf .eSP = r) : exec (.assign .eSP e) s = exec (.assign (.reg r) e) s :=
  exec_assign_congr fun t v ht => by rw [State.assign_eSP, State.regOf_congr ht, h]

end

/-- Settles O19: the register that eSP or DEST stands for, which the source does not change. -/
theorem assignmentToESPAndToARegisterDEST : Obligations.AssignmentToESPAndToARegisterDEST := by
  unfold Obligations.AssignmentToESPAndToARegisterDEST
  refine fun e s => ⟨fun hb => exec_assign_eSP ?_, fun hb => exec_assign_eSP ?_,
    fun r hr => exec_assign_congr fun t v ht => State.assign_dest_reg (ht ▸ hr) v, fun n c v s' hk he => ?_⟩
  · rw [State.regOf_eSP, if_pos hb]
  · rw [State.regOf_eSP, if_neg (by simp [hb])]
  · have hlaunch : s'.launch = s.launch := (eval_movesTo he).launch
    rw [exec_assign_of_eval _ he, State.assign_dest_imm (hlaunch ▸ hk)]
    rfl

/-- Settles O21: the size of each integer, and the refusals. -/
theorem assignmentToOperandSize : Obligations.AssignmentToOperandSize := by
  unfold Obligations.AssignmentToOperandSize
  intro e s s' v he
  rw [exec_assign_of_eval _ he, State.assign_operandSize]
  refine ⟨fun h => ?_, fun h => ?_, fun x h h16 h32 => ?_, fun h => ?_⟩
  · rw [Value.int_of_int? h]
    rfl
  · rw [Value.int_of_int? h]
    rfl
  · rw [Value.int_of_int? h, ok_bind, attrOfInt_bad h16 h32]
    rfl
  · rw [Value.int_of_symbolic h]
    rfl

/-! ## Operand identifiers -/

theorem eval_operand (o : OperandName) (s : State) :
    eval (.operand o) s = (s.readOperand o >>= fun v => .ok (v, s)) := rfl

section
variable {s : State} {o : OperandName}

theorem State.readOperand_reg {r : Reg} (h : (s.operandOf o).kind = .reg r) :
    s.readOperand o = .ok (.ofBits (s.getReg r)) := by
  simp only [State.readOperand, h]

theorem State.readOperand_imm {n : Size} {c : BitVec 32} (h : (s.operandOf o).kind = .imm n c) :
    s.readOperand o = .ok (.ofBits (c.setWidth n.bits)) := by
  simp only [State.readOperand, h]

theorem State.readOperand_mem {g : SegReg} {off : BitVec 32} {n : Size} (h : (s.operandOf o).kind = .mem g off n) :
    s.readOperand o = s.readPlace (s.operandPlace g off n) := by
  simp only [State.readOperand, h]

theorem evalForm_of_readOperand {v : Value} (h : s.readOperand o = .ok v) : evalForm (.operand o) s = .next (s.setResult v) :=
  evalForm_of_eval (by rw [eval_operand, h, ok_bind])

end

/-- The four operand identifiers are the forms of the four operands. -/
theorem exists_operandName {s : State} {i : Instr} {o : Operand}
    (h : (i = .src ∧ o = s.launch.src) ∨ (i = .dest ∧ o = s.launch.dest) ∨ (i = .leftSrc ∧ o = s.launch.leftSrc) ∨
      (i = .rightSrc ∧ o = s.launch.rightSrc)) :
    ∃ n : OperandName, i.toExpr = some (.operand n) ∧ s.operandOf n = o ∧ (i = .dest → n = .dest) := by
  obtain ⟨rfl, rfl⟩ | ⟨rfl, rfl⟩ | ⟨rfl, rfl⟩ | ⟨rfl, rfl⟩ := h
  · exact ⟨.src, rfl, rfl, nofun⟩
  · exact ⟨.dest, rfl, rfl, fun _ => rfl⟩
  · exact ⟨.leftSrc, rfl, rfl, nofun⟩
  · exact ⟨.rightSrc, rfl, rfl, nofun⟩

/-- Settles O27: the value of an operand by its kind, and the place that a DEST in memory is. -/
theorem operandIdentifiersReadTheirOperand : Obligations.OperandIdentifiersReadTheirOperand := by
  unfold Obligations.OperandIdentifiersReadTheirOperand
  intro s i o h
  obtain ⟨name, hi, rfl, hdest⟩ := exists_operandName h
  rw [exec_of_toExpr hi]
  refine ⟨fun r hr => evalForm_of_readOperand (State.readOperand_reg hr), fun n c hc => ?imm, fun g off n p hm hp => ?mem⟩
  case imm =>
    rw [BitVec.ofNat_toNat]
    exact evalForm_of_readOperand (State.readOperand_imm hc)
  case mem =>
    rw [← State.operandPlace_eq] at hp
    subst hp
    obtain ⟨hread, hstuck⟩ := evalForm_of_readPlace (e := .operand name) (by rw [eval_operand, State.readOperand_mem hm])
    refine ⟨hread, hstuck, fun hid => ?_⟩
    obtain rfl := hdest hid
    exact State.destPlace_dest_mem hm

/-! ## Sizes and the instruction's name -/

theorem AttrSize.bits_eq (a : AttrSize) : (a.bits : Int) = if a = .s16 then 16 else 32 := by cases a <;> rfl

theorem State.stackAddrSize_bits (s : State) : (s.stackAddrSize.bits : Int) = if s.launch.bBit = true then 32 else 16 := by
  simp only [State.stackAddrSize, State.usesEsp, Config.bBitSelectsEsp, beq_iff_eq]
  split <;> rfl

/-- Settles O28: each size as an integer, and the name as it is. -/
theorem attributeIdentifiersReadTheAttributes : Obligations.AttributeIdentifiersReadTheAttributes := by
  unfold Obligations.AttributeIdentifiersReadTheAttributes
  intro s
  rw [← AttrSize.bits_eq, ← AttrSize.bits_eq, ← State.stackAddrSize_bits]
  exact ⟨rfl, rfl, rfl, rfl⟩

/-- The test of R96 compares the name of the instruction that runs, and evaluates neither operand. -/
theorem eval_of_nameTest {op : BinOp} {a b : Expr} {n : InstrName} (h : nameTest op a b = some n) (s : State) :
    eval (.bin op a b) s = .ok (.truth (decide (s.launch.instruction = n)), s) := by
  simp only [eval, h]

theorem exec_eq_of_nameTest {a b : Expr} {n : InstrName} (h : nameTest .eq a b = some n) (s : State) :
    exec (.eq a b) s = .next (s.setResult (.truth (decide (s.launch.instruction = n)))) :=
  evalForm_of_eval (eval_of_nameTest h s)

/-- Settles O29: both comparisons are tests of R96. -/
theorem instructionTestsCompareTheName : Obligations.InstructionTestsCompareTheName := by
  unfold Obligations.InstructionTestsCompareTheName
  exact fun s => ⟨exec_eq_of_nameTest rfl s, exec_eq_of_nameTest rfl s⟩

end Sys2Proof.Machine
end

section
/-! PROOF. The size and address functions (R98 to R101): what an extension to OperandSize makes of each kind of value, what
Truncate keeps, and the operands that have an address. -/

namespace Sys2Proof.Machine

/-! ## Extension -/

/-- A value that stands for no integer is a symbolic constant of R62 or an instruction name. -/
theorem symbolic_cases {v : Value} (h : Symbolic v) : (∃ b, v = .truth b) ∨ (∃ w, v = .ioWidth w) ∨ ∃ n, v = .name n := by
  cases v with
  | sized w b signed => exact absurd h (not_symbolic_sized w b signed)
  | unsized x => exact absurd h (not_symbolic_unsized x)
  | truth b => exact .inl ⟨b, rfl⟩
  | ioWidth w => exact .inr (.inl ⟨w, rfl⟩)
  | name n => exact .inr (.inr ⟨n, rfl⟩)

section
variable {n : Nat} {extend : Value → Except Stop Value} {ext : ∀ m, BitVec m → Value} {f : Expr} {s s' : State} {v : Value}

/-- The function extends a value of at most `n` bits by `ext`, and has no answer for a wider value, for one without a width and
for a symbolic one (R100, R101). -/
structure ExtendsTo (n : Nat) (extend : Value → Except Stop Value) (ext : ∀ m, BitVec m → Value) : Prop where
  sized : ∀ m b signed, extend (.sized m b signed) = if m ≤ n then .ok (ext m b) else raise (.widthMismatch (some m) n)
  unsized : ∀ x, extend (.unsized x) = raise (.widthMismatch none n)
  symbolic : ∀ v, Symbolic v → extend v = refuse .notInGrammar

theorem zeroExtendTo_extendsTo (n : Nat) :
    ExtendsTo n (zeroExtendTo n) fun _ b => .sized n (BitVec.ofNat n b.toNat) false where
  sized m b signed := by
    rw [BitVec.ofNat_toNat]
    rfl
  unsized _ := rfl
  symbolic v h := by
    obtain ⟨_, rfl⟩ | ⟨_, rfl⟩ | ⟨_, rfl⟩ := symbolic_cases h <;> rfl

theorem signExtendTo_extendsTo (n : Nat) : ExtendsTo n (signExtendTo n) fun _ b => .sized n (b.signExtend n) true where
  sized _ _ _ := rfl
  unsized _ := rfl
  symbolic v h := by
    obtain ⟨_, rfl⟩ | ⟨_, rfl⟩ | ⟨_, rfl⟩ := symbolic_cases h <;> rfl

/-- What a form whose value is such an extension does when it stands on its own, by the kind of the value it extends. -/
theorem ExtendsTo.outcomes (hx : ExtendsTo n extend ext) (hf : eval f s = (extend v >>= fun w => .ok (w, s'))) :
    (∀ m (b : BitVec m) signed, v = .sized m b signed → m ≤ n → evalForm f s = .next (s'.setResult (ext m b))) ∧
    (∀ m (b : BitVec m) signed, v = .sized m b signed → n < m → evalForm f s = .fault (.widthMismatch (some m) n)) ∧
    (∀ x, v = .unsized x → evalForm f s = .fault (.widthMismatch none n)) ∧
    (Symbolic v → evalForm f s = .refused .notInGrammar) := by
  refine ⟨fun m b signed hv hm => ?fits, fun m b signed hv hm => ?wider, fun x hv => ?unsized, fun hv => ?symbolic⟩
  case fits =>
    subst hv
    exact evalForm_of_eval (by rw [hf, hx.sized, if_pos hm, ok_bind])
  case wider =>
    subst hv
    exact evalForm_of_error (by rw [hf, hx.sized, if_neg (Nat.not_le.mpr hm), raise, error_bind])
  case unsized =>
    subst hv
    exact evalForm_of_error (by rw [hf, hx.unsized, raise, error_bind])
  case symbolic => exact evalForm_of_error (by rw [hf, hx.symbolic v hv, refuse, error_bind])

end

section
variable {e : Expr} {s s' : State} {v : Value}

theorem eval_zeroExtend (h : eval e s = .ok (v, s')) :
    eval (.zeroExtend e) s = (zeroExtendTo s'.operandSize.bits v >>= fun w => .ok (w, s')) := by
  simp only [eval, h, ok_bind]

theorem eval_signExtend (h : eval e s = .ok (v, s')) :
    eval (.signExtend e) s = (signExtendTo s'.operandSize.bits v >>= fun w => .ok (w, s')) := by
  simp only [eval, h, ok_bind]

end

/-- Settles O42: the extension keeps the unsigned value. -/
theorem zeroExtendKeepsTheUnsignedValue : Obligations.ZeroExtendKeepsTheUnsignedValue := by
  unfold Obligations.ZeroExtendKeepsTheUnsignedValue
  intro e s s' v he
  exact (zeroExtendTo_extendsTo s'.operandSize.bits).outcomes (eval_zeroExtend he)

/-- Settles O43: the bits of a sign extension, below the operand's width and from it on. -/
theorem signExtendCopiesTheTopBit : Obligations.SignExtendCopiesTheTopBit := by
  unfold Obligations.SignExtendCopiesTheTopBit
  intro e s s' v he
  obtain ⟨hfits, hstops⟩ := (signExtendTo_extendsTo s'.operandSize.bits).outcomes (eval_signExtend he)
  refine ⟨fun m b signed hv hm => ⟨b.signExtend _, hfits m b signed hv hm, fun i hi => ?low, fun i hi hin => ?high⟩, hstops⟩
  case low =>
    have hin : i < s'.operandSize.bits := hi.trans_le hm
    rw [BitVec.getLsbD_signExtend, if_pos hi, decide_eq_true hin, Bool.true_and]
  case high =>
    rw [BitVec.getLsbD_signExtend, if_neg hi.not_gt, decide_eq_true hin, Bool.true_and, BitVec.msb_eq_getLsbD_last]

/-! ## Truncation -/

/-- Reduction to 16 bits is reduction modulo 2^16 (R98). -/
theorem ofInt_sixteen_eq_ofNat_emod (x : Int) : BitVec.ofInt 16 x = BitVec.ofNat 16 (x % 65536).toNat := by
  refine BitVec.eq_of_toNat_eq ?_
  rw [BitVec.toNat_ofInt, BitVec.toNat_ofNat]
  omega

theorem eval_truncate16_of_bitsInt {e : Expr} {s s' : State} {v : Value} {x : Int} (h : eval e s = .ok (v, s'))
    (hx : v.bitsInt = .ok x) :
    eval (.truncate16 e) s = .ok (.sized 16 (BitVec.ofNat 16 (x % 65536).toNat) false, s') := by
  simp only [eval, h, ok_bind, truncate16_of_bitsInt hx, ofInt_sixteen_eq_ofNat_emod]

/-- Settles O40: a value with a width is the natural number that its bits are, and one without is its integer. -/
theorem truncateKeepsTheValueModulo65536 : Obligations.TruncateKeepsTheValueModulo65536 := by
  unfold Obligations.TruncateKeepsTheValueModulo65536
  intro e s s' v he
  refine ⟨fun m b hv => ?unsigned, fun m b hv => ⟨false, ?signed⟩, fun x hv => ?unsized⟩
  all_goals
    subst hv
    exact eval_truncate16_of_bitsInt he rfl

/-! ## Addresses -/

section
variable {s : State} {o : OperandName}

theorem State.addrOf_mem {g : SegReg} {off : BitVec 32} {n : Size} (h : (s.operandOf o).kind = .mem g off n) :
    s.addrOf (.operand o) = .ok (.ofBits (s.effectiveAddress off)) := by
  simp only [State.addrOf, h]

theorem State.addrOf_reg {r : Reg} (h : (s.operandOf o).kind = .reg r) :
    s.addrOf (.operand o) = refuse .addrOfNonMemory := by
  simp only [State.addrOf, h]

theorem State.addrOf_imm {n : Size} {c : BitVec 32} (h : (s.operandOf o).kind = .imm n c) :
    s.addrOf (.operand o) = refuse .addrOfNonMemory := by
  simp only [State.addrOf, h]

theorem eval_addr (a : AddrArg) (s : State) : eval (.addr a) s = (s.addrOf a >>= fun v => .ok (v, s)) := rfl

theorem exec_addr_refused {a : AddrArg} (h : s.addrOf a = refuse .addrOfNonMemory) :
    exec (.addr a) s = .refused .addrOfNonMemory :=
  evalForm_of_error (x := .refused .addrOfNonMemory) (by rw [eval_addr, h, refuse, error_bind])

end

/-- Settles O44: an operand by its kind, a register and a numeral. -/
theorem addrIsTheEffectiveAddress : Obligations.AddrIsTheEffectiveAddress := by
  unfold Obligations.AddrIsTheEffectiveAddress
  refine fun o s => ⟨fun g off n h => ?mem, fun r h => exec_addr_refused (State.addrOf_reg h),
    fun n c h => exec_addr_refused (State.addrOf_imm h), fun r => exec_addr_refused rfl, fun n => exec_addr_refused rfl⟩
  case mem =>
    rw [BitVec.ofNat_toNat]
    exact evalForm_of_eval (by rw [eval_addr, State.addrOf_mem h, ok_bind]; rfl)

end Sys2Proof.Machine
end

section
/-! PROOF. The stack functions (R102 to R106): the stack pointer is the register that eSP stands for, Push moves it and stores at
its new value, and Pop reads at its old one and moves it back. -/

namespace Sys2Proof.Machine

/-! ## The stack pointer and the place that it points to -/

theorem AttrSize.size_bytes (a : AttrSize) : a.size.bytes = a.bits / 8 := by cases a <;> rfl

theorem AttrSize.two_pow_bits (a : AttrSize) : 2 ^ a.bits = 256 ^ (a.bits / 8) := by cases a <;> rfl

/-- The top of the stack is `SS:[eSP]` (R42, R97). -/
theorem State.stackTop_eq (s : State) : s.stackTop = s.memSegRegPlace .ss (s.regOf .eSP) := by
  unfold State.stackTop State.stackAddrSize State.regOf
  cases s.usesEsp <;> rfl

theorem State.stackTop_seg (s : State) : s.stackTop.seg = .reg .ss := by rw [State.stackTop_eq]; rfl

theorem State.stackTop_size (s : State) : s.stackTop.size = s.operandSize.size := by
  unfold State.stackTop
  cases s.stackAddrSize <;> rfl

theorem State.stackTop_bytes (s : State) : s.stackTop.size.bytes = s.operandSize.bits / 8 := by
  rw [State.stackTop_size, AttrSize.size_bytes]

theorem State.stackTop_bits (s : State) : s.stackTop.size.bits = s.operandSize.bits := by
  rw [State.stackTop_size, AttrSize.size_bits]

theorem State.stackTop_of_bBit (s : State) (h : s.launch.bBit = true) :
    s.stackTop.off = s.esp.toNat ∧ s.stackTop.offBits = 32 := by
  rw [State.stackTop_eq, State.regOf_eSP, if_pos h]
  exact ⟨rfl, rfl⟩

theorem State.stackTop_of_not_bBit (s : State) (h : s.launch.bBit = false) :
    s.stackTop.off = s.sp.toNat ∧ s.stackTop.offBits = 16 := by
  rw [State.stackTop_eq, State.regOf_eSP, if_neg (by simp [h])]
  exact ⟨rfl, rfl⟩

/-- Moving the stack pointer is adding to the register that eSP stands for (R97, R102, R103). -/
theorem State.moveStack_eq_setReg (s : State) (n : Int) :
    s.moveStack n = s.setReg (s.regOf .eSP) (s.getReg (s.regOf .eSP) + BitVec.ofInt _ n) := by
  unfold State.moveStack State.stackAddrSize State.regOf
  cases s.usesEsp <;> rfl

@[simp] theorem State.moveStack_locals (s : State) (n : Int) : (s.moveStack n).locals = s.locals := by
  obtain ⟨x, h⟩ := s.moveStack_eq n
  simp [h]

@[simp] theorem State.moveStack_result (s : State) (n : Int) : (s.moveStack n).result = s.result := by
  obtain ⟨x, h⟩ := s.moveStack_eq n
  simp [h]

theorem State.stackMoved_moveStack (s : State) (n : Int) : StackMoved s (s.moveStack n) n := by
  unfold StackMoved State.moveStack
  cases s.stackAddrSize with
  | s16 => exact ⟨s.sp_setSp _, s.setSp_high _⟩
  | s32 => rfl

theorem esp_of_stackMoved {s t : State} {n : Int} (h : StackMoved s t n) (hb : s.launch.bBit = true) :
    t.esp = s.esp + BitVec.ofInt 32 n := by
  simpa [StackMoved, State.stackAddrSize, State.usesEsp, Config.bBitSelectsEsp, hb] using h

theorem sp_of_stackMoved {s t : State} {n : Int} (h : StackMoved s t n) (hb : s.launch.bBit = false) :
    t.sp = s.sp + BitVec.ofInt 16 n := by
  have h' : t.sp = s.sp + BitVec.ofInt 16 n ∧ t.esp.extractLsb' 16 16 = s.esp.extractLsb' 16 16 := by
    simpa [StackMoved, State.stackAddrSize, State.usesEsp, Config.bBitSelectsEsp, hb] using h
  exact h'.1

theorem stackMoved_trans {s t u : State} {m n : Int} (hlaunch : t.launch = s.launch) (hst : StackMoved s t m)
    (htu : StackMoved t u n) : StackMoved s u (m + n) := by
  have hsize : t.stackAddrSize = s.stackAddrSize := by
    unfold State.stackAddrSize State.usesEsp
    rw [hlaunch]
  unfold StackMoved at *
  rw [hsize] at htu
  cases h : s.stackAddrSize with
  | s16 =>
    simp only [h] at hst htu ⊢
    rw [htu.1, htu.2, hst.1, hst.2, BitVec.ofInt_add, BitVec.add_assoc]
    exact ⟨rfl, rfl⟩
  | s32 =>
    simp only [h] at hst htu ⊢
    rw [htu, hst, BitVec.ofInt_add, BitVec.add_assoc]

theorem esp_eq_of_stackMoved_zero {s t : State} (h : StackMoved s t 0) : t.esp = s.esp := by
  unfold StackMoved at h
  cases hsize : s.stackAddrSize with
  | s16 =>
    simp only [hsize] at h
    rw [t.esp_eq_append, s.esp_eq_append, h.1, h.2, show BitVec.ofInt 16 0 = 0#16 from rfl, BitVec.add_zero]
  | s32 => simpa [hsize] using h

theorem State.admits_eq_false {s : State} {p : Place} {kind : AccessKind} (h : ¬ Within p ∨ Denied s p kind) :
    s.admits p kind = false := by
  rw [Bool.eq_false_iff, ne_eq, State.admits_iff]
  exact fun ⟨hin, hden⟩ => h.elim (· hin) hden

/-! ## Push -/

section
variable {e : Expr} {s s' t : State} {v : Value}

theorem exec_push_of_eval (h : eval e s = .ok (v, s')) : exec (.push e) s = outcome (s'.push v) := by
  simp only [exec, execPush, h, ok_bind]

theorem Value.toWidth_ofBits_cast {m n : Nat} (b : BitVec m) (h : m = n) : (Value.ofBits b).toWidth n = .ok (b.setWidth n) :=
  if_pos h

theorem State.push_of_fits {b : BitVec s.operandSize.bits} (hb : Fits v s.operandSize.bits b)
    (ht : t = s.moveStack (-(s.operandSize.size.bytes : Int))) : s.push v = t.memWrite t.stackTop (b.setWidth _) := by
  have hbits : s.operandSize.bits = t.stackTop.size.bits := by rw [State.stackTop_bits, ht, State.moveStack_operandSize]
  rw [State.push, Value.toWidth_of_fits hb, ok_bind, ← ht, State.assignPlace, Value.toWidth_ofBits_cast b hbits, ok_bind]

theorem State.push_of_not_toWidth {x : Stop} (h : v.toWidth s.operandSize.bits = .error x) : s.push v = .error x := by
  rw [State.push, h, error_bind]

/-- A Push that is admitted stores the bytes of the value at the lowered stack pointer and changes memory nowhere else. -/
theorem State.push_stores {b : BitVec s.operandSize.bits} (hb : Fits v s.operandSize.bits b) (hm : s.mem.wf = true)
    (ht : t = s.moveStack (-(s.operandSize.size.bytes : Int))) (ha : t.admits t.stackTop .write = true) :
    ∃ m, s.push v = .ok (t.setMem m) ∧ HoldsBytes m (t.linear t.stackTop) (s.operandSize.bits / 8) b.toNat ∧
      SameOutside s.mem m (t.linear t.stackTop) (s.operandSize.bits / 8) := by
  have hop : t.operandSize = s.operandSize := by rw [ht, State.moveStack_operandSize]
  have hmem : t.mem = s.mem := by rw [ht, State.moveStack_mem]
  have hbytes : t.stackTop.size.bytes = s.operandSize.bits / 8 := by rw [State.stackTop_bytes, hop]
  have hb' : (b.setWidth t.stackTop.size.bits).toNat = b.toNat := by
    rw [BitVec.toNat_setWidth, State.stackTop_bits, hop, Nat.mod_eq_of_lt b.isLt]
  obtain ⟨u, hu, hstored, hkept, hframe⟩ := State.memWrite_stores (b.setWidth _) (hmem ▸ hm) ha
  have hu' : u = t.setMem u.mem := (congrArg (State.setMem · u.mem) hframe :)
  rw [hb', hbytes] at hstored
  rw [hmem, hbytes] at hkept
  exact ⟨u.mem, by rw [State.push_of_fits hb ht, hu, ← hu'], hstored, hkept⟩

end

/-- Settles O45: the place of the store, and what Push does with each kind of value. -/
theorem pushStoresBelowTheStackPointer : Obligations.PushStoresBelowTheStackPointer := by
  unfold Obligations.PushStoresBelowTheStackPointer
  intro e s s' s₁ v p he hs₁ hp
  subst hp
  have hlaunch : s₁.launch = s'.launch := by rw [hs₁, State.moveStack_launch]
  have hop : s₁.operandSize = s'.operandSize := by rw [hs₁, State.moveStack_operandSize]
  rw [exec_push_of_eval he]
  refine ⟨⟨s₁.stackTop_seg, by rw [State.stackTop_size, hop], fun hb => s₁.stackTop_of_bBit (hlaunch ▸ hb),
    fun hb => s₁.stackTop_of_not_bBit (hlaunch ▸ hb)⟩, fun b hb hm hin hden => ?stores, fun m hm => ?other,
    fun b hb hstuck => ?stuck, fun hv => ?symbolic⟩
  case stores =>
    obtain ⟨m, hpush, hstored, hkept⟩ := State.push_stores hb hm hs₁ ((s₁.admits_iff _ _).mpr ⟨hin, hden⟩)
    have hmoved := s'.stackMoved_moveStack (-(s'.operandSize.size.bytes : Int))
    have hrest := s'.moveStack_sameRest (-(s'.operandSize.size.bytes : Int))
    rw [← hs₁] at hmoved hrest
    rw [AttrSize.size_bytes] at hmoved
    refine ⟨s₁.setMem m, by rw [hpush]; rfl, hstored, hkept, hmoved, hrest, ?_, ?_⟩
    · rw [hs₁, State.setMem_pc, State.moveStack_pc]
    · rw [hs₁, State.setMem_result, State.moveStack_result]
  case other =>
    rw [State.push_of_not_toWidth (Value.toWidth_of_other hm)]
    rfl
  case stuck =>
    rw [State.push_of_fits hb hs₁, State.memWrite_stuck _ (State.admits_eq_false hstuck)]
    rfl
  case symbolic =>
    rw [State.push_of_not_toWidth (Value.toWidth_of_symbolic hv)]
    rfl

/-! ## Pop -/

section
variable {s : State} {a : AttrSize}

/-- The word or doubleword at the top of the stack (R103). -/
def State.topBits (s : State) (a : AttrSize) : BitVec a.bits :=
  BitVec.ofNat _ (s.mem.readBytes (s.linear s.stackTop) (a.bits / 8))

theorem State.topBits_toNat (s : State) (a : AttrSize) :
    (s.topBits a).toNat = s.mem.readBytes (s.linear s.stackTop) (a.bits / 8) := by
  have hlt := s.mem.readBytes_lt (s.linear s.stackTop) (a.bits / 8)
  rw [State.topBits, BitVec.toNat_ofNat, AttrSize.two_pow_bits, Nat.mod_eq_of_lt hlt]

theorem State.holdsBytes_topBits (s : State) (a : AttrSize) :
    HoldsBytes s.mem (s.linear s.stackTop) (a.bits / 8) (s.topBits a).toNat := by
  rw [State.topBits_toNat]
  exact Memory.holdsBytes_readBytes _ _ _

theorem State.pop_of_admits (hop : s.operandSize = a) (h : s.admits s.stackTop .read = true) :
    s.pop = .ok (.sized a.bits (s.topBits a) false, s.moveStack ((a.bits / 8 : Nat) : Int)) := by
  subst hop
  have hvalue : Value.ofBits (s.bitsAt s.stackTop) = .sized s.operandSize.bits (s.topBits s.operandSize) false := by
    rw [State.bitsAt, State.topBits, State.stackTop_bytes, State.stackTop_bits]
    rfl
  rw [State.pop, State.readPlace_of_admits h, ok_bind, hvalue, AttrSize.size_bytes]

theorem State.pop_stuck (h : s.admits s.stackTop .read = false) :
    s.pop = .error (.fault (.notAdmitted s.stackTop.seg s.stackTop.off s.stackTop.size .read)) := by
  rw [State.pop, State.readPlace_stuck h]
  rfl

theorem exec_pop_of_admits (hop : s.operandSize = a) (h : s.admits s.stackTop .read = true) :
    exec .pop s = .next ((s.moveStack ((a.bits / 8 : Nat) : Int)).setResult (.sized a.bits (s.topBits a) false)) :=
  evalForm_of_eval (e := .pop) (State.pop_of_admits hop h)

end

/-- Settles O46: the value is read at the old stack pointer, and evaluating Pop moves nothing but the stack pointer. -/
theorem popTakesTheTopOfTheStack : Obligations.PopTakesTheTopOfTheStack := by
  unfold Obligations.PopTakesTheTopOfTheStack
  intro s p hp
  subst hp
  refine ⟨⟨s.stackTop_seg, s.stackTop_size, s.stackTop_of_bBit, s.stackTop_of_not_bBit⟩, fun hin hden => ?_, fun hstuck => ?_⟩
  · have ha := (s.admits_iff _ _).mpr ⟨hin, hden⟩
    exact ⟨_, s.topBits _, exec_pop_of_admits rfl ha, rfl, s.holdsBytes_topBits _, s.stackMoved_moveStack _,
      s.moveStack_mem _, s.moveStack_sameRest _, s.moveStack_pc _⟩
  · exact evalForm_of_error (e := .pop) (State.pop_stuck (State.admits_eq_false hstuck))

/-- Settles O47: EAX receives what Pop reads, where that has EAX's width. -/
theorem eaxReceivesThePoppedDoubleword : Obligations.EaxReceivesThePoppedDoubleword := by
  unfold Obligations.EaxReceivesThePoppedDoubleword
  intro s p hp
  subst hp
  refine ⟨fun hop ha => ?_, fun hop ha => ?_,
    fun ha => exec_assign_of_eval_error (e := .pop) (State.pop_stuck ha)⟩
  · obtain ⟨hlaunch, -, hsi, hdi, hsize, haddr, hloc⟩ := s.moveStack_sameRest 4
    have hpop : eval .pop s = .ok (.ofBits (s.topBits .s32), s.moveStack 4) := State.pop_of_admits hop ha
    refine ⟨(s.moveStack 4).setEax (s.topBits .s32), ?_, s.holdsBytes_topBits .s32, s.stackMoved_moveStack 4,
      s.moveStack_mem 4, hlaunch, hsi, hdi, hsize, haddr, hloc, s.moveStack_pc 4, s.moveStack_result 4⟩
    rw [exec_assign_of_eval _ hpop, State.assign_reg]
    exact congrArg (fun b => outcome (b >>= _)) (Value.toWidth_ofBits (s.topBits .s32))
  · have hpop : eval .pop s = .ok (.ofBits (s.topBits .s16), s.moveStack 2) := State.pop_of_admits hop ha
    obtain ⟨-, hother, -⟩ := assignmentToARegister .eax .pop _ _ _ hpop
    exact hother 16 ⟨by decide, s.topBits .s16, false, rfl⟩

/-! ## Pop after Push -/

theorem Memory.readBytes_add (m : Memory) (a j k : Nat) :
    m.readBytes a (j + k) = m.readBytes a j + 256 ^ j * m.readBytes (a + j) k := by
  induction j generalizing a with
  | zero => simp [Memory.readBytes]
  | succ j ih =>
    rw [Nat.add_right_comm j 1 k, Memory.readBytes, Memory.readBytes, ih (a + 1), pow_succ, Nat.add_right_comm a 1 j,
      ← Nat.add_assoc a j 1]
    ring

/-- A read that lies outside the bytes in which two memories differ is the same in both. -/
theorem Memory.readBytes_of_sameOutside {m m' : Memory} {a n : Nat} (h : SameOutside m m' a n) (k : Nat) :
    m'.readBytes (a + n) k = m.readBytes (a + n) k := by
  have hbytes : ∀ d, n ≤ d → m'.readBytes (a + d) k = m.readBytes (a + d) k := by
    induction k with
    | zero => exact fun _ _ => rfl
    | succ k ih =>
      intro d hd
      rw [Memory.readBytes, Memory.readBytes, h (a + d) (.inr (by omega)), Nat.add_assoc, ih (d + 1) (by omega)]
  exact hbytes n le_rfl

/-- Lowering a register without a wrap is undone by adding. -/
theorem toNat_eq_add_of_lowered {w k : Nat} {x y : BitVec w} (h : y = x + BitVec.ofInt w (-(k : Int)))
    (hlt : y.toNat + k < 2 ^ w) : x.toNat = y.toNat + k := by
  have hx : x = y + BitVec.ofNat w k := by
    rw [h, ← BitVec.ofInt_natCast, BitVec.add_assoc, ← BitVec.ofInt_add, neg_add_cancel,
      show BitVec.ofInt w 0 = 0#w from BitVec.ofInt_natCast w 0, BitVec.add_zero]
  rw [hx, BitVec.toNat_add, BitVec.toNat_ofNat, Nat.mod_eq_of_lt (a := k) (by omega), Nat.mod_eq_of_lt hlt]

theorem State.linear_stackTop (s : State) : s.linear s.stackTop = s.launch.ssBase + s.stackTop.off.toNat := by
  rw [State.linear, State.stackTop_seg]
  rfl

/-- Where the stack pointer is lowered without a wrap, the old top of the stack lies above the new one. -/
theorem State.linear_stackTop_of_lowered {s t : State} {k : Nat} (hlaunch : t.launch = s.launch)
    (h : StackMoved s t (-(k : Int))) (hlt : t.stackTop.off + k < 2 ^ t.stackTop.offBits) :
    s.linear s.stackTop = t.linear t.stackTop + k := by
  have hoff : s.stackTop.off.toNat = t.stackTop.off.toNat + k := by
    cases hb : s.launch.bBit with
    | true =>
      obtain ⟨hs, -⟩ := s.stackTop_of_bBit hb
      obtain ⟨ht, hbits⟩ := t.stackTop_of_bBit (hlaunch ▸ hb)
      rw [ht, hbits] at hlt
      rw [hs, ht, Int.toNat_natCast, Int.toNat_natCast]
      exact toNat_eq_add_of_lowered (esp_of_stackMoved h hb) (by exact_mod_cast hlt)
    | false =>
      obtain ⟨hs, -⟩ := s.stackTop_of_not_bBit hb
      obtain ⟨ht, hbits⟩ := t.stackTop_of_not_bBit (hlaunch ▸ hb)
      rw [ht, hbits] at hlt
      rw [hs, ht, Int.toNat_natCast, Int.toNat_natCast]
      exact toNat_eq_add_of_lowered (sp_of_stackMoved h hb) (by exact_mod_cast hlt)
  rw [State.linear_stackTop, State.linear_stackTop, hlaunch, hoff, Nat.add_assoc]

/-- OperandSize fixes the size of the access at the top of the stack and nothing else of it (R42). -/
theorem State.stackTop_setOperandSize (s : State) (a : AttrSize) :
    (s.setOperandSize a).stackTop = { s.stackTop with size := a.size } := by
  have hreg : (s.setOperandSize a).regOf .eSP = s.regOf .eSP := rfl
  rw [State.stackTop_eq, State.stackTop_eq, hreg, State.regOf]
  cases s.usesEsp <;> rfl

theorem State.topBits_setOperandSize (s : State) (a b : AttrSize) : (s.setOperandSize a).topBits b = s.topBits b := by
  rw [State.topBits, State.stackTop_setOperandSize]
  rfl

section
variable {s t : State} {v : Value} {a : AttrSize} {n x : Nat}

theorem State.topBits_of_holdsBytes (h : HoldsBytes s.mem (s.linear s.stackTop) n x) (hn : a.bits / 8 ≤ n) :
    s.topBits a = BitVec.ofNat a.bits x := by
  have hread := Memory.readBytes_of_holdsBytes fun i hi => h i (hi.trans_le hn)
  apply BitVec.eq_of_toNat_eq
  rw [State.topBits_toNat, hread, BitVec.toNat_ofNat, AttrSize.two_pow_bits]

/-- What a Push that has a step leaves at the top of the stack, and what it keeps. -/
theorem State.push_leaves {b : BitVec s.operandSize.bits} (hb : Fits v s.operandSize.bits b) (hm : s.mem.wf = true)
    (h : s.push v = .ok t) :
    t.launch = s.launch ∧ StackMoved s t (-((s.operandSize.bits / 8 : Nat) : Int)) ∧
      HoldsBytes t.mem (t.linear t.stackTop) (s.operandSize.bits / 8) b.toNat ∧
      SameOutside s.mem t.mem (t.linear t.stackTop) (s.operandSize.bits / 8) := by
  obtain ⟨-, -, ha, -⟩ := State.push_ok h
  obtain ⟨m, hpush, hstored, hkept⟩ := State.push_stores hb hm rfl ha
  cases h.symm.trans hpush
  rw [AttrSize.size_bytes] at hstored hkept ⊢
  exact ⟨State.moveStack_launch _ _, s.stackMoved_moveStack _, hstored, hkept⟩

end

/-- Settles O48: the bytes that Push has stored are the first that Pop reads, and above them lie those of the old top. -/
theorem popAfterPushGivesThePushedValue : Obligations.PopAfterPushGivesThePushedValue := by
  unfold Obligations.PopAfterPushGivesThePushedValue
  intro e s s' s₁ s₂ v b a hwf he hb hpush hs₂ ha
  subst hs₂
  have hwf' : s'.mem.wf = true := (eval_sameRest he).2 ▸ hwf
  rw [exec_push_of_eval he, outcome_eq_next] at hpush
  obtain ⟨hlaunch, hlowered, hstored, hkept⟩ := State.push_leaves hb hwf' hpush
  have hmoved := stackMoved_trans hlaunch hlowered ((s₁.setOperandSize a).stackMoved_moveStack ((a.bits / 8 : Nat) : Int))
  rw [neg_add_eq_sub] at hmoved
  have hpop := exec_pop_of_admits (s := s₁.setOperandSize a) (a := a) rfl ha
  rw [State.topBits_setOperandSize] at hpop
  refine ⟨_, hpop, hmoved, ?kept, fun heq => ?same, fun hpopped hpushed => ?low, fun hpopped hpushed => ?above⟩
  case kept =>
    rw [State.setResult_mem, State.moveStack_mem]
    exact hkept
  case same =>
    subst heq
    rw [sub_self] at hmoved
    exact ⟨esp_eq_of_stackMoved_zero hmoved,
      congrArg (fun x => some (Value.ofBits x)) (State.topBits_of_holdsBytes hstored le_rfl)⟩
  case low =>
    subst hpopped
    have hbytes : s'.operandSize.bits / 8 = 4 := by rw [hpushed]; rfl
    have hword : BitVec.ofNat 16 (b.toNat % 65536) = BitVec.ofNat 16 b.toNat := BitVec.eq_of_toNat_eq (by simp)
    rw [hbytes] at hstored
    rw [hword]
    exact congrArg (fun x => some (Value.ofBits x)) (State.topBits_of_holdsBytes (a := .s16) hstored (by decide))
  case above =>
    subst hpopped
    have hbytes : s'.operandSize.bits / 8 = 2 := by rw [hpushed]; rfl
    rw [hbytes] at hstored hkept hlowered
    have hlt : s₁.stackTop.off + (2 : Nat) < 2 ^ s₁.stackTop.offBits := by
      obtain ⟨⟨-, hin⟩, -⟩ := (State.admits_iff _ _ _).mp ha
      rw [State.stackTop_setOperandSize] at hin
      exact lt_of_lt_of_le (by simp [AttrSize.size, Size.bytes]) hin
    have habove := State.linear_stackTop_of_lowered hlaunch hlowered hlt
    have hlow : s₁.mem.readBytes (s₁.linear s₁.stackTop) 2 = b.toNat := by
      rw [Memory.readBytes_of_holdsBytes hstored]
      exact Nat.mod_eq_of_lt (b.isLt.trans_eq (by rw [hpushed]; rfl))
    have hhigh : s₁.mem.readBytes (s₁.linear s₁.stackTop + 2) 2 = (s'.topBits .s16).toNat := by
      rw [State.topBits_toNat, habove]
      exact Memory.readBytes_of_sameOutside hkept 2
    have hdword : s₁.topBits .s32 = BitVec.ofNat 32 (b.toNat + 65536 * (s'.topBits .s16).toNat) := by
      rw [← hlow, ← hhigh]
      exact congrArg (BitVec.ofNat 32) (Memory.readBytes_add _ _ 2 2)
    exact ⟨s'.topBits .s16, s'.holdsBytes_topBits .s16, congrArg (fun x => some (Value.ofBits x)) hdword⟩

end Sys2Proof.Machine
end

section
/-! PROOF. The document's own texts of Push and Pop (R102, R103): each selects one of four arms by StackAddrSize and OperandSize,
and the arm does what the function does. -/

namespace Sys2Proof.Machine

/-! ## The statements of the two texts, without their comments -/

/-- `IF e = 16 THEN` the arm of 16 `ELSE` the arm of 32 `FI;`. -/
def ifSize (e : Expr) (arm : AttrSize → Block) : Instr := .ifThen (.bin .eq e (.num 16)) (arm .s16) (arm .s32)

/-- The stack pointer of each StackAddrSize. -/
def stackReg : AttrSize → Reg
  | .s16 => .sp
  | .s32 => .esp

/-- The four arms of R102 and of R103. -/
def stackArms (arm : Reg → AttrSize → Block) : Instr :=
  ifSize .stackAddrSize fun z => .cons (ifSize .operandSize (arm (stackReg z))) .nil

/-- `r <- r - n; SS:[r] <- value;`. -/
def pushArm (r : Reg) (a : AttrSize) : Block :=
  .cons (.assign (.reg r) (.bin .sub (.reg r) (.num a.size.bytes)))
    (.cons (.assign (.memSegReg .ss (.reg r)) (.loc .value)) .nil)

/-- `ret val <- SS:[r]; r <- r + n;`. -/
def popArm (r : Reg) (a : AttrSize) : Block :=
  .cons (.assign (.loc .retVal) (.memSegReg .ss (.reg r)))
    (.cons (.assign (.reg r) (.bin .add (.reg r) (.num a.size.bytes))) .nil)

/-- The statements of a text that is read are `b`, its comments apart. -/
def ReadsStripped (text : List Byte) (b : Block) : Prop := ∃ c, decodeAlgorithm text = .ok c ∧ c.strip = b

theorem readsStripped_of_map {text : List Byte} {b : Block} (h : (decodeAlgorithm text).map Block.strip = .ok b) :
    ReadsStripped text b := by
  cases hc : decodeAlgorithm text with
  | error e =>
    rw [hc] at h
    cases h
  | ok c =>
    rw [hc] at h
    exact ⟨c, hc, Except.ok.inj h⟩

theorem pushText_readsStripped : ReadsStripped Source.pushText (.cons (stackArms pushArm) .nil) :=
  readsStripped_of_map (by decide +kernel)

theorem popText_readsStripped :
    ReadsStripped Source.popText (.cons (stackArms popArm) (.cons (.ret (.loc .retVal)) .nil)) :=
  readsStripped_of_map (by decide +kernel)

/-! ## Runs, statement by statement -/

section
variable {s m t : State} {i : Instr} {b rest : Block}

/-- A run from the start of a function's body, its inputs in force, is the run of its statements without the comments. -/
theorem exists_runsTo_of_readsStripped (hpc : s.pc = .start) (hbody : s.launch.body = .functionBody) (hbegun : Begun s)
    (hread : ReadsStripped s.launch.text b) (hb : b ≠ .nil) (ht : t.pc = .at .nil)
    (hrun : ∃ k, RunsTo k (s.setPc (.at b)) t) : ∃ k, RunsTo k s t := by
  obtain ⟨c, hc, rfl⟩ := hread
  obtain ⟨-, -, -, -, hstrip, -⟩ := commentsHaveNoEffect
  have hat := (hstrip (s.setPc (.at c)) t c rfl hb ht).mpr hrun
  have hc' : c ≠ .nil := by
    rintro rfl
    exact hb rfl
  have hstep : step s = step (s.setPc (.at c)) := by
    have hstart : s.start = .ok (c, s) := State.start_of_read_ok (Launch.read_functionBody hbody hc) hbegun.1 hbegun.2
    rw [step_of_start_ok hpc hstart, step, State.remaining_at (b := c) rfl]
    cases c <;> rfl
  rw [exists_runsTo_iff (by simp [hpc, ht]), hstep, ← exists_runsTo_iff (by simp [ht, hc'])]
  exact hat

theorem exists_runsTo_cons (hx : exec i (s.setPc (.at rest)) = .next (m.setPc (.at b))) (hb : b ≠ .nil)
    (hrun : ∃ k, RunsTo k (m.setPc (.at b)) t) : ∃ k, RunsTo k (s.setPc (.at (.cons i rest))) t := by
  obtain ⟨k, hk⟩ := hrun
  have hleave : m.setPc (.at b) = (m.setPc (.at b)).leave := (State.leave_of_pc_ne (by simpa using hb)).symm
  exact ⟨k + 1, runsTo_succ.mpr ⟨_, (step_at_eq_next rfl).mpr ⟨_, hx, hleave⟩, hk⟩⟩

/-- After its last statement a function's body ends, and its local variables with it (R26). -/
theorem exists_runsTo_last (hbody : m.launch.body = .functionBody)
    (hx : exec i (s.setPc (.at rest)) = .next (m.setPc (.at .nil))) :
    ∃ k, RunsTo k (s.setPc (.at (.cons i rest))) ((m.setLocals .none).setPc (.at .nil)) := by
  have hleave : (m.setPc (.at .nil)).leave = (m.setPc (.at .nil)).setLocals .none := State.leave_functionBody hbody rfl
  exact ⟨1, runsTo_succ.mpr ⟨_, (step_at_eq_next rfl).mpr ⟨_, hx, hleave.symm⟩, runsTo_zero.mpr rfl⟩⟩

end

/-! ## The choice of the arm -/

section
variable {s t : State} {rest : Block}

theorem exec_ifSize {e : Expr} {a : AttrSize} (arm : AttrSize → Block) (h : eval e s = .ok (.unsized a.bits, s))
    (hpc : s.pc = .at rest) : exec (ifSize e arm) s = .next (s.setPc (.at ((arm a).append rest))) := by
  have hcond : eval (.bin .eq e (.num 16)) s = .ok (.truth (decide ((a.bits : Int) = 16)), s) := by
    rw [eval_bin h rfl, applyOp, opEq, valuesEqual_of_int? rfl rfl]
    rfl
  rw [ifSize, exec_ifThen_of_eval _ _ hcond, hpc]
  cases a <;> rfl

theorem stackReg_stackAddrSize (s : State) : stackReg s.stackAddrSize = s.regOf .eSP := by
  unfold State.stackAddrSize State.regOf
  cases s.usesEsp <;> rfl

theorem exists_runsTo_stackArms {arm : Reg → AttrSize → Block}
    (hne : (arm (s.regOf .eSP) s.operandSize).append rest ≠ .nil)
    (hrun : ∃ k, RunsTo k (s.setPc (.at ((arm (s.regOf .eSP) s.operandSize).append rest))) t) :
    ∃ k, RunsTo k (s.setPc (.at (.cons (stackArms arm) rest))) t := by
  rw [← stackReg_stackAddrSize] at hne hrun
  exact exists_runsTo_cons (exec_ifSize _ rfl rfl) nofun (exists_runsTo_cons (exec_ifSize _ rfl rfl) hne hrun)

end

/-! ## The statements of an arm -/

section
variable {s t : State} {v : Value} {x : Int} {q : Place}

theorem State.moveStack_setPc (s : State) (n : Int) (p : Position) : (s.setPc p).moveStack n = (s.moveStack n).setPc p := by
  have hsize : (s.setPc p).stackAddrSize = s.stackAddrSize := rfl
  unfold State.moveStack
  rw [hsize]
  cases s.stackAddrSize <;> rfl

theorem State.moveStack_setLocals (s : State) (n : Int) (l : Locals) :
    (s.setLocals l).moveStack n = (s.moveStack n).setLocals l := by
  have hsize : (s.setLocals l).stackAddrSize = s.stackAddrSize := rfl
  unfold State.moveStack
  rw [hsize]
  cases s.stackAddrSize <;> rfl

/-- An assignment of the sum of the stack pointer and a number moves the stack pointer by the number. -/
theorem exec_assign_stackPointer {e : Expr} {n : Int}
    (h : eval e s = .ok (.unsized ((s.getReg (s.regOf .eSP)).toNat + n), s)) :
    exec (.assign (.reg (s.regOf .eSP)) e) s = .next (s.moveStack n) := by
  have hsum : BitVec.ofInt (Reg.width (s.regOf .eSP)) ((s.getReg (s.regOf .eSP)).toNat + n) =
      s.getReg (s.regOf .eSP) + BitVec.ofInt _ n := by
    rw [BitVec.ofInt_add, BitVec.ofInt_natCast, BitVec.ofNat_toNat, BitVec.setWidth_eq]
  rw [exec_assign_of_eval _ h, State.assign_reg, State.moveStack_eq_setReg, ← hsum]
  rfl

theorem exec_raise (s : State) (n : Int) (p : Position) :
    exec (.assign (.reg (s.regOf .eSP)) (.bin .add (.reg (s.regOf .eSP)) (.num n))) (s.setPc p) =
      .next ((s.moveStack n).setPc p) :=
  State.moveStack_setPc s n p ▸ exec_assign_stackPointer (s := s.setPc p) (by rw [eval_bin rfl rfl]; rfl)

theorem exec_lower (s : State) (n : Int) (p : Position) :
    exec (.assign (.reg (s.regOf .eSP)) (.bin .sub (.reg (s.regOf .eSP)) (.num n))) (s.setPc p) =
      .next ((s.moveStack (-n)).setPc p) :=
  State.moveStack_setPc s (-n) p ▸
    exec_assign_stackPointer (s := s.setPc p) (by rw [eval_bin rfl rfl, ← Int.sub_eq_add_neg]; rfl)

theorem exec_storeValue (h : s.locals.get .value = some (.unsized x)) :
    exec (.assign (.memSegReg .ss (.reg (s.regOf .eSP))) (.loc .value)) s =
      outcome (s.assignPlace s.stackTop (.unsized x)) := by
  rw [exec_assign_of_eval _ (eval_loc_of_get h), State.stackTop_eq]
  rfl

theorem State.assignPlace_setPc (h : s.assignPlace q v = .ok t) (p : Position) :
    (s.setPc p).assignPlace q v = .ok (t.setPc p) := by
  obtain ⟨b, hb, ha, rfl⟩ := State.assignPlace_ok h
  rw [State.assignPlace, hb, ok_bind]
  exact State.memWrite_of_admits (s := s.setPc p) b ha

theorem Value.toWidth_ofBits_ofInt {m n : Nat} (x : Int) (h : m = n) :
    (Value.ofBits (BitVec.ofInt m x)).toWidth n = (Value.unsized x).toWidth n := by
  subst h
  exact Value.toWidth_ofBits _

/-- What Push stores is what the integer that a local variable keeps of its argument stores there (R10, R78). -/
theorem State.push_ok_of_localReceives (hv : LocalReceives v (.unsized x)) (h : s.push v = .ok t) :
    (s.moveStack (-(s.operandSize.size.bytes : Int))).assignPlace
      (s.moveStack (-(s.operandSize.size.bytes : Int))).stackTop (.unsized x) = .ok t := by
  obtain ⟨b, hb, ht⟩ := bind_eq_ok.mp h
  have hx : BitVec.ofInt s.operandSize.bits x = b := by
    obtain ⟨m, c, signed, rfl, hx⟩ | ⟨-, -, rfl⟩ := hv
    · obtain ⟨_, hc⟩ | ⟨_, hc, -⟩ := Value.toWidth_ok hb
      · cases hc
        cases hx
        rw [BitVec.ofInt_natCast, BitVec.ofNat_toNat, BitVec.setWidth_eq]
      · cases hc
    · exact Except.ok.inj hb
  subst hx
  have hbits : s.operandSize.bits = (s.moveStack (-(s.operandSize.size.bytes : Int))).stackTop.size.bits := by
    rw [State.stackTop_bits, State.moveStack_operandSize]
  rw [State.assignPlace, ← Value.toWidth_ofBits_ofInt x hbits]
  exact ht

end

/-! ## The arms -/

section
variable {s t : State} {v : Value} {x : Int}

theorem exists_runsTo_pushArm (hbody : s.launch.body = .functionBody) (hloc : s.locals.get .value = some (.unsized x))
    (hv : LocalReceives v (.unsized x)) (hpush : s.push v = .ok t) :
    ∃ k, RunsTo k (s.setPc (.at (pushArm (s.regOf .eSP) s.operandSize))) ((t.setLocals .none).setPc (.at .nil)) := by
  have hstore := State.assignPlace_setPc (State.push_ok_of_localReceives hv hpush) (.at .nil)
  have ht : t.launch.body = .functionBody := by rw [(State.push_movesTo hpush).launch, hbody]
  refine exists_runsTo_cons (exec_lower s _ _) nofun (exists_runsTo_last ht ?_)
  generalize hlow : s.moveStack (-(s.operandSize.size.bytes : Int)) = low at hstore ⊢
  have hlocals : low.locals = s.locals := by rw [← hlow, State.moveStack_locals]
  have hreg : low.regOf .eSP = s.regOf .eSP := State.regOf_congr (by rw [← hlow, State.moveStack_launch]) _
  rw [← hreg]
  exact (exec_storeValue (s := low.setPc _) (hlocals ▸ hloc)).trans (congrArg outcome hstore)

end

/-- Settles O58: the text's statements lower the stack pointer and store the variable, in the arm of the two sizes in force. -/
theorem pushTextComputesPush : Obligations.PushTextComputesPush := by
  unfold Obligations.PushTextComputesPush
  intro s t v x hpc htext hbody hbegun hv hloc hpush
  have hread : ReadsStripped s.launch.text (.cons (stackArms pushArm) .nil) := htext ▸ pushText_readsStripped
  exact exists_runsTo_of_readsStripped hpc hbody hbegun hread nofun rfl
    (exists_runsTo_stackArms nofun (exists_runsTo_pushArm hbody hloc hv hpush))

section
variable {s t u : State} {n : Nat} {v : BitVec n} {rest : Block}

theorem State.pop_ok_readPlace {v : Value} (h : s.pop = .ok (v, t)) :
    s.readPlace s.stackTop = .ok v ∧ t = s.moveStack (s.operandSize.size.bytes : Int) := by
  obtain ⟨w, hw, ht⟩ := bind_eq_ok.mp h
  cases ht
  exact ⟨hw, rfl⟩

theorem exec_loadRetVal (h : s.readPlace s.stackTop = .ok (.sized n v false)) (p : Position) :
    exec (.assign (.loc .retVal) (.memSegReg .ss (.reg (s.regOf .eSP)))) (s.setPc p) =
      .next ((s.setLocals (s.locals.set (.int v.toNat) .retVal)).setPc p) := by
  have hread : (s.setPc p).readPlace ((s.setPc p).memSegRegPlace .ss (s.regOf .eSP)) = .ok (.sized n v false) :=
    s.stackTop_eq ▸ h
  have hload : eval (.memSegReg .ss (.reg (s.regOf .eSP))) (s.setPc p) = .ok (.sized n v false, s.setPc p) := by
    simp only [eval, State.regOf_reg, hread, ok_bind]
  rw [exec_assign_of_eval _ hload]
  rfl

theorem exists_runsTo_popArm (hpop : s.pop = .ok (.sized n v false, t)) (hrest : rest ≠ .nil)
    (hrun : ∃ k, RunsTo k ((t.setLocals (s.locals.set (.int v.toNat) .retVal)).setPc (.at rest)) u) :
    ∃ k, RunsTo k (s.setPc (.at ((popArm (s.regOf .eSP) s.operandSize).append rest))) u := by
  obtain ⟨hread, rfl⟩ := State.pop_ok_readPlace hpop
  rw [← State.moveStack_setLocals] at hrun
  exact exists_runsTo_cons (exec_loadRetVal hread _) nofun (exists_runsTo_cons (exec_raise (s.setLocals _) _ _) hrest hrun)

theorem exists_runsTo_retRetVal {y : Value} (hbody : s.launch.body = .functionBody) (hloc : s.locals.get .retVal = some y) :
    ∃ k, RunsTo k (s.setPc (.at (.cons (.ret (.loc .retVal)) .nil))) (((s.setResult y).setLocals .none).setPc (.at .nil)) := by
  refine exists_runsTo_last (m := (s.setResult y).setLocals .none) hbody ?_
  rw [exec_ret_of_functionBody (s := s.setPc (.at .nil)) _ hbody, eval_loc_of_get (s := s.setPc (.at .nil)) hloc]
  rfl

end

/-- Settles O59: the text's statements keep the value at the top of the stack, raise the stack pointer and give the value back. -/
theorem popTextComputesPop : Obligations.PopTextComputesPop := by
  unfold Obligations.PopTextComputesPop
  intro s t n v hpc htext hbody hbegun hpop
  have hread : ReadsStripped s.launch.text (.cons (stackArms popArm) (.cons (.ret (.loc .retVal)) .nil)) :=
    htext ▸ popText_readsStripped
  have ht : t.launch.body = .functionBody := by rw [State.pop_launch hpop, hbody]
  have hret := exists_runsTo_retRetVal (s := t.setLocals (s.locals.set (.int v.toNat) .retVal)) ht
    (s.locals.get_set (.int v.toNat) .retVal)
  exact exists_runsTo_of_readsStripped hpc hbody hbegun hread nofun rfl
    (exists_runsTo_stackArms nofun (exists_runsTo_popArm hpop nofun hret))

end Sys2Proof.Machine
end

section
/-! PROOF. The Bit function (R107 to R110): the bit that a register or a byte of memory holds, and the two forms reached from an
operand of the instruction and from a stored register image. -/

namespace Sys2Proof.Machine

/-! ## One bit -/

/-- A bit as a number of width 1 (R107, R108). -/
theorem bitValue_getLsbD {w : Nat} (b : BitVec w) (i : Nat) :
    bitValue (b.getLsbD i) = .sized 1 (BitVec.ofNat 1 (b.toNat / 2 ^ i)) false := by
  refine congrArg (Value.sized 1 · false) (BitVec.eq_of_toNat_eq ?_)
  rw [BitVec.toNat_ofBool, BitVec.toNat_ofNat, ← BitVec.testBit_toNat, Nat.toNat_testBit, pow_one]

theorem signedInt_readsIntegers : ReadsIntegers Value.signedInt where
  symbolic _ h := Value.signedInt_of_symbolic h
  integer v h := by
    cases v with
    | sized | unsized => exact ⟨_, rfl⟩
    | truth | ioWidth | name => exact absurd rfl h

/-! ## Bit of a register -/

section
variable {s : State} {r : Reg} {k : Int}

theorem State.bitOfReg_of_lt (h0 : 0 ≤ k) (hlt : k < Reg.width r) :
    s.bitOfReg r k = .ok (.sized 1 (BitVec.ofNat 1 ((s.getReg r).toNat / 2 ^ k.toNat)) false) := by
  rw [State.bitOfReg, if_pos ⟨h0, hlt⟩, bitValue_getLsbD]

theorem State.bitOfReg_out_of_range (h : k < 0 ∨ Reg.width r ≤ k) : s.bitOfReg r k = raise (.bitOffsetRange k) :=
  if_neg (by omega)

end

theorem eval_bitReg {off : Expr} {s s' : State} {v : Value} (n : RegName) (h : eval off s = .ok (v, s')) :
    eval (.bitReg n off) s = (v.signedInt >>= fun k => s'.bitOfReg (s'.regOf n) k >>= fun b => .ok (b, s')) := by
  simp only [eval, h, ok_bind]

/-- Settles O49: the register that the name stands for, with an offset in its range, out of it and of another kind. -/
theorem bitOfARegister : Obligations.BitOfARegister := by
  unfold Obligations.BitOfARegister
  intro n r off s s' v hoff hn
  have heval := eval_bitReg n hoff
  rw [State.regOf_of_names hn] at heval
  refine ⟨fun k hk => ⟨fun h0 hlt => ?inside, fun hout => ?outside⟩, fun hv => ?symbolic⟩
  case inside => exact evalForm_of_eval (heval.trans (by rw [hk, ok_bind, State.bitOfReg_of_lt h0 hlt, ok_bind]))
  case outside => exact evalForm_of_error (heval.trans (by rw [hk, ok_bind, State.bitOfReg_out_of_range hout, raise, error_bind]))
  case symbolic => exact evalForm_of_error (heval.trans (by rw [Value.signedInt_of_symbolic hv, refuse, error_bind]))

/-! ## Bit of memory -/

theorem State.bitPlace_eq (s : State) (g : SegReg) (x k : Int) :
    s.bitPlace g x k = { seg := .reg g, offBits := s.addressSize.bits, off := x + k / 8, size := .byte } := by
  rw [State.bitPlace, Int.fdiv_eq_ediv_of_nonneg k (by decide)]

section
variable {s : State} {g : SegReg} {x k : Int}

theorem State.linear_bitPlace (s : State) (g : SegReg) (x k : Int) :
    s.linear (s.bitPlace g x k) = s.segBase (.reg g) + (x + k / 8).toNat := by
  rw [State.bitPlace_eq]
  rfl

/-- The place that holds a bit is one byte (R109). -/
theorem State.getLsbD_bitsAt_bitPlace (s : State) (g : SegReg) (x k : Int) (i : Nat) :
    (s.bitsAt (s.bitPlace g x k)).getLsbD i = (s.mem.read (s.segBase (.reg g) + (x + k / 8).toNat)).getLsbD i := by
  have hbyte := s.holdsBytes_bitsAt (s.bitPlace g x k) 0 Nat.one_pos
  rw [pow_zero, Nat.div_one, Nat.add_zero, State.linear_bitPlace, BitVec.ofNat_toNat] at hbyte
  rw [hbyte]
  exact congrArg (BitVec.getLsbD · i) (BitVec.setWidth_eq _).symm

theorem State.bitOfMem_of_admits (hmin : -2147483648 ≤ k) (hmax : k ≤ 2147483647)
    (h : s.admits (s.bitPlace g x k) .read = true) :
    s.bitOfMem g x k =
      .ok (bitValue ((s.mem.read (s.segBase (.reg g) + (x + k / 8).toNat)).getLsbD (k % 8).toNat)) := by
  rw [State.bitOfMem, if_pos ⟨hmin, hmax⟩, State.memRead_of_admits h, ok_bind, ← State.bitsAt,
    State.getLsbD_bitsAt_bitPlace, Int.fdiv_eq_ediv_of_nonneg k (by decide), ← Int.emod_def]

theorem State.bitOfMem_stuck (hmin : -2147483648 ≤ k) (hmax : k ≤ 2147483647)
    (h : s.admits (s.bitPlace g x k) .read = false) :
    s.bitOfMem g x k = raise (.notAdmitted (s.bitPlace g x k).seg (s.bitPlace g x k).off (s.bitPlace g x k).size .read) := by
  rw [State.bitOfMem, if_pos ⟨hmin, hmax⟩, State.memRead_stuck h]
  rfl

theorem State.bitOfMem_out_of_range (h : k < -2147483648 ∨ 2147483647 < k) :
    s.bitOfMem g x k = raise (.bitOffsetRange k) :=
  if_neg (by rw [Config.bitOffsetMin, Config.bitOffsetMax]; omega)

end

theorem eval_bitMem {base off : Expr} {s s₁ s₂ : State} {vb vk : Value} (g : SegReg) (hbase : eval base s = .ok (vb, s₁))
    (hoff : eval off s₁ = .ok (vk, s₂)) :
    eval (.bitMem g base off) s =
      (vb.bitsInt >>= fun x => vk.signedInt >>= fun k => s₂.bitOfMem g x k >>= fun b => .ok (b, s₂)) := by
  simp only [eval, hbase, hoff, ok_bind]

/-- Settles O50: an offset in the range of R110 with the byte admitted or not, one out of the range, and operands of another
kind. -/
theorem bitOfMemory : Obligations.BitOfMemory := by
  unfold Obligations.BitOfMemory
  intro g base off s s₁ s₂ vb vk hbase hoff
  have heval := eval_bitMem g hbase hoff
  refine ⟨fun x k p hx hk hp => ?integers, fun h => ?symbolic⟩
  case integers =>
    rw [← State.bitPlace_eq] at hp
    subst hp
    rw [hx, hk, ok_bind, ok_bind] at heval
    refine ⟨fun hmin hmax ha => ?admitted, fun hmin hmax ha => ?stuck, fun hout => ?outside⟩
    case admitted => exact evalForm_of_eval (heval.trans (by rw [State.bitOfMem_of_admits hmin hmax ha, ok_bind, bitValue_getLsbD]))
    case stuck => exact evalForm_of_error (heval.trans (by rw [State.bitOfMem_stuck hmin hmax ha, raise, error_bind]))
    case outside => exact evalForm_of_error (heval.trans (by rw [State.bitOfMem_out_of_range hout, raise, error_bind]))
  case symbolic =>
    refine evalForm_of_error (x := .refused .notInGrammar) (heval.trans ?_)
    by_cases hb : Symbolic vb
    · rw [Value.bitsInt_of_symbolic hb, refuse, error_bind]
    · obtain ⟨x, hx⟩ := bitsInt_readsIntegers.integer vb hb
      rw [hx, ok_bind, Value.signedInt_of_symbolic (h.resolve_left hb), refuse, error_bind]

/-! ## A stored register image -/

/-- Bit `i` of a number is bit `i MOD 8` of the byte `i DIV 8` of those that hold it (R32, R34, R109). -/
theorem getLsbD_read_of_holdsBytes {m : Memory} {a n v i : Nat} (h : HoldsBytes m a n v) (hi : i / 8 < n) :
    (m.read (a + i / 8)).getLsbD (i % 8) = v.testBit i := by
  have hbit : i % 8 < 8 := Nat.mod_lt i (by decide)
  rw [h _ hi, BitVec.getLsbD_ofNat, decide_eq_true hbit, Bool.true_and, show 256 = 2 ^ 8 from rfl, ← pow_mul,
    Nat.testBit_div_two_pow, Nat.mod_add_div]

theorem Size.bits_eq (z : Size) : z.bits = 8 * z.bytes := by cases z <;> rfl

theorem Size.bits_le (z : Size) : z.bits ≤ 32 := by cases z <;> decide

theorem State.getLsbD_of_memRead {s : State} {p : Place} {v : BitVec p.size.bits} {i : Nat} (h : s.memRead p = .ok v)
    (hi : i < p.size.bits) : v.getLsbD i = (s.mem.read (s.linear p + i / 8)).getLsbD (i % 8) := by
  obtain ⟨-, rfl⟩ := State.memRead_ok h
  have hbyte : i / 8 < p.size.bytes := Nat.div_lt_of_lt_mul (Size.bits_eq p.size ▸ hi)
  rw [getLsbD_read_of_holdsBytes (s.holdsBytes_bitsAt p) hbyte, BitVec.testBit_toNat, State.bitsAt]

/-- Settles O52: the byte that Bit reads is the one that holds bit `n` of what is stored. -/
theorem bitOfMemoryAgreesWithTheStoredImage : Obligations.BitOfMemoryAgreesWithTheStoredImage := by
  unfold Obligations.BitOfMemoryAgreesWithTheStoredImage
  intro g base s size v n hread hn ha
  have hbits := Size.bits_le size
  have hoff : ((base : Int) + (n : Int) / 8).toNat = base + n / 8 := by omega
  have hmod : ((n : Int) % 8).toNat = n % 8 := by omega
  have hmem := State.bitOfMem_of_admits (by omega) (by omega) ha
  have hbit : v.getLsbD n = (s.mem.read (s.segBase (.reg g) + base + n / 8)).getLsbD (n % 8) :=
    State.getLsbD_of_memRead hread hn
  rw [hoff, hmod, ← Nat.add_assoc, ← hbit] at hmem
  have heval := eval_bitMem (base := .num base) (off := .num n) g (s := s) rfl rfl
  rw [Value.bitsInt_unsized, Value.signedInt_unsized, ok_bind, ok_bind, hmem, ok_bind] at heval
  exact evalForm_of_eval heval

/-! ## Bit of an operand -/

section
variable {s : State} {o : OperandName}

theorem State.operandOf_congr {t : State} (h : t.launch = s.launch) (o : OperandName) : t.operandOf o = s.operandOf o := by
  cases o <;> simp only [State.operandOf, h]

theorem State.bitOfOperand_reg {r : Reg} (h : (s.operandOf o).kind = .reg r) (k : Int) : s.bitOfOperand o k = s.bitOfReg r k := by
  simp only [State.bitOfOperand, h]

theorem State.bitOfOperand_mem {g : SegReg} {a : BitVec 32} {n : Size} (h : (s.operandOf o).kind = .mem g a n) (k : Int) :
    s.bitOfOperand o k = s.bitOfMem g ((a.toNat % 2 ^ s.addressSize.bits : Nat) : Int) k := by
  simp only [State.bitOfOperand, h, State.effectiveAddress, BitVec.toNat_setWidth]

theorem State.bitOfOperand_imm {n : Size} {c : BitVec 32} (h : (s.operandOf o).kind = .imm n c) (k : Int) :
    s.bitOfOperand o k = refuse .notInGrammar := by
  simp only [State.bitOfOperand, h]

/-- What is done with a value that has been evaluated depends on the state as far as evaluation leaves it alone (R103). -/
theorem eval_bind_congr {α : Type} {e : Expr} {f f' : Value × State → Except Stop α}
    (h : ∀ v t, SameRest s t → f (v, t) = f' (v, t)) : (eval e s >>= f) = (eval e s >>= f') := by
  cases he : eval e s with
  | error x => rfl
  | ok p =>
    obtain ⟨hrest, -⟩ := eval_sameRest he
    exact h p.1 p.2 hrest

theorem eval_bitOperand_reg {r : Reg} (h : (s.operandOf o).kind = .reg r) (off : Expr) :
    eval (.bitOperand o off) s = eval (.bitReg (.reg r) off) s := by
  refine eval_bind_congr fun v t ht => ?_
  obtain ⟨hlaunch, -⟩ := ht
  have hkind : (t.operandOf o).kind = .reg r := by rw [State.operandOf_congr hlaunch, h]
  simp only [State.bitOfOperand_reg hkind, State.regOf_reg]

theorem eval_bitOperand_mem {g : SegReg} {a : BitVec 32} {n : Size} (h : (s.operandOf o).kind = .mem g a n) (off : Expr) :
    eval (.bitOperand o off) s = eval (.bitMem g (.num ((a.toNat % 2 ^ s.addressSize.bits : Nat) : Int)) off) s := by
  refine eval_bind_congr fun v t ht => ?_
  obtain ⟨hlaunch, -, -, -, -, haddr, -⟩ := ht
  have hkind : (t.operandOf o).kind = .mem g a n := by rw [State.operandOf_congr hlaunch, h]
  simp only [State.bitOfOperand_mem hkind, haddr, Value.bitsInt_unsized, ok_bind]

theorem eval_bitOperand {off : Expr} {s' : State} {v : Value} (o : OperandName) (h : eval off s = .ok (v, s')) :
    eval (.bitOperand o off) s = (v.signedInt >>= fun k => s'.bitOfOperand o k >>= fun b => .ok (b, s')) := by
  simp only [eval, h, ok_bind]

theorem eval_bitOperand_imm {off : Expr} {s' : State} {v : Value} {n : Size} {c : BitVec 32}
    (h : (s.operandOf o).kind = .imm n c) (hoff : eval off s = .ok (v, s')) :
    eval (.bitOperand o off) s = refuse .notInGrammar := by
  obtain ⟨⟨hlaunch, -⟩, -⟩ := eval_sameRest hoff
  have hkind : (s'.operandOf o).kind = .imm n c := by rw [State.operandOf_congr hlaunch, h]
  rw [eval_bitOperand o hoff]
  by_cases hv : Symbolic v
  · rw [Value.signedInt_of_symbolic hv]
    rfl
  · obtain ⟨k, hk⟩ := signedInt_readsIntegers.integer v hv
    rw [hk, ok_bind, State.bitOfOperand_imm hkind]
    rfl

end

/-- Settles O51: the expression of an operand's bit is that of its register or of its location, and of an immediate it is
refused. -/
theorem bitOfAnOperandHasTheFormOfItsKind : Obligations.BitOfAnOperandHasTheFormOfItsKind := by
  unfold Obligations.BitOfAnOperandHasTheFormOfItsKind
  refine fun o off s => ⟨fun r h => ?reg, fun g a n h => ?mem, fun n c v s' h hoff => ?imm⟩
  case reg =>
    change evalForm (.bitOperand o off) s = evalForm (.bitReg (.reg r) off) s
    rw [evalForm, evalForm, eval_bitOperand_reg h]
  case mem =>
    change evalForm (.bitOperand o off) s = evalForm (.bitMem g _ off) s
    rw [evalForm, evalForm, eval_bitOperand_mem h]
  case imm => exact evalForm_of_error (eval_bitOperand_imm h hoff)

end Sys2Proof.Machine
end

section
/-! PROOF. I-O-Permission (R111, R112): where the function stops, and the permission bits that it tests. -/

namespace Sys2Proof.Machine

/-! ## The operators on natural numbers -/

section
variable {va vb : Value} {x y : Nat}

theorem opAnd_natCast (hx : va.bitsInt = .ok (x : Int)) (hy : vb.bitsInt = .ok (y : Int)) :
    opAnd va vb = .ok (.unsized ((x &&& y : Nat) : Int)) := by
  rw [opAnd_of_bitsInt hx hy, bitwiseAnd_natCast]

theorem opShr_natCast (hx : va.bitsInt = .ok (x : Int)) (hy : vb.bitsInt = .ok (y : Int)) :
    opShr va vb = .ok (.unsized ((x / 2 ^ y : Nat) : Int)) := by
  rw [opShr, hx, hy, ok_bind, ok_bind, if_pos ⟨Int.natCast_nonneg x, Int.natCast_nonneg y⟩, Int.toNat_natCast,
    Int.fdiv_eq_ediv_of_nonneg _ (by positivity)]
  norm_cast

/-- The index of the byte that holds the permission bit of an I/O address (R111). -/
theorem opShr_three (hx : va.bitsInt = .ok (x : Int)) : opShr va (.unsized 3) = .ok (.unsized ((x / 8 : Nat) : Int)) :=
  opShr_natCast (y := 3) hx rfl

/-- The place in its byte of the permission bit of an I/O address (R111). -/
theorem opAnd_seven (hx : va.bitsInt = .ok (x : Int)) : opAnd va (.unsized 7) = .ok (.unsized ((x % 8 : Nat) : Int)) := by
  rw [opAnd_natCast (y := 7) hx rfl, Nat.and_two_pow_sub_one_eq_mod x 3]

theorem opShl_natCast (hx : va.bitsInt = .ok (x : Int)) (hy : vb.bitsInt = .ok (y : Int)) :
    opShl va vb = .ok (.unsized ((x * 2 ^ y : Nat) : Int)) := by
  rw [opShl, hx, hy, ok_bind, ok_bind, if_pos ⟨Int.natCast_nonneg x, Int.natCast_nonneg y⟩, Int.toNat_natCast]
  norm_cast

theorem opAdd_natCast (hx : va.int? = some (x : Int)) (hy : vb.int? = some (y : Int)) :
    opAdd va vb = .ok (.unsized ((x + y : Nat) : Int)) := by
  rw [opAdd, Value.int_of_int? hx, Value.int_of_int? hy, ok_bind, ok_bind, Nat.cast_add]

/-- A negative operand of SHR and one that is no integer are refused (R86). -/
theorem opShr_refused (h : Symbolic va ∨ ∃ k : Int, va.bitsInt = .ok k ∧ k < 0) (n : Int) :
    opShr va (.unsized n) = refuse .notInGrammar := by
  obtain hs | ⟨k, hk, hneg⟩ := h
  · exact bitsInt_readsIntegers.refuses (.inl hs)
  · rw [opShr, hk, ok_bind, Value.bitsInt_unsized, ok_bind, if_neg (by omega)]

end

/-! ## The bits that are tested -/

theorem land_shifted_mask_eq_zero_iff (x n c : Nat) :
    x &&& ((2 ^ n - 1) * 2 ^ c) = 0 ↔ ∀ i, i < n → x.testBit (c + i) = false := by
  have hbit (j : Nat) : (x &&& ((2 ^ n - 1) * 2 ^ c)).testBit j = (x.testBit j && (decide (c ≤ j) && decide (j - c < n))) := by
    rw [Nat.testBit_and, Nat.testBit_mul_two_pow, Nat.testBit_two_pow_sub_one]
  constructor
  · intro h i hi
    have hzero := hbit (c + i)
    rw [h, Nat.zero_testBit] at hzero
    simpa [hi] using hzero.symm
  · intro h
    refine Nat.eq_of_testBit_eq fun j => ?_
    rw [hbit, Nat.zero_testBit]
    by_cases hj : c ≤ j ∧ j - c < n
    · have hx := h (j - c) hj.2
      rw [Nat.add_sub_cancel' hj.1] at hx
      rw [hx, Bool.false_and]
    · rw [← Bool.decide_and, decide_eq_false hj, Bool.and_false]

/-- What R111 keeps in `CheckString`: the bits of the word at `BitStringAddr` that `mask` selects. -/
def State.checkBits (s : State) (k : Nat) (w : IoWidth) : Nat :=
  (s.bitsAt (bitmapPlace s k)).toNat &&& ((2 ^ w.count - 1) * 2 ^ (k % 8))

/-- The word at `BitStringAddr` holds the permission bits of the I/O addresses from `k` up (R47, R111). -/
theorem ioPermBit_add (s : State) {k i : Nat} (h : k % 8 + i < 16) :
    ioPermBit s (k + i) = (s.bitsAt (bitmapPlace s k)).toNat.testBit (k % 8 + i) := by
  have hbyte : (k % 8 + i) / 8 < (bitmapPlace s k).size.bytes := Nat.div_lt_of_lt_mul h
  have haddr : k / 8 + (k % 8 + i) / 8 = (k + i) / 8 := by omega
  have hmod : (k % 8 + i) % 8 = (k + i) % 8 := by omega
  have hlinear : s.linear (bitmapPlace s k) = s.launch.tssBase + (bitmapPointer s + k / 8) := rfl
  rw [← getLsbD_read_of_holdsBytes (s.holdsBytes_bitsAt (bitmapPlace s k)) hbyte, hlinear, hmod, Nat.add_assoc, Nat.add_assoc,
    haddr, ioPermBit]

theorem IoWidth.count_le (w : IoWidth) : w.count ≤ 4 := by cases w <;> decide

theorem State.checkBits_eq_zero_iff (s : State) (k : Nat) (w : IoWidth) :
    s.checkBits k w = 0 ↔ ∀ i, i < w.count → ioPermBit s (k + i) = false := by
  rw [State.checkBits, land_shifted_mask_eq_zero_iff]
  refine forall₂_congr fun i hi => ?_
  have hcount := IoWidth.count_le w
  rw [ioPermBit_add s (by omega)]

/-! ## The function -/

theorem nBitMaskOf_ioWidth (w : IoWidth) : nBitMaskOf (.ioWidth w) = .ok ((2 ^ w.count - 1 : Nat) : Int) := by
  cases w <;> rfl

theorem nBitMaskOf_noArm {v : Value} (h : ∀ w, v ≠ .ioWidth w) : nBitMaskOf v = raise (.caseNoArm v) := by
  cases v with
  | ioWidth w => exact absurd rfl (h w)
  | sized | unsized | truth | name => rfl

section
variable {s : State} {va vw : Value} {k : Nat} {w : IoWidth}

theorem State.ioPermission_t16 (h : s.launch.tssType = .t16) (va vw : Value) : s.ioPermission va vw = .ok (.truth false) :=
  if_pos h

theorem State.bitsAt_pointerPlace (s : State) : (s.bitsAt (pointerPlace s)).toNat = bitmapPointer s :=
  (BitVec.toNat_ofNat _ _).trans (Nat.mod_eq_of_lt (s.mem.readBytes_lt (s.launch.tssBase + s.launch.iomapPtrOffset) 2))

theorem State.readTssPointer_stuck (h : s.admits (pointerPlace s) .read = false) :
    s.readTssPointer = raise (.notAdmitted .tss s.launch.iomapPtrOffset .word .read) :=
  State.readPlace_stuck h

theorem State.readTssPointer_of_admits (h : s.admits (pointerPlace s) .read = true) :
    s.readTssPointer = .ok (.ofBits (s.bitsAt (pointerPlace s))) :=
  State.readPlace_of_admits h

theorem State.ioPermission_pointer_stuck (ht : s.launch.tssType = .other) (h : s.admits (pointerPlace s) .read = false)
    (va vw : Value) : s.ioPermission va vw = raise (.notAdmitted .tss s.launch.iomapPtrOffset .word .read) := by
  rw [State.ioPermission, if_neg (by simp [ht]), State.readTssPointer_stuck h]
  rfl

theorem State.ioPermission_refused (ht : s.launch.tssType = .other) (hp : s.admits (pointerPlace s) .read = true)
    (h : Symbolic va ∨ ∃ k : Int, va.bitsInt = .ok k ∧ k < 0) (vw : Value) :
    s.ioPermission va vw = refuse .notInGrammar := by
  rw [State.ioPermission, if_neg (by simp [ht]), State.readTssPointer_of_admits hp, ok_bind, opShr_refused h]
  rfl

/-- Once the pointer is read, and the I/O address a natural number, what is left is the mask and the second read (R111). -/
theorem State.ioPermission_of_pointer (ht : s.launch.tssType = .other) (hp : s.admits (pointerPlace s) .read = true)
    (hk : va.bitsInt = .ok (k : Int)) (vw : Value) :
    s.ioPermission va vw = (nBitMaskOf vw >>= fun m => opShl (.unsized m) (.unsized ((k % 8 : Nat) : Int)) >>= fun mask =>
      s.readPlace (bitmapPlace s k) >>= fun bits => opAnd bits mask >>= fun c => opEq c (.unsized 0)) := by
  have hadd : opAdd (.unsized ((k / 8 : Nat) : Int)) (.ofBits (s.bitsAt (pointerPlace s))) =
      .ok (.unsized ((bitmapPointer s + k / 8 : Nat) : Int)) := by
    rw [← State.bitsAt_pointerPlace, Nat.add_comm]
    exact opAdd_natCast rfl rfl
  rw [State.ioPermission, if_neg (by simp [ht]), State.readTssPointer_of_admits hp, ok_bind, opShr_three hk, ok_bind, hadd, ok_bind,
    Value.int_of_int? (Value.int?_unsized _), ok_bind, opAnd_seven hk, ok_bind]
  rfl

theorem State.ioPermission_noArm (ht : s.launch.tssType = .other) (hp : s.admits (pointerPlace s) .read = true)
    (hk : va.bitsInt = .ok (k : Int)) (h : ∀ w, vw ≠ .ioWidth w) : s.ioPermission va vw = raise (.caseNoArm vw) := by
  rw [State.ioPermission_of_pointer ht hp hk, nBitMaskOf_noArm h]
  rfl

theorem State.ioPermission_bitmap_stuck (ht : s.launch.tssType = .other) (hp : s.admits (pointerPlace s) .read = true)
    (hk : va.bitsInt = .ok (k : Int)) (hb : s.admits (bitmapPlace s k) .read = false) (w : IoWidth) :
    s.ioPermission va (.ioWidth w) = raise (.notAdmitted .tss ((bitmapPointer s + k / 8 : Nat) : Int) .word .read) := by
  rw [State.ioPermission_of_pointer ht hp hk, nBitMaskOf_ioWidth, ok_bind, opShl_natCast rfl rfl, ok_bind,
    State.readPlace_stuck hb]
  rfl

theorem State.ioPermission_of_admits (ht : s.launch.tssType = .other) (hp : s.admits (pointerPlace s) .read = true)
    (hk : va.bitsInt = .ok (k : Int)) (hb : s.admits (bitmapPlace s k) .read = true) (w : IoWidth) :
    s.ioPermission va (.ioWidth w) = .ok (.truth (decide (s.checkBits k w = 0))) := by
  rw [State.ioPermission_of_pointer ht hp hk, nBitMaskOf_ioWidth, ok_bind, opShl_natCast rfl rfl, ok_bind,
    State.readPlace_of_admits hb, ok_bind, opAnd_natCast (va := .ofBits _) rfl rfl, ok_bind, ← State.checkBits, opEq,
    valuesEqual_of_int? (Value.int?_unsized _) (Value.int?_unsized 0), ok_bind]
  simp only [Nat.cast_eq_zero]

end

/-! ## The form -/

section
variable {a w : Expr} {s s₁ s₂ : State} {va vw v : Value}

theorem eval_ioPermission (ha : eval a s = .ok (va, s₁)) (hw : eval w s₁ = .ok (vw, s₂)) :
    eval (.ioPermission a w) s = (s₂.ioPermission va vw >>= fun v => .ok (v, s₂)) := by
  simp only [eval, ha, hw, ok_bind]

theorem exec_ioPermission_of_ok (ha : eval a s = .ok (va, s₁)) (hw : eval w s₁ = .ok (vw, s₂))
    (h : s₂.ioPermission va vw = .ok v) : exec (.ioPermission a w) s = .next (s₂.setResult v) :=
  evalForm_of_eval (by rw [eval_ioPermission ha hw, h, ok_bind])

theorem exec_ioPermission_of_error {x : Stop} (ha : eval a s = .ok (va, s₁)) (hw : eval w s₁ = .ok (vw, s₂))
    (h : s₂.ioPermission va vw = .error x) : exec (.ioPermission a w) s = outcome (.error x) :=
  evalForm_of_error (by rw [eval_ioPermission ha hw, h, error_bind])

end

/-- Settles O53: with a 16-bit TSS the function is FALSE, and else it is TRUE where no bit that the mask selects is set. -/
theorem ioPermissionTestsEveryCoveredAddress : Obligations.IoPermissionTestsEveryCoveredAddress := by
  unfold Obligations.IoPermissionTestsEveryCoveredAddress
  intro a w s s₁ s₂ va k width ha hw hk hadmits
  refine exec_ioPermission_of_ok ha hw ?_
  cases ht : s₂.launch.tssType with
  | t16 => rw [State.ioPermission_t16 ht, decide_eq_false fun h => h.1 rfl]
  | other =>
    obtain ⟨hp, hb⟩ := hadmits ht
    rw [State.ioPermission_of_admits ht hp hk hb]
    simp only [State.checkBits_eq_zero_iff, ne_eq, reduceCtorEq, not_false_eq_true, true_and]

/-- Settles O54: FALSE with a 16-bit TSS, and else the stops in the order of R111. -/
theorem ioPermissionOfA16BitTssAndItsStops : Obligations.IoPermissionOfA16BitTssAndItsStops := by
  unfold Obligations.IoPermissionOfA16BitTssAndItsStops
  intro a w s s₁ s₂ va vw ha hw
  refine ⟨fun ht => ?t16, fun ht hp => ?pointer, fun ht hp => ⟨fun h => ?refused, fun k hk => ⟨fun h => ?noArm, ?bitmap⟩⟩⟩
  case t16 => exact exec_ioPermission_of_ok ha hw (State.ioPermission_t16 ht _ _)
  case pointer => exact exec_ioPermission_of_error ha hw (State.ioPermission_pointer_stuck ht hp _ _)
  case refused => exact exec_ioPermission_of_error ha hw (State.ioPermission_refused ht hp h _)
  case noArm => exact exec_ioPermission_of_error ha hw (State.ioPermission_noArm ht hp hk h)
  case bitmap =>
    rintro x rfl hb
    exact exec_ioPermission_of_error ha hw (State.ioPermission_bitmap_stuck ht hp hk hb x)

end Sys2Proof.Machine
end

section
/-! PROOF. The document's own text of I-O-Permission (R111): its statements compute in local variables what the function does. -/

namespace Sys2Proof.Machine

/-! ## The statements of the text, without their comments -/

/-- `RETURN b;`. -/
def returnTruth (b : Bool) : Block := .cons (.ret (.truth b)) .nil

/-- `nBitMask <- n;`, with a 1 for each I/O address that an access of the width covers. -/
def maskArm (w : IoWidth) : Block := .cons (.assign (.loc .nBitMask) (.num ((2 ^ w.count - 1 : Nat) : Int))) .nil

def maskArms : Arms :=
  .cons (.ioWidth .byte) (maskArm .byte) (.cons (.ioWidth .word) (maskArm .word) (.cons (.ioWidth .dword) (maskArm .dword) .nil))

/-- `SHR (I-O-Address, 3) + Ptr`. -/
def bitStringAddrExpr : Expr := .bin .add (.bin .shr (.loc .ioAddress) (.num 3)) (.loc .ptr)

/-- The statements that follow the assignment of `nBitMask`. -/
def testStatements : Block :=
  .cons (.assign (.loc .mask) (.bin .shl (.loc .nBitMask) (.loc .maskShift)))
    (.cons (.assign (.loc .checkString) (.bin .and .bitString (.loc .mask)))
      (.cons (.ifThen (.bin .eq (.loc .checkString) (.num 0)) (returnTruth true) (returnTruth false)) .nil))

/-- The statements of R111. -/
def ioPermissionStatements : Block :=
  .cons (.ifThen .tssIs16 (returnTruth false) .nil)
    (.cons (.assign (.loc .ptr) .tssPointer)
      (.cons (.assign (.loc .bitStringAddr) bitStringAddrExpr)
        (.cons (.assign (.loc .maskShift) (.bin .and (.loc .ioAddress) (.num 7)))
          (.cons (.caseOf (.loc .width) maskArms) testStatements))))

theorem ioPermissionText_readsStripped : ReadsStripped Source.ioPermissionText ioPermissionStatements :=
  readsStripped_of_map (by decide +kernel)

/-! ## Running a statement of the text -/

section
variable {s t : State} {l : Locals} {e : Expr} {v : Value} {rest thn els : Block} {b : Bool}

theorem exists_runsTo_assignLoc {y : LocalName} (x : LocalValue) (hne : rest ≠ .nil)
    (he : eval e ((s.setLocals l).setPc (.at rest)) = .ok (v, (s.setLocals l).setPc (.at rest))) (hx : v.toLocal = .ok x)
    (hrun : ∃ k, RunsTo k ((s.setLocals (l.set x y)).setPc (.at rest)) t) :
    ∃ k, RunsTo k ((s.setLocals l).setPc (.at (.cons (.assign (.loc y) e) rest))) t := by
  refine exists_runsTo_cons ?_ hne hrun
  rw [exec_assign_of_eval _ he, State.assign_loc, hx]
  rfl

theorem exists_runsTo_ifThen (hne : (if b then thn else els).append rest ≠ .nil)
    (he : eval e (s.setPc (.at rest)) = .ok (.truth b, s.setPc (.at rest)))
    (hrun : ∃ k, RunsTo k (s.setPc (.at ((if b then thn else els).append rest))) t) :
    ∃ k, RunsTo k (s.setPc (.at (.cons (.ifThen e thn els) rest))) t := by
  refine exists_runsTo_cons ?_ hne hrun
  rw [exec_ifThen_of_eval _ _ he]
  rfl

theorem exists_runsTo_returnTruth (hbody : s.launch.body = .functionBody) (b : Bool) :
    ∃ k, RunsTo k (s.setPc (.at ((returnTruth b).append rest))) (((s.setResult (.truth b)).setLocals .none).setPc (.at .nil)) := by
  refine exists_runsTo_last (m := (s.setResult (.truth b)).setLocals .none) hbody ?_
  rw [exec_ret_of_functionBody (s := s.setPc (.at (Block.nil.append rest))) _ hbody]
  rfl

theorem exists_runsTo_ifReturn (hbody : s.launch.body = .functionBody)
    (he : eval e (s.setPc (.at rest)) = .ok (.truth b, s.setPc (.at rest))) :
    ∃ k, RunsTo k (s.setPc (.at (.cons (.ifThen e (returnTruth true) (returnTruth false)) rest)))
      (((s.setResult (.truth b)).setLocals .none).setPc (.at .nil)) := by
  have harm : (if b then returnTruth true else returnTruth false) = returnTruth b := by cases b <;> rfl
  refine exists_runsTo_ifThen ?_ he ?_
  · rw [harm]
    exact nofun
  · rw [harm]
    exact exists_runsTo_returnTruth hbody b

/-- The arm of `CASE width OF` gives `nBitMask` the mask of the width (R111). -/
theorem exists_runsTo_maskArms {w : IoWidth} (hne : rest ≠ .nil) (hw : l.get .width = some (.ioWidth w))
    (hrun : ∃ k, RunsTo k ((s.setLocals (l.set (.int ((2 ^ w.count - 1 : Nat) : Int)) .nBitMask)).setPc (.at rest)) t) :
    ∃ k, RunsTo k ((s.setLocals l).setPc (.at (.cons (.caseOf (.loc .width) maskArms) rest))) t := by
  have hselect : selectArm (.ioWidth w) maskArms = some (maskArm w) := by cases w <;> rfl
  have hload : eval (.loc .width) ((s.setLocals l).setPc (.at rest)) = .ok (.ioWidth w, (s.setLocals l).setPc (.at rest)) :=
    eval_loc_of_get hw
  refine exists_runsTo_cons (b := (maskArm w).append rest) ?_ nofun (exists_runsTo_assignLoc _ hne rfl rfl hrun)
  rw [exec_caseOf_of_eval (v := .ioWidth w) _ nofun hload, hselect]
  rfl

end

/-! ## The expressions of the text -/

section
variable {s : State} {k n m : Nat}

theorem eval_bin_ok {a b : Expr} {va vb v : Value} {op : BinOp} (ha : eval a s = .ok (va, s)) (hb : eval b s = .ok (vb, s))
    (h : applyOp op va vb = .ok v) : eval (.bin op a b) s = .ok (v, s) := by
  rw [eval_bin ha hb, h, ok_bind]

theorem eval_tssPointer (h : s.admits (pointerPlace s) .read = true) :
    eval .tssPointer s = .ok (.ofBits (s.bitsAt (pointerPlace s)), s) := by
  simp only [eval, State.readTssPointer_of_admits h, ok_bind]

theorem eval_bitStringAddrExpr (hk : s.locals.get .ioAddress = some (.unsized k)) (hn : s.locals.get .ptr = some (.unsized n)) :
    eval bitStringAddrExpr s = .ok (.unsized ((n + k / 8 : Nat) : Int), s) := by
  have hshr : eval (.bin .shr (.loc .ioAddress) (.num 3)) s = .ok (.unsized ((k / 8 : Nat) : Int), s) :=
    eval_bin_ok (eval_loc_of_get hk) rfl (opShr_three rfl)
  rw [Nat.add_comm]
  exact eval_bin_ok hshr (eval_loc_of_get hn) (opAdd_natCast rfl rfl)

theorem eval_maskShift (hk : s.locals.get .ioAddress = some (.unsized k)) :
    eval (.bin .and (.loc .ioAddress) (.num 7)) s = .ok (.unsized ((k % 8 : Nat) : Int), s) :=
  eval_bin_ok (eval_loc_of_get hk) rfl (opAnd_seven rfl)

theorem eval_mask (hm : s.locals.get .nBitMask = some (.unsized m)) (hn : s.locals.get .maskShift = some (.unsized n)) :
    eval (.bin .shl (.loc .nBitMask) (.loc .maskShift)) s = .ok (.unsized ((m * 2 ^ n : Nat) : Int), s) :=
  eval_bin_ok (eval_loc_of_get hm) (eval_loc_of_get hn) (opShl_natCast rfl rfl)

theorem eval_bitString {p : Place} (hp : s.bitStringPlace = .ok p) (h : s.admits p .read = true) :
    eval .bitString s = .ok (.ofBits (s.bitsAt p), s) := by
  simp only [eval, hp, State.readPlace_of_admits h, ok_bind]

theorem eval_checkString {w : IoWidth}
    (ha : s.locals.get .bitStringAddr = some (.unsized ((bitmapPointer s + k / 8 : Nat) : Int)))
    (hm : s.locals.get .mask = some (.unsized (((2 ^ w.count - 1) * 2 ^ (k % 8) : Nat) : Int)))
    (h : s.admits (bitmapPlace s k) .read = true) :
    eval (.bin .and .bitString (.loc .mask)) s = .ok (.unsized (s.checkBits k w), s) := by
  have hplace : s.bitStringPlace = .ok (bitmapPlace s k) := by
    rw [State.bitStringPlace_of_get ha, Value.int_of_int? (Value.int?_unsized _), ok_bind]
    rfl
  refine eval_bin_ok (eval_bitString hplace h) (eval_loc_of_get hm) ?_
  rw [applyOp, opAnd_natCast (va := .ofBits _) rfl rfl, State.checkBits]

theorem eval_checkString_eq_zero (hn : s.locals.get .checkString = some (.unsized n)) :
    eval (.bin .eq (.loc .checkString) (.num 0)) s = .ok (.truth (decide (n = 0)), s) := by
  refine eval_bin_ok (eval_loc_of_get hn) rfl ?_
  rw [applyOp, opEq, valuesEqual_of_int? (Value.int?_unsized _) (Value.int?_unsized 0), ok_bind]
  simp only [Nat.cast_eq_zero]

end

/-! ## The run of the text -/

section
variable {s : State} {l : Locals} {k : Nat} {w : IoWidth} {a : Int} {b : Bool}

/-- Where the function answers for a TSS that is not a 16-bit one, the I/O address is a natural number, both reads are admitted
and the answer is the test of R111. -/
theorem State.ioPermission_ok (ht : s.launch.tssType = .other)
    (h : s.ioPermission (.unsized a) (.ioWidth w) = .ok (.truth b)) :
    ∃ k : Nat, a = k ∧ s.admits (pointerPlace s) .read = true ∧ s.admits (bitmapPlace s k) .read = true ∧
      b = decide (s.checkBits k w = 0) := by
  cases hp : s.admits (pointerPlace s) .read with
  | false => cases (State.ioPermission_pointer_stuck ht hp _ _).symm.trans h
  | true =>
    by_cases hneg : a < 0
    · cases (State.ioPermission_refused ht hp (.inr ⟨a, rfl, hneg⟩) _).symm.trans h
    · obtain ⟨k, rfl⟩ := Int.eq_ofNat_of_zero_le (not_lt.mp hneg)
      cases hb : s.admits (bitmapPlace s k) .read with
      | false => cases (State.ioPermission_bitmap_stuck ht hp rfl hb w).symm.trans h
      | true =>
        cases (State.ioPermission_of_admits ht hp rfl hb w).symm.trans h
        exact ⟨k, rfl, rfl, hb, rfl⟩

theorem exists_runsTo_testStatements (hbody : s.launch.body = .functionBody)
    (ha : l.get .bitStringAddr = some (.unsized ((bitmapPointer s + k / 8 : Nat) : Int)))
    (hshift : l.get .maskShift = some (.unsized ((k % 8 : Nat) : Int)))
    (hmask : l.get .nBitMask = some (.unsized ((2 ^ w.count - 1 : Nat) : Int)))
    (hb : s.admits (bitmapPlace s k) .read = true) :
    ∃ n, RunsTo n ((s.setLocals l).setPc (.at testStatements))
      (((s.setResult (.truth (decide (s.checkBits k w = 0)))).setLocals .none).setPc (.at .nil)) := by
  refine exists_runsTo_assignLoc _ nofun (eval_mask hmask hshift) rfl ?_
  refine exists_runsTo_assignLoc (.int (s.checkBits k w)) nofun (eval_checkString ha rfl hb) rfl ?_
  exact exists_runsTo_ifReturn hbody (eval_checkString_eq_zero rfl)

/-- The statements of R111 give the answer of the function where it has one. -/
theorem exists_runsTo_ioPermissionStatements (hbody : s.launch.body = .functionBody)
    (ha : s.locals.get .ioAddress = some (.unsized a)) (hw : s.locals.get .width = some (.ioWidth w))
    (h : s.ioPermission (.unsized a) (.ioWidth w) = .ok (.truth b)) :
    ∃ n, RunsTo n (s.setPc (.at ioPermissionStatements)) (((s.setResult (.truth b)).setLocals .none).setPc (.at .nil)) := by
  have hcond (p : Position) : eval .tssIs16 (s.setPc p) = .ok (.truth (decide (s.launch.tssType = .t16)), s.setPc p) := rfl
  refine exists_runsTo_ifThen ?nonempty (hcond _) ?run
  case nonempty => split <;> exact nofun
  case run =>
    cases ht : s.launch.tssType with
    | t16 =>
      cases (State.ioPermission_t16 ht _ _).symm.trans h
      exact exists_runsTo_returnTruth hbody false
    | other =>
      obtain ⟨k, rfl, hp, hb, rfl⟩ := State.ioPermission_ok ht h
      have hptr : (Value.ofBits (s.bitsAt (pointerPlace s))).toLocal = .ok (.int (bitmapPointer s)) :=
        congrArg (fun n : Nat => Except.ok (LocalValue.int n)) s.bitsAt_pointerPlace
      refine exists_runsTo_assignLoc (l := s.locals) _ nofun (eval_tssPointer hp) hptr ?_
      refine exists_runsTo_assignLoc _ nofun (eval_bitStringAddrExpr ha rfl) rfl ?_
      refine exists_runsTo_assignLoc _ nofun (eval_maskShift ha) rfl ?_
      refine exists_runsTo_maskArms nofun hw ?_
      exact exists_runsTo_testStatements hbody rfl rfl rfl hb

end

/-- Settles O60: the statements of the text, run with the arguments in `I-O-Address` and `width`, give what the function gives. -/
theorem ioPermissionTextComputesIoPermission : Obligations.IoPermissionTextComputesIoPermission := by
  unfold Obligations.IoPermissionTextComputesIoPermission
  intro s a w b hpc htext hbody hbegun ha hw h
  have hread : ReadsStripped s.launch.text ioPermissionStatements := htext ▸ ioPermissionText_readsStripped
  exact exists_runsTo_of_readsStripped hpc hbody hbegun hread nofun rfl (exists_runsTo_ioPermissionStatements hbody ha hw h)

end Sys2Proof.Machine
end

section
/-! PROOF. A stop of an operand is the outcome of its statement (R119): what is evaluated first, and what after it. -/

namespace Sys2Proof.Machine

/-- `e` takes its value from that of its operand `a`, which is evaluated first. -/
def TakesFrom (e a : Expr) : Prop :=
  ∃ f : Value × State → Except Stop (Value × State), ∀ s, eval e s = (eval a s >>= f)

/-- `e` takes its value from those of its operands: `a` is evaluated first, and `b` in the state that `a` leaves. -/
def TakesFromBoth (e a b : Expr) : Prop :=
  ∃ f : Value × State → Value × State → Except Stop (Value × State),
    ∀ s, eval e s = (eval a s >>= fun p => eval b p.2 >>= f p)

/-! ## The operands of the forms -/

section
variable {a b : Expr}

theorem takesFrom_truncate16 : TakesFrom (.truncate16 a) a := ⟨_, fun _ => rfl⟩

theorem takesFrom_zeroExtend : TakesFrom (.zeroExtend a) a := ⟨_, fun _ => rfl⟩

theorem takesFrom_signExtend : TakesFrom (.signExtend a) a := ⟨_, fun _ => rfl⟩

theorem takesFrom_bitReg {n : RegName} : TakesFrom (.bitReg n a) a := ⟨_, fun _ => rfl⟩

theorem takesFrom_bitOperand {o : OperandName} : TakesFrom (.bitOperand o a) a := ⟨_, fun _ => rfl⟩

theorem takesFromBoth_bitMem {g : SegReg} : TakesFromBoth (.bitMem g a b) a b :=
  ⟨fun p q => do .ok (← q.2.bitOfMem g (← p.1.bitsInt) (← q.1.signedInt), q.2), fun _ => rfl⟩

theorem takesFromBoth_ioPermission : TakesFromBoth (.ioPermission a b) a b :=
  ⟨fun p q => do .ok (← q.2.ioPermission p.1 q.1, q.2), fun _ => rfl⟩

/-- The test of R96 alone evaluates no operand. -/
theorem takesFromBoth_bin {op : BinOp} (h : nameTest op a b = none) : TakesFromBoth (.bin op a b) a b := by
  refine ⟨fun p q => do .ok (← applyOp op p.1 q.1, q.2), fun s => ?_⟩
  simp only [eval, h]

theorem toExpr_of_toInstr_bin {op : BinOp} {i : Instr} (h : (Expr.bin op a b).toInstr = some i) :
    i.toExpr = some (.bin op a b) := by
  cases op <;> cases h <;> rfl

end

/-! ## The stop of an operand -/

section
variable {i : Instr} {e a b : Expr} {s s₁ : State} {va : Value} {x : Stop}

theorem TakesFromBoth.takesFrom (he : TakesFromBoth e a b) : TakesFrom e a := by
  obtain ⟨f, hf⟩ := he
  exact ⟨_, hf⟩

/-- A stop of the first operand is the outcome of the form. -/
theorem exec_of_operand_error (hi : i.toExpr = some e) (he : TakesFrom e a) (h : eval a s = .error x) :
    exec i s = outcome (.error x) := by
  obtain ⟨f, hf⟩ := he
  rw [exec_of_toExpr hi]
  exact evalForm_of_error (by rw [hf, h, error_bind])

/-- A stop of the second operand is the outcome of the form, whatever value the first has. -/
theorem exec_of_second_operand_error (hi : i.toExpr = some e) (he : TakesFromBoth e a b)
    (ha : eval a s = .ok (va, s₁)) (h : eval b s₁ = .error x) : exec i s = outcome (.error x) := by
  obtain ⟨f, hf⟩ := he
  rw [exec_of_toExpr hi]
  exact evalForm_of_error (by rw [hf, ha, ok_bind, h, error_bind])

theorem exec_push_of_eval_error (h : eval a s = .error x) : exec (.push a) s = outcome (.error x) := by
  simp only [exec, execPush, h, error_bind]

theorem exec_caseOf_of_eval_error (arms : Arms) (h : eval a s = .error x) :
    exec (.caseOf a arms) s = outcome (.error x) := by
  obtain ⟨-, -, -, hstop⟩ := caseRunsTheArmWithTheLabel a arms s
  exact hstop x h

end

/-- Settles O39: the operands that each form takes its value from, in their order. -/
theorem operandsStopTheStatement : Obligations.OperandsStopTheStatement := by
  unfold Obligations.OperandsStopTheStatement
  refine fun a b s x => ⟨fun h => ⟨fun d => ?assign, ?push, fun arms => ?caseOf, ?truncate16, ?zeroExtend, ?signExtend,
    fun n => ?bitReg, fun o => ?bitOperand, fun g => ?bitMem, ?ioPermission⟩,
    fun va s₁ ha h => ⟨fun g => ?bitMemSecond, ?ioPermissionSecond⟩,
    fun op i hname hi => ⟨fun h => ?operator, fun va s₁ ha h => ?operatorSecond⟩⟩
  case assign => exact exec_assign_of_eval_error h
  case push => exact exec_push_of_eval_error h
  case caseOf => exact exec_caseOf_of_eval_error arms h
  case truncate16 => exact exec_of_operand_error rfl takesFrom_truncate16 h
  case zeroExtend => exact exec_of_operand_error rfl takesFrom_zeroExtend h
  case signExtend => exact exec_of_operand_error rfl takesFrom_signExtend h
  case bitReg => exact exec_of_operand_error rfl takesFrom_bitReg h
  case bitOperand => exact exec_of_operand_error rfl takesFrom_bitOperand h
  case bitMem => exact exec_of_operand_error rfl takesFromBoth_bitMem.takesFrom h
  case ioPermission => exact exec_of_operand_error rfl takesFromBoth_ioPermission.takesFrom h
  case operator => exact exec_of_operand_error (toExpr_of_toInstr_bin hi) (takesFromBoth_bin hname).takesFrom h
  case bitMemSecond => exact exec_of_second_operand_error rfl takesFromBoth_bitMem ha h
  case ioPermissionSecond => exact exec_of_second_operand_error rfl takesFromBoth_ioPermission ha h
  case operatorSecond => exact exec_of_second_operand_error (toExpr_of_toInstr_bin hi) (takesFromBoth_bin hname) ha h

end Sys2Proof.Machine
end
